-- ==== Sys2Proof/Word.lean ====
section
/-! DEFINITION. The machine word, its byte lanes' type and the radix masks (00_scope.md R8). -/

namespace Sys2Proof

/-- R8: the word of the block, `WB = 32` bits, unsigned. -/
abbrev Word := BitVec 32

/-- One byte lane of a bus word (20_memory.md R77). -/
abbrev Byte := BitVec 8

/-- R8: the full word mask. -/
def fullMask : Word := 0xFFFFFFFF

/-- R8: the high half-word mask. -/
def highHalfMask : Word := 0xFFFF0000

/-- R8: the low half-word mask. -/
def lowHalfMask : Word := 0x0000FFFF

end Sys2Proof
end

