-- ==== Sys2Proof/Syntax.lean ====
section
/-! DEFINITION. The command set: one constructor per row of the opcode map (30_encoding.md R105),
and the pseudo-commands of R109. -/

namespace Sys2Proof

/-- A 4-bit operand field (R101, R103): it names one of the 16 scalar registers in a word-layer
command and one of the 16 operand slots in every other command. -/
abbrev Idx := Fin 16

/-- One command per row of the opcode map (R105).  Operands stand in the order of R105's operand
column; `shamt` is the 16-bit immediate of R104; `ignored` are the 24 bits format FU ignores (R102),
kept so that no bit of a command word is lost (log 7). -/
inductive Instr where
  | nop
  | wmul (d a b : Idx)
  | wsqr (d a : Idx)
  | wdmul (d a b : Idx)
  | wmac (d a b c : Idx)
  | wmsb (d a : Idx)
  | wdiv (d a b : Idx)
  | wmod (d a b : Idx)
  | norm (d : Idx)
  | acmp (a b : Idx)
  | cmp (a b : Idx)
  | rsh (d a : Idx) (shamt : BitVec 16)
  | lsh (d a : Idx) (shamt : BitVec 16)
  | aadd (d a b : Idx)
  | asub (d a b : Idx)
  | add (d a b : Idx)
  | sub (d a b : Idx)
  | mul (d a b : Idx)
  | kmul (d a b : Idx)
  | sqr (d a : Idx)
  | bred (d a b c : Idx)
  | mont (ignored : BitVec 24)
  | gdeg (a : Idx)
  | grsh (d a : Idx) (shamt : BitVec 16)
  | glsh (d a : Idx) (shamt : BitVec 16)
  | gadd (d a b : Idx)
  | gred (d a c : Idx)
  | gmul (d a b c : Idx)
  | gdiv (ignored : BitVec 24)
  | gsqr (ignored : BitVec 24)
deriving DecidableEq, Repr

/-- R109: the pseudo-commands. -/
inductive Pseudo where
  | mov (d a : Idx)
  | gmov (d a : Idx)
  | clr (d : Idx)
  | neg (d a : Idx)
  | gclr (d : Idx)
deriving DecidableEq, Repr

/-- R109: the commands a pseudo-command stands for, in order. -/
def Pseudo.expand : Pseudo → List Instr
  | .mov d a => [.rsh d a 0]
  | .gmov d a => [.grsh d a 0]
  | .clr d => [.sub d d d]
  | .neg d a => [.sub d a a, .sub d d a]
  | .gclr d => [.gadd d d d]

end Sys2Proof
end

