-- ==== Sys2Proof/WellFormed.lean ====
section
/-! DEFINITION. Which commands and pseudo-commands the assembler of 30_encoding.md R108-R109 accepts.
The types of `Instr` already bound every operand field (16 registers, a 16-bit `shamt`), so every term
of `Instr` is a command the decoder can produce; what is left to check is what the assembler adds. -/

namespace Sys2Proof

/-- R108: "F0 and FU commands take no operands and assemble with bits 23:0 zero", so a term whose
ignored bits are not zero comes from no assembler line (though the block runs it, R106). -/
def Instr.wf : Instr → Bool
  | .nop => true
  | .wmul _ _ _ => true
  | .wsqr _ _ => true
  | .wdmul _ _ _ => true
  | .wmac _ _ _ _ => true
  | .wmsb _ _ => true
  | .wdiv _ _ _ => true
  | .wmod _ _ _ => true
  | .norm _ => true
  | .acmp _ _ => true
  | .cmp _ _ => true
  | .rsh _ _ _ => true
  | .lsh _ _ _ => true
  | .aadd _ _ _ => true
  | .asub _ _ _ => true
  | .add _ _ _ => true
  | .sub _ _ _ => true
  | .mul _ _ _ => true
  | .kmul _ _ _ => true
  | .sqr _ _ => true
  | .bred _ _ _ _ => true
  | .mont ignored => ignored == 0
  | .gdeg _ => true
  | .grsh _ _ _ => true
  | .glsh _ _ _ => true
  | .gadd _ _ _ => true
  | .gred _ _ _ => true
  | .gmul _ _ _ _ => true
  | .gdiv ignored => ignored == 0
  | .gsqr ignored => ignored == 0

/-- R109: `NEG sD, sA` requires `D != A`; the other pseudo-commands have no side condition. -/
def Pseudo.wf : Pseudo → Bool
  | .mov _ _ => true
  | .gmov _ _ => true
  | .clr _ => true
  | .neg d a => d != a
  | .gclr _ => true

end Sys2Proof
end

