-- ==== Sys2Proof/Decode.lean ====
section
/-! DEFINITION. The decoder of command words, total on every 32-bit word, and after it the encoder
(30_encoding.md R100-R107; 20_memory.md R77 for the byte lanes of a word). -/

namespace Sys2Proof

/-- Why a word is no command.  The first two are R106's illegal words; the third can only be met by
`decodeBytes`, since a command is always delivered whole (R100). -/
inductive DecodeError where
  /-- `c[31:24]` is not in R105's map. -/
  | unassignedOpcode
  /-- A field that the opcode's format lists as must-be-zero is not zero. -/
  | fieldNotZero
  /-- Fewer than four bytes. -/
  | truncated
deriving DecidableEq, Repr

/-! ### The fields of R101 -/

/-- R101: `OPC`. -/
def fieldOpc (c : Word) : BitVec 8 := c.extractLsb' 24 8
/-- R101: `D`. -/
def fieldD (c : Word) : BitVec 4 := c.extractLsb' 20 4
/-- R101: `A`. -/
def fieldA (c : Word) : BitVec 4 := c.extractLsb' 16 4
/-- R101: `B`. -/
def fieldB (c : Word) : BitVec 4 := c.extractLsb' 12 4
/-- R101: `C`. -/
def fieldC (c : Word) : BitVec 4 := c.extractLsb' 8 4
/-- R101: `Z`. -/
def fieldZ (c : Word) : BitVec 8 := c.extractLsb' 0 8
/-- R101, R104: `SHAMT`, overlaying `B`, `C` and `Z`. -/
def fieldShamt (c : Word) : BitVec 16 := c.extractLsb' 0 16
/-- R102: the 24 bits format FU ignores. -/
def fieldIgnored (c : Word) : BitVec 24 := c.extractLsb' 0 24

/-- R103: field value `n` names register `n`. -/
def idxOfField (v : BitVec 4) : Idx := v.toFin

/-- The operand named by field `D`. -/
def idxD (c : Word) : Idx := idxOfField (fieldD c)
/-- The operand named by field `A`. -/
def idxA (c : Word) : Idx := idxOfField (fieldA c)
/-- The operand named by field `B`. -/
def idxB (c : Word) : Idx := idxOfField (fieldB c)
/-- The operand named by field `C`. -/
def idxC (c : Word) : Idx := idxOfField (fieldC c)

/-! ### The must-be-zero fields of R102, one check per format -/

/-- R102: the zero fields of format F0. -/
def zerosF0 (c : Word) : Bool := fieldD c == 0 && fieldA c == 0 && fieldB c == 0 && fieldC c == 0 && fieldZ c == 0
/-- R102: the zero fields of format FN. -/
def zerosFN (c : Word) : Bool := fieldA c == 0 && fieldB c == 0 && fieldC c == 0 && fieldZ c == 0
/-- R102: the zero fields of format FA. -/
def zerosFA (c : Word) : Bool := fieldD c == 0 && fieldB c == 0 && fieldC c == 0 && fieldZ c == 0
/-- R102: the zero fields of format FAB. -/
def zerosFAB (c : Word) : Bool := fieldD c == 0 && fieldC c == 0 && fieldZ c == 0
/-- R102: the zero fields of format FDA. -/
def zerosFDA (c : Word) : Bool := fieldB c == 0 && fieldC c == 0 && fieldZ c == 0
/-- R102: the zero fields of format FDAB. -/
def zerosFDAB (c : Word) : Bool := fieldC c == 0 && fieldZ c == 0
/-- R102: the zero fields of format FDAC. -/
def zerosFDAC (c : Word) : Bool := fieldB c == 0 && fieldZ c == 0
/-- R102: the zero fields of format FDABC. -/
def zerosFDABC (c : Word) : Bool := fieldZ c == 0

/-- R106: a command is accepted only when its must-be-zero fields are zero. -/
def requireZeros (zeros : Bool) (i : Instr) : Except DecodeError Instr :=
  if zeros then .ok i else .error .fieldNotZero

/-- R106: decoding is total; MONT, GDIV and GSQR are never illegal. -/
def decode (c : Word) : Except DecodeError Instr :=
  match (fieldOpc c).toNat with
  | 0x00 => requireZeros (zerosF0 c) .nop
  | 0x10 => requireZeros (zerosFDAB c) (.wmul (idxD c) (idxA c) (idxB c))
  | 0x11 => requireZeros (zerosFDA c) (.wsqr (idxD c) (idxA c))
  | 0x12 => requireZeros (zerosFDAB c) (.wdmul (idxD c) (idxA c) (idxB c))
  | 0x13 => requireZeros (zerosFDABC c) (.wmac (idxD c) (idxA c) (idxB c) (idxC c))
  | 0x14 => requireZeros (zerosFDA c) (.wmsb (idxD c) (idxA c))
  | 0x15 => requireZeros (zerosFDAB c) (.wdiv (idxD c) (idxA c) (idxB c))
  | 0x16 => requireZeros (zerosFDAB c) (.wmod (idxD c) (idxA c) (idxB c))
  | 0x20 => requireZeros (zerosFN c) (.norm (idxD c))
  | 0x21 => requireZeros (zerosFAB c) (.acmp (idxA c) (idxB c))
  | 0x22 => requireZeros (zerosFAB c) (.cmp (idxA c) (idxB c))
  | 0x23 => .ok (.rsh (idxD c) (idxA c) (fieldShamt c))
  | 0x24 => .ok (.lsh (idxD c) (idxA c) (fieldShamt c))
  | 0x30 => requireZeros (zerosFDAB c) (.aadd (idxD c) (idxA c) (idxB c))
  | 0x31 => requireZeros (zerosFDAB c) (.asub (idxD c) (idxA c) (idxB c))
  | 0x32 => requireZeros (zerosFDAB c) (.add (idxD c) (idxA c) (idxB c))
  | 0x33 => requireZeros (zerosFDAB c) (.sub (idxD c) (idxA c) (idxB c))
  | 0x40 => requireZeros (zerosFDAB c) (.mul (idxD c) (idxA c) (idxB c))
  | 0x41 => requireZeros (zerosFDAB c) (.kmul (idxD c) (idxA c) (idxB c))
  | 0x42 => requireZeros (zerosFDA c) (.sqr (idxD c) (idxA c))
  | 0x50 => requireZeros (zerosFDABC c) (.bred (idxD c) (idxA c) (idxB c) (idxC c))
  | 0x51 => .ok (.mont (fieldIgnored c))
  | 0x60 => requireZeros (zerosFA c) (.gdeg (idxA c))
  | 0x61 => .ok (.grsh (idxD c) (idxA c) (fieldShamt c))
  | 0x62 => .ok (.glsh (idxD c) (idxA c) (fieldShamt c))
  | 0x63 => requireZeros (zerosFDAB c) (.gadd (idxD c) (idxA c) (idxB c))
  | 0x64 => requireZeros (zerosFDAC c) (.gred (idxD c) (idxA c) (idxC c))
  | 0x65 => requireZeros (zerosFDABC c) (.gmul (idxD c) (idxA c) (idxB c) (idxC c))
  | 0x66 => .ok (.gdiv (fieldIgnored c))
  | 0x67 => .ok (.gsqr (fieldIgnored c))
  | _ => .error .unassignedOpcode

/-- R77: the word that four byte lanes carry, lane 0 holding bits 7:0. -/
def wordOfLanes (b0 b1 b2 b3 : Byte) : Word := b3 ++ b2 ++ b1 ++ b0

/-- The decoder on bytes: one command is four byte lanes (R77, R100). -/
def decodeBytes : List Byte → Except DecodeError (Instr × List Byte)
  | b0 :: b1 :: b2 :: b3 :: rest =>
    match decode (wordOfLanes b0 b1 b2 b3) with
    | .ok i => .ok (i, rest)
    | .error e => .error e
  | _ => .error .truncated

/-- The instruction the decoder reads from a word of the opcode table: every command is one 32-bit
word (R100), and the bits above `nbits` are zero. -/
def decodeTableWord (nbits w : Nat) : Option Instr :=
  (decode (BitVec.ofNat 32 (w % 2 ^ nbits))).toOption

/-! ### The encoder (R101, R102, R108) -/

/-- R103: the field value that names register `n`. -/
def fieldOfIdx (i : Idx) : BitVec 4 := BitVec.ofFin i

/-- R101, R108: the word `{OPC, D, A, B, C, Z}`. -/
def commandWord (opc : BitVec 8) (d a b c : BitVec 4) (z : BitVec 8) : Word :=
  opc ++ d ++ a ++ b ++ c ++ z

/-- R101, R108: the word `{OPC, D, A, SHAMT}`. -/
def shiftWord (opc : BitVec 8) (d a : BitVec 4) (shamt : BitVec 16) : Word :=
  opc ++ d ++ a ++ shamt

/-- R102: the word of format FU. -/
def unimplWord (opc : BitVec 8) (ignored : BitVec 24) : Word := opc ++ ignored

/-- The command word of a command, from the opcode map of R105 and the formats of R102. -/
def encode : Instr → Word
  | .nop => commandWord 0x00 0 0 0 0 0
  | .wmul d a b => commandWord 0x10 (fieldOfIdx d) (fieldOfIdx a) (fieldOfIdx b) 0 0
  | .wsqr d a => commandWord 0x11 (fieldOfIdx d) (fieldOfIdx a) 0 0 0
  | .wdmul d a b => commandWord 0x12 (fieldOfIdx d) (fieldOfIdx a) (fieldOfIdx b) 0 0
  | .wmac d a b c => commandWord 0x13 (fieldOfIdx d) (fieldOfIdx a) (fieldOfIdx b) (fieldOfIdx c) 0
  | .wmsb d a => commandWord 0x14 (fieldOfIdx d) (fieldOfIdx a) 0 0 0
  | .wdiv d a b => commandWord 0x15 (fieldOfIdx d) (fieldOfIdx a) (fieldOfIdx b) 0 0
  | .wmod d a b => commandWord 0x16 (fieldOfIdx d) (fieldOfIdx a) (fieldOfIdx b) 0 0
  | .norm d => commandWord 0x20 (fieldOfIdx d) 0 0 0 0
  | .acmp a b => commandWord 0x21 0 (fieldOfIdx a) (fieldOfIdx b) 0 0
  | .cmp a b => commandWord 0x22 0 (fieldOfIdx a) (fieldOfIdx b) 0 0
  | .rsh d a shamt => shiftWord 0x23 (fieldOfIdx d) (fieldOfIdx a) shamt
  | .lsh d a shamt => shiftWord 0x24 (fieldOfIdx d) (fieldOfIdx a) shamt
  | .aadd d a b => commandWord 0x30 (fieldOfIdx d) (fieldOfIdx a) (fieldOfIdx b) 0 0
  | .asub d a b => commandWord 0x31 (fieldOfIdx d) (fieldOfIdx a) (fieldOfIdx b) 0 0
  | .add d a b => commandWord 0x32 (fieldOfIdx d) (fieldOfIdx a) (fieldOfIdx b) 0 0
  | .sub d a b => commandWord 0x33 (fieldOfIdx d) (fieldOfIdx a) (fieldOfIdx b) 0 0
  | .mul d a b => commandWord 0x40 (fieldOfIdx d) (fieldOfIdx a) (fieldOfIdx b) 0 0
  | .kmul d a b => commandWord 0x41 (fieldOfIdx d) (fieldOfIdx a) (fieldOfIdx b) 0 0
  | .sqr d a => commandWord 0x42 (fieldOfIdx d) (fieldOfIdx a) 0 0 0
  | .bred d a b c => commandWord 0x50 (fieldOfIdx d) (fieldOfIdx a) (fieldOfIdx b) (fieldOfIdx c) 0
  | .mont ignored => unimplWord 0x51 ignored
  | .gdeg a => commandWord 0x60 0 (fieldOfIdx a) 0 0 0
  | .grsh d a shamt => shiftWord 0x61 (fieldOfIdx d) (fieldOfIdx a) shamt
  | .glsh d a shamt => shiftWord 0x62 (fieldOfIdx d) (fieldOfIdx a) shamt
  | .gadd d a b => commandWord 0x63 (fieldOfIdx d) (fieldOfIdx a) (fieldOfIdx b) 0 0
  | .gred d a c => commandWord 0x64 (fieldOfIdx d) (fieldOfIdx a) 0 (fieldOfIdx c) 0
  | .gmul d a b c => commandWord 0x65 (fieldOfIdx d) (fieldOfIdx a) (fieldOfIdx b) (fieldOfIdx c) 0
  | .gdiv ignored => unimplWord 0x66 ignored
  | .gsqr ignored => unimplWord 0x67 ignored

/-! ### The opcode map as rows (R105, R102) -/

/-- A row of the opcode map: a word `c` is the row's command when `c &&& mask = pattern`. -/
structure OpcodeRow where
  mnemonic : String
  mask : Word
  pattern : Word
deriving DecidableEq, Repr

/-- The row of a command. -/
def Instr.row : Instr → OpcodeRow
  | .nop => ⟨"NOP", 0xFFFFFFFF, 0x00000000⟩
  | .wmul _ _ _ => ⟨"WMUL", 0xFF000FFF, 0x10000000⟩
  | .wsqr _ _ => ⟨"WSQR", 0xFF00FFFF, 0x11000000⟩
  | .wdmul _ _ _ => ⟨"WDMUL", 0xFF000FFF, 0x12000000⟩
  | .wmac _ _ _ _ => ⟨"WMAC", 0xFF0000FF, 0x13000000⟩
  | .wmsb _ _ => ⟨"WMSB", 0xFF00FFFF, 0x14000000⟩
  | .wdiv _ _ _ => ⟨"WDIV", 0xFF000FFF, 0x15000000⟩
  | .wmod _ _ _ => ⟨"WMOD", 0xFF000FFF, 0x16000000⟩
  | .norm _ => ⟨"NORM", 0xFF0FFFFF, 0x20000000⟩
  | .acmp _ _ => ⟨"ACMP", 0xFFF00FFF, 0x21000000⟩
  | .cmp _ _ => ⟨"CMP", 0xFFF00FFF, 0x22000000⟩
  | .rsh _ _ _ => ⟨"RSH", 0xFF000000, 0x23000000⟩
  | .lsh _ _ _ => ⟨"LSH", 0xFF000000, 0x24000000⟩
  | .aadd _ _ _ => ⟨"AADD", 0xFF000FFF, 0x30000000⟩
  | .asub _ _ _ => ⟨"ASUB", 0xFF000FFF, 0x31000000⟩
  | .add _ _ _ => ⟨"ADD", 0xFF000FFF, 0x32000000⟩
  | .sub _ _ _ => ⟨"SUB", 0xFF000FFF, 0x33000000⟩
  | .mul _ _ _ => ⟨"MUL", 0xFF000FFF, 0x40000000⟩
  | .kmul _ _ _ => ⟨"KMUL", 0xFF000FFF, 0x41000000⟩
  | .sqr _ _ => ⟨"SQR", 0xFF00FFFF, 0x42000000⟩
  | .bred _ _ _ _ => ⟨"BRED", 0xFF0000FF, 0x50000000⟩
  | .mont _ => ⟨"MONT", 0xFF000000, 0x51000000⟩
  | .gdeg _ => ⟨"GDEG", 0xFFF0FFFF, 0x60000000⟩
  | .grsh _ _ _ => ⟨"GRSH", 0xFF000000, 0x61000000⟩
  | .glsh _ _ _ => ⟨"GLSH", 0xFF000000, 0x62000000⟩
  | .gadd _ _ _ => ⟨"GADD", 0xFF000FFF, 0x63000000⟩
  | .gred _ _ _ => ⟨"GRED", 0xFF00F0FF, 0x64000000⟩
  | .gmul _ _ _ _ => ⟨"GMUL", 0xFF0000FF, 0x65000000⟩
  | .gdiv _ => ⟨"GDIV", 0xFF000000, 0x66000000⟩
  | .gsqr _ => ⟨"GSQR", 0xFF000000, 0x67000000⟩

/-- The opcode map: every assigned opcode once, in the order of R105. -/
def opcodeRows : List OpcodeRow :=
  [Instr.row .nop, Instr.row (.wmul 0 0 0), Instr.row (.wsqr 0 0), Instr.row (.wdmul 0 0 0), Instr.row (.wmac 0 0 0 0)]
  ++ [Instr.row (.wmsb 0 0), Instr.row (.wdiv 0 0 0), Instr.row (.wmod 0 0 0), Instr.row (.norm 0), Instr.row (.acmp 0 0)]
  ++ [Instr.row (.cmp 0 0), Instr.row (.rsh 0 0 0), Instr.row (.lsh 0 0 0), Instr.row (.aadd 0 0 0), Instr.row (.asub 0 0 0)]
  ++ [Instr.row (.add 0 0 0), Instr.row (.sub 0 0 0), Instr.row (.mul 0 0 0), Instr.row (.kmul 0 0 0), Instr.row (.sqr 0 0)]
  ++ [Instr.row (.bred 0 0 0 0), Instr.row (.mont 0), Instr.row (.gdeg 0), Instr.row (.grsh 0 0 0), Instr.row (.glsh 0 0 0)]
  ++ [Instr.row (.gadd 0 0 0), Instr.row (.gred 0 0 0), Instr.row (.gmul 0 0 0 0), Instr.row (.gdiv 0), Instr.row (.gsqr 0)]

/-- The word is a command of the row. -/
def OpcodeRow.matchesWord (r : OpcodeRow) (c : Word) : Bool := c &&& r.mask == r.pattern

end Sys2Proof
end

