-- ==== Sys2Proof/Config.lean ====
section
/-! DEFINITION. The constants, the open parameters and the free values of the block
(00_scope.md R8-R12; 20_memory.md R83; 60_exceptions.md R316; 70_reset_and_hazards.md R357). -/

namespace Sys2Proof.Config

/-- R8: the word width `WB`. -/
def wordBits : Nat := 32

/-- R9: the number of operand slots `NSLOT`. -/
def slotCount : Nat := 16

/-- R9: the number of scalar word registers `NX`. -/
def scalarCount : Nat := 16

/-- R11: the Karatsuba base-case threshold `KTHRESH`, in words. -/
def karatsubaThreshold : Nat := 1

/-- R10: the default of the open parameter `CAP`. -/
def defaultCap : Nat := 128

/-- R10: the largest `CAP` the register map of R72 has room for. -/
def maxCap : Nat := 4096

/-- R70: the size of the register window in bytes. -/
def windowBytes : Nat := 2 ^ 20

/-- The four parameters the spec leaves `OPEN` (92_eei_decisions.md): fixed for one machine, free
between machines.  They stand in `State` as plain data, so that a statement about every state is
a statement about every value of them; no step changes them. -/
structure Params where
  /-- R10: words in each operand slot. -/
  cap : Nat
  /-- R12: bus address of the register window. -/
  base : Nat
  /-- R83: whether the host must fence its own accesses.  No rule of the block reads it. -/
  hostDeviceOrder : Bool
  /-- R316: the interrupt-controller input `IRQ` is wired to.  No rule of the block reads it. -/
  irqRoute : Nat
deriving DecidableEq, Repr

/-- R10: `1 <= CAP <= 4096`. -/
def Params.wf (p : Params) : Bool := decide (1 ≤ p.cap) && decide (p.cap ≤ maxCap)

/-- R12: `BASE` of the machine at reset, a free value (log 1). -/
opaque baseAtReset : Nat

/-- R83: `HOST_DEVICE_ORDER` of the machine at reset, a free value (log 1). -/
opaque hostDeviceOrderAtReset : Bool

/-- R316: `IRQ_ROUTE` of the machine at reset, a free value (log 1). -/
opaque irqRouteAtReset : Nat

/-- The parameters at reset: `CAP` at the default R10 gives, the other three free (log 1). -/
def Params.atReset : Params :=
  { cap := defaultCap, base := baseAtReset, hostDeviceOrder := hostDeviceOrderAtReset,
    irqRoute := irqRouteAtReset }

/-- R357: what the `n`-th read of an operand register or `RESULT` made while the block is busy
returns; a draw under no law (log 4). -/
opaque busyReadValue : Nat → Word

end Sys2Proof.Config
end

