-- ==== Sys2Proof/Machine/State.lean ====
section
/-! DEFINITION. The architectural state of the block as plain data, its inputs, the reasons a step can
stop, and the state right after reset (10_state.md; 60_exceptions.md R312; 70_reset_and_hazards.md R350). -/

namespace Sys2Proof.Machine

open Sys2Proof.Config

/-- R312: the codes of `STATUS.ERR`.  Codes 9 to 15 are never recorded, so they have no constructor. -/
inductive ErrorCode where
  | ok
  | illegal
  | unimpl
  | malformed
  | order
  | magnitude
  | modulus
  | zero
  | capacity
deriving DecidableEq, Repr

/-- R33-R36: one operand slot.  `sign` holds any of the four 2-bit codes and `len` any 16-bit number,
since the host may write them (R34, R35).  `dig` holds the `CAP` digit words, least significant
first; that it has exactly `CAP` of them is part of the invariant `State.Inv` (Safety.lean). -/
structure Slot where
  len : BitVec 16
  sign : BitVec 2
  dig : List Word
deriving DecidableEq, Repr

/-- The width of a host access (R71: only 32 bits is accepted). -/
inductive Width where
  | w8
  | w16
  | w32
  | w64
deriving DecidableEq, Repr

/-- R70: one host bus access, at a host byte address. -/
inductive Access where
  | read (addr : Nat) (width : Width)
  | write (addr : Nat) (width : Width) (v : Word)
deriving DecidableEq, Repr

/-- What happens next to the block: a host access arrives (R81), the sequencer gets its turn (R30,
R361), or the platform asserts the reset input (R350).  Every interleaving of host accesses with the
completion of a command is some list of these events (log 2). -/
inductive Event where
  | host (a : Access)
  | sequencer
  | powerOn
deriving DecidableEq, Repr

/-- The whole state. -/
structure State where
  /-- The open parameters (R10, R12, R83, R316); no step changes them. -/
  params : Params
  /-- R32: the scalar word registers `x[0..15]`. -/
  x : Vector Word 16
  /-- R33: the operand slots `s[0..15]`. -/
  slots : Vector Slot 16
  /-- R40: `CTRL.IE`. -/
  ie : Bool
  /-- R41: `STATUS.BUSY`. -/
  busy : Bool
  /-- R41: `STATUS.DONE`. -/
  done : Bool
  /-- R41: `STATUS.OVR`. -/
  ovr : Bool
  /-- R41, R312: `STATUS.ERR`. -/
  err : ErrorCode
  /-- R43: `LASTCMD`, the command in flight while `BUSY = 1` (R31, R47). -/
  lastCmd : Word
  /-- R44: `RESULT`. -/
  result : Word
  /-- The model's own: the bus read data of the most recent host read (R45 names bus read data as an
  output of the block; log 3). -/
  readData : Word
  /-- The model's own: how many unspecified values reads made while busy have drawn (R357; log 4). -/
  draws : Nat
  /-- The model's own: the events still to come, the next one first (R81; log 2). -/
  events : List Event
deriving DecidableEq, Repr

/-- Reasons the machine stops with a fault.  There are none: R310, "No command ends in any other way:
no command hangs, faults the host, or leaves the block busy for ever", and every error of R312 is a
completed command with a next state. -/
inductive Fault where
deriving DecidableEq, Repr

/-- Reasons a step has no meaning. -/
inductive Refusal where
  /-- Raised by `exec` for an instruction whose meaning is not written yet; no arm raises it.  Safe. -/
  | notModelled (mnemonic : String)
  /-- Raised by a host access that is not 32 bits wide (R71, R320): "the model has no meaning for the
  access (the host's step is refused, which errs toward unprovable)".  Safe. -/
  | accessWidth
  /-- Raised by a 32-bit host access at an offset that is not a multiple of 4 (R71, R320).  Safe. -/
  | accessMisaligned
  /-- Raised by a host access outside the register window: R70 gives the block no other address, and
  R80 leaves the rest of the host's address space to the platform.  Safe. -/
  | accessOutsideWindow
deriving DecidableEq, Repr

/-- The result of one step. -/
abbrev Result := Host.Outcome State Fault Refusal

/-- R49: the well-formed zero every slot resets to, with its `cap` digit words. -/
def Slot.zero (cap : Nat) : Slot := { len := 0, sign := 0, dig := List.replicate cap 0 }

/-- R49, R350: the state after reset of a machine with the given parameters. -/
def State.resetWith (p : Params) : State :=
  { params := p
    x := Vector.replicate 16 0
    slots := Vector.replicate 16 (Slot.zero p.cap)
    ie := false
    busy := false
    done := false
    ovr := false
    err := .ok
    lastCmd := 0
    result := 0
    readData := 0
    draws := 0
    events := [] }

/-- R49, R350: the machine right after reset. -/
def State.reset : State := State.resetWith Params.atReset

end Sys2Proof.Machine
end

