-- ==== Sys2Proof/Machine/Flags.lean ====
section
/-! DEFINITION. The flag-like outputs of the block: the bits of `STATUS` and `CTRL`, the `IRQ` level, the
error codes and the values of `RESULT` (10_state.md R39-R46; 60_exceptions.md R312, R316). -/

namespace Sys2Proof.Machine

/-- R312: the number recorded in `STATUS[7:4]`. -/
def ErrorCode.bits : ErrorCode → BitVec 4
  | .ok => 0
  | .illegal => 1
  | .unimpl => 2
  | .malformed => 3
  | .order => 4
  | .magnitude => 5
  | .modulus => 6
  | .zero => 7
  | .capacity => 8

/-- R41: `STATUS` as the host reads it; bit 3 and bits 31:8 read 0. -/
def State.statusWord (s : State) : Word :=
  (0 : BitVec 24) ++ s.err.bits ++ (0 : BitVec 1) ++ BitVec.ofBool s.ovr ++ BitVec.ofBool s.done
    ++ BitVec.ofBool s.busy

/-- R40: `CTRL` as the host reads it; `SRST` and the reserved bits read 0. -/
def State.ctrlWord (s : State) : Word := (0 : BitVec 31) ++ BitVec.ofBool s.ie

/-- R38: the constant of `ID`, ASCII "CHLB". -/
def idWord : Word := 0x43484C42

/-- R39: `CONFIG`, `CAP` in bits 31:16, `NSLOT` in 15:8, `WB` in 7:0. -/
def State.configWord (s : State) : Word :=
  BitVec.ofNat 16 s.params.cap ++ BitVec.ofNat 8 Config.slotCount ++ BitVec.ofNat 8 Config.wordBits

/-- R45, R316: the interrupt output, a level. -/
def State.irq (s : State) : Bool := s.ie && s.done

/-- R46: the source's comparison outcome. -/
inductive Order where
  | larger
  | equal
  | smaller
deriving DecidableEq, Repr

/-- R44: how a comparison outcome is encoded in `RESULT`. -/
def Order.enc : Order → Word
  | .larger => 0x00000001
  | .equal => 0x00000000
  | .smaller => 0xFFFFFFFF

/-- The order of two word lists of the same length, most significant word first (R162: "first difference
decides"). -/
def wordsOrder : List Word → List Word → Order
  | a :: as, b :: bs =>
    if b.toNat < a.toNat then .larger
    else if a.toNat < b.toNat then .smaller
    else wordsOrder as bs
  | _, _ => .equal

/-- R162: the order of two slots' magnitudes: the word counts first, then the words from the most
significant one down. -/
def Slot.magOrder (p q : Slot) : Order :=
  if q.len.toNat < p.len.toNat then .larger
  else if p.len.toNat < q.len.toNat then .smaller
  else wordsOrder (p.dig.take p.len.toNat).reverse (q.dig.take q.len.toNat).reverse

/-- R163: POSITIVE > ZERO > NEGATIVE. -/
def signRank (sign : BitVec 2) : Nat :=
  if sign = 1 then 2 else if sign = 2 then 0 else 1

/-- R163: the order of two slots' signed values. -/
def Slot.signedOrder (p q : Slot) : Order :=
  if signRank q.sign < signRank p.sign then .larger
  else if signRank p.sign < signRank q.sign then .smaller
  else if p.sign = 1 then p.magOrder q
  else if p.sign = 2 then q.magOrder p
  else .equal

end Sys2Proof.Machine
end

