-- ==== Sys2Proof/Machine/Operands.lean ====
section
/-! DEFINITION. How operands are read and results are laid out: the value of a slot, its well-formedness,
the words of a natural, and the polynomial notation (00_scope.md R13-R18). -/

namespace Sys2Proof.Machine

/-! ### Naturals and their words (R14) -/

/-- R14: the natural a list of words stands for, least significant word first. -/
def natOfWords : List Word → Nat
  | [] => 0
  | w :: ws => w.toNat + 2 ^ 32 * natOfWords ws

/-- R14: `word(v, 0), word(v, 1), ..., word(v, n-1)`. -/
def wordsOfNat : Nat → Nat → List Word
  | 0, _ => []
  | n + 1, v => BitVec.ofNat 32 v :: wordsOfNat n (v / 2 ^ 32)

/-- R14: `word(v, i) = floor(v / 2^(32*i)) mod 2^32`. -/
def wordOf (v i : Nat) : Nat := v / 2 ^ (32 * i) % 2 ^ 32

/-- R14: the least `k` with `v < 2^(32*k)`. -/
def nwords (v : Nat) : Nat := if v = 0 then 0 else v.log2 / 32 + 1

/-! ### Slots (R14, R15, R17) -/

/-- R14: the code `ZERO`. -/
def signZero : BitVec 2 := 0
/-- R34: the code `POS`. -/
def signPos : BitVec 2 := 1
/-- R34: the code `NEG`. -/
def signNeg : BitVec 2 := 2
/-- R34: the invalid code. -/
def signInvalid : BitVec 2 := 3

/-- R36: the digit word `dig[i]`. -/
def Slot.digit (sl : Slot) (i : Nat) : Word := sl.dig.getD i 0

/-- R14: `mag(j)`. -/
def Slot.mag (sl : Slot) : Nat := natOfWords (sl.dig.take sl.len.toNat)

/-- R14: `sval(j)`. -/
def Slot.sval (sl : Slot) : Int :=
  if sl.sign = signPos then (sl.mag : Int)
  else if sl.sign = signNeg then -(sl.mag : Int)
  else 0

/-- R17: "`s[j].len > 0` implies `s[j].dig[s[j].len - 1] != 0`". -/
def Slot.topNonzero (sl : Slot) : Bool := sl.len == 0 || sl.digit (sl.len.toNat - 1) != 0

/-- R17: `WF`, an integer operand. -/
def Slot.wf (cap : Nat) (sl : Slot) : Bool :=
  decide (sl.len.toNat ≤ cap) && sl.sign != signInvalid
    && ((sl.len == 0) == (sl.sign == signZero)) && sl.topNonzero

/-- R17: `WFG`, a polynomial operand; the sign is not read. -/
def Slot.wfg (cap : Nat) (sl : Slot) : Bool :=
  decide (sl.len.toNat ≤ cap) && sl.topNonzero

/-- R15: the sign a command writes with the integer `v`. -/
def signOfInt (v : Int) : BitVec 2 :=
  if v = 0 then signZero else if 0 < v then signPos else signNeg

/-- R15: the contents `WriteInt` gives a slot of `cap` words. -/
def intSlot (cap : Nat) (v : Int) : Slot :=
  { len := BitVec.ofNat 16 (nwords v.natAbs)
    sign := signOfInt v
    dig := wordsOfNat cap v.natAbs }

/-- R15: the contents `WritePoly` gives a slot of `cap` words. -/
def polySlot (cap p : Nat) : Slot := intSlot cap (p : Int)

/-- R161: the loop of NORM, "while n > 0 and dig[n-1] = 0: n <- n - 1". -/
def stripZeros (sl : Slot) : Nat → Nat
  | 0 => 0
  | n + 1 => if sl.digit n = 0 then stripZeros sl n else n + 1

/-- R161: the contents NORM gives a slot of `cap` words. -/
def Slot.normalised (cap : Nat) (sl : Slot) : Slot :=
  let n := stripZeros sl sl.len.toNat
  { len := BitVec.ofNat 16 n
    sign := if n = 0 then signZero else if sl.sign = signZero then signPos else sl.sign
    dig := sl.dig.take n ++ List.replicate (cap - n) 0 }

/-! ### Polynomials over GF(2) (R18) -/

/-- R18: `deg(p)`; "degree of the zero element is defined as 0". -/
def deg (p : Nat) : Nat := p.log2

/-- R18: the exclusive or over the lowest `k` bits `i` of `a` that are set of `b << i`. -/
def clmulBits : Nat → Nat → Nat → Nat
  | 0, _, _ => 0
  | k + 1, a, b => clmulBits k a b ^^^ (if a.testBit k then b <<< k else 0)

/-- R18: the carry-less product. -/
def clmul (a b : Nat) : Nat := clmulBits (a.log2 + 1) a b

/-- R274: the reduction loop "while r != 0 and deg(r) >= deg(m)", at most `fuel` times. -/
def reduceLoop (m : Nat) : Nat → Nat → Nat
  | 0, r => r
  | fuel + 1, r =>
    if r ≠ 0 ∧ deg m ≤ deg r then reduceLoop m fuel (r ^^^ (m <<< (deg r - deg m))) else r

/-- R18, R274: the remainder `pmod(a, m)`.  For `deg(m) >= 1` each step of the loop lowers the degree or
makes the remainder zero, so `deg(a) + 1` steps are enough. -/
def pmod (a m : Nat) : Nat := reduceLoop m (deg a + 1) a

/-- R275: the loop over the bits of `A`, least significant first; `t` is the "running shifted copy of
`B`" and `acc` the accumulator. -/
def gmulLoop (m : Nat) : Nat → Nat → Nat → Nat → Nat
  | 0, _, _, acc => acc
  | bits + 1, a, t, acc =>
    gmulLoop m bits (a / 2) (pmod (t <<< 1) m) (if a % 2 = 1 then acc ^^^ t else acc)

end Sys2Proof.Machine
end

