-- ==== Sys2Proof/Machine/Ops.lean ====
section
/-! DEFINITION. The named operations on the state: registers and slots, completion with or without an
error (60_exceptions.md R310-R317), acceptance and dropping of host writes (10_state.md R42,
70_reset_and_hazards.md R356), reset (R350, R351) and the checks commands share. -/

namespace Sys2Proof.Machine

/-! ### Registers and slots -/

/-- R14: `x[k]`. -/
def State.reg (s : State) (k : Idx) : Word := s.x[k]

/-- R14: `s[j]`. -/
def State.slot (s : State) (j : Idx) : Slot := s.slots[j]

/-- R14: `x[k] <- v`. -/
def State.setReg (s : State) (k : Idx) (v : Word) : State := { s with x := s.x.set k v }

/-- R14: slot `j` receives the contents `sl`. -/
def State.setSlot (s : State) (j : Idx) (sl : Slot) : State := { s with slots := s.slots.set j sl }

/-- R44: `RESULT <- v`. -/
def State.setResult (s : State) (v : Word) : State := { s with result := v }

/-- R15: `WriteInt(j, v)`. -/
def State.writeInt (s : State) (j : Idx) (v : Int) : State := s.setSlot j (intSlot s.params.cap v)

/-- R15: `WritePoly(j, p)`. -/
def State.writePoly (s : State) (j : Idx) (p : Nat) : State := s.setSlot j (polySlot s.params.cap p)

/-- R103: the low word of `p` to `x[d]`, the next to `x[(d+1) mod 16]`. -/
def State.writePair (s : State) (d : Idx) (p : Nat) : State :=
  (s.setReg d (BitVec.ofNat 32 p)).setReg (d + 1) (BitVec.ofNat 32 (p / 2 ^ 32))

/-- R103, R132: three words of `t`, least significant first, to `x[d]`, `x[(d+1) mod 16]`,
`x[(d+2) mod 16]`. -/
def State.writeTriple (s : State) (d : Idx) (t : Nat) : State :=
  (s.writePair d t).setReg (d + 2) (BitVec.ofNat 32 (t / 2 ^ 64))

/-! ### Completion (R310, R311, R317) -/

/-- R311, R317: what completion does to `STATUS`: the code is recorded, `BUSY` falls, `DONE` rises.
`OVR`, `CTRL` and `LASTCMD` are not changed. -/
def State.complete (s : State) (c : ErrorCode) : State :=
  { s with err := c, busy := false, done := true }

/-- R16, R315, R317: `raise Error(code)`, the one way a command takes an error: nothing but `STATUS`
is written, and there is no control transfer and nothing to return from (R318). -/
def raise (c : ErrorCode) (s : State) : Result := .next (s.complete c)

/-- R311: the command's writes have been made (they are in `s`); it completes without error. -/
def succeed (s : State) : Result := .next (s.complete .ok)

/-- R313, R314: the last check of a command that stores an integer: CAPACITY when the value needs more
than `CAP` words (`nwords(v) > CAP`, that is `v >= 2^(32*CAP)`), else the value is written and the
command completes. -/
def storeInt (d : Idx) (v : Int) (s : State) : Result :=
  if s.params.cap < nwords v.natAbs then raise .capacity s else succeed (s.writeInt d v)

/-- R272, R313: the same for a polynomial. -/
def storePoly (d : Idx) (p : Nat) (s : State) : Result :=
  if s.params.cap < nwords p then raise .capacity s else succeed (s.writePoly d p)

/-! ### Operand checks (R17, R314) -/

/-- R17: `WF(j)`. -/
def State.wf (s : State) (j : Idx) : Bool := (s.slot j).wf s.params.cap

/-- R17: `WFG(j)`. -/
def State.wfg (s : State) (j : Idx) : Bool := (s.slot j).wfg s.params.cap

/-- R164, R165: "if v = 0 then WriteInt(D, 0) else if s[A].sign = NEG then WriteInt(D, -v) else
WriteInt(D, v)". -/
def withSignOf (sl : Slot) (v : Nat) : Int :=
  if v = 0 then 0 else if sl.sign = signNeg then -(v : Int) else (v : Int)

/-! ### Command issue (R42, R356) -/

/-- R42: an accepted `CMD` write. -/
def State.accept (s : State) (v : Word) : State :=
  { s with lastCmd := v, done := false, err := .ok, busy := true }

/-- R356: a host write that is dropped because the block is busy. -/
def State.overrun (s : State) : State := { s with ovr := true }

/-! ### Reset (R350, R351) -/

/-- R350, R351: every piece of the block's state takes its reset value (R49).  The parameters are those
of the machine; the model's own fields (read data, draws, events to come) belong to the host's side
and stay (log 3, log 4). -/
def State.applyReset (s : State) : State :=
  { State.resetWith s.params with readData := s.readData, draws := s.draws, events := s.events }

end Sys2Proof.Machine
end

