-- ==== Sys2Proof/Machine/Bus.lean ====
section
/-! DEFINITION. The register window: the map of offsets to registers, host reads and host writes
(20_memory.md R70-R80; 10_state.md R38-R44; 70_reset_and_hazards.md R351, R355-R357). -/

namespace Sys2Proof.Machine

open Sys2Proof.Config

/-- The registers of the window (R72). -/
inductive Reg where
  | id
  | config
  | ctrl
  | status
  | cmd
  | lastCmd
  | result
  | x (k : Idx)
  | len (j : Idx)
  | sign (j : Idx)
  | dig (j : Idx) (i : Nat)
  | reserved
deriving DecidableEq, Repr

/-- R72: the register at an offset that is a multiple of 4, for a block of `cap`-word slots. -/
def regAt (cap off : Nat) : Reg :=
  if off = 0x00000 then .id
  else if off = 0x00004 then .config
  else if off = 0x00008 then .ctrl
  else if off = 0x0000C then .status
  else if off = 0x00010 then .cmd
  else if off = 0x00014 then .lastCmd
  else if off = 0x00018 then .result
  else if 0x00100 ≤ off ∧ off < 0x00140 then .x (Fin.ofNat 16 ((off - 0x00100) / 4))
  else if 0x00200 ≤ off ∧ off < 0x00280 then
    if (off - 0x00200) % 8 = 0 then .len (Fin.ofNat 16 ((off - 0x00200) / 8))
    else .sign (Fin.ofNat 16 ((off - 0x00200) / 8))
  else if 0x01000 ≤ off ∧ off < 0x01000 + 64 * cap then
    .dig (Fin.ofNat 16 ((off - 0x01000) / 4 / cap)) ((off - 0x01000) / 4 % cap)
  else .reserved

/-- R72: where each register stands; `reserved` names no one offset. -/
def Reg.offset (cap : Nat) : Reg → Option Nat
  | .id => some 0x00000
  | .config => some 0x00004
  | .ctrl => some 0x00008
  | .status => some 0x0000C
  | .cmd => some 0x00010
  | .lastCmd => some 0x00014
  | .result => some 0x00018
  | .x k => some (0x00100 + 4 * k.val)
  | .len j => some (0x00200 + 8 * j.val)
  | .sign j => some (0x00204 + 8 * j.val)
  | .dig j i => some (0x01000 + 4 * cap * j.val + 4 * i)
  | .reserved => none

/-- R356: the operand registers, which a host write cannot change while the block is busy. -/
def Reg.isOperand : Reg → Bool
  | .x _ | .len _ | .sign _ | .dig _ _ => true
  | .id | .config | .ctrl | .status | .cmd | .lastCmd | .result | .reserved => false

/-- R357: the registers whose value a read made while busy does not return. -/
def Reg.hiddenWhileBusy (r : Reg) : Bool := r.isOperand || r == .result

/-- The value a register holds, as a 32-bit bus word (R73-R76; 10_state.md R38-R44). -/
def State.regValue (s : State) : Reg → Word
  | .id => idWord
  | .config => s.configWord
  | .ctrl => s.ctrlWord
  | .status => s.statusWord
  | .cmd => 0
  | .lastCmd => s.lastCmd
  | .result => s.result
  | .x k => s.reg k
  | .len j => (s.slot j).len.setWidth 32
  | .sign j => (s.slot j).sign.setWidth 32
  | .dig j i => (s.slot j).digit i
  | .reserved => 0

/-- R77: byte lane `n` of a bus word carries bits `8n+7 : 8n`. -/
def lane (w : Word) (n : Nat) : Byte := w.extractLsb' (8 * n) 8

/-- One byte of the window as the state holds it (R77), apart from any access. -/
def State.windowByte (s : State) (off : Nat) : Byte :=
  lane (s.regValue (regAt s.params.cap (off - off % 4))) (off % 4)

/-! ### Host reads (R76, R79, R357) -/

/-- A read: no side effect on the block; the value is unspecified for the operand registers and
`RESULT` while the block is busy. -/
def hostRead (r : Reg) (s : State) : State :=
  if s.busy && r.hiddenWhileBusy then
    { s with readData := busyReadValue s.draws, draws := s.draws + 1 }
  else { s with readData := s.regValue r }

/-! ### Host writes (R73-R76, R79, R356) -/

/-- R73: `LEN[j]` stores `v[15:0]`. -/
def State.setLen (s : State) (j : Idx) (v : Word) : State :=
  s.setSlot j { s.slot j with len := v.extractLsb' 0 16 }

/-- R73: `SIGN[j]` stores `v[1:0]`. -/
def State.setSign (s : State) (j : Idx) (v : Word) : State :=
  s.setSlot j { s.slot j with sign := v.extractLsb' 0 2 }

/-- R74: `DIG[j][i]` stores `v`. -/
def State.setDigit (s : State) (j : Idx) (i : Nat) (v : Word) : State :=
  s.setSlot j { s.slot j with dig := (s.slot j).dig.set i v }

/-- R40, R351: a `CTRL` write. -/
def State.writeCtrl (s : State) (v : Word) : State :=
  if v.getLsbD 1 then s.applyReset else { s with ie := v.getLsbD 0 }

/-- R41: a `STATUS` write; `DONE` and `OVR` are write-1-to-clear. -/
def State.writeStatus (s : State) (v : Word) : State :=
  { s with done := s.done && !v.getLsbD 1, ovr := s.ovr && !v.getLsbD 2 }

/-- R42: a `CMD` write. -/
def State.writeCmd (s : State) (v : Word) : State :=
  if s.busy then s.overrun else s.accept v

/-- R356: a write to an operand register is dropped while the block is busy. -/
def State.writeOperand (s stored : State) : State :=
  if s.busy then s.overrun else stored

/-- A write of a register. -/
def hostWrite (r : Reg) (v : Word) (s : State) : State :=
  match r with
  | .id | .config | .lastCmd | .result | .reserved => s
  | .ctrl => s.writeCtrl v
  | .status => s.writeStatus v
  | .cmd => s.writeCmd v
  | .x k => s.writeOperand (s.setReg k v)
  | .len j => s.writeOperand (s.setLen j v)
  | .sign j => s.writeOperand (s.setSign j v)
  | .dig j i => s.writeOperand (s.setDigit j i v)

/-! ### Accesses (R70, R71, R320) -/

/-- The host address of an access. -/
def Access.addr : Access → Nat
  | .read a _ => a
  | .write a _ _ => a

/-- The width of an access. -/
def Access.width : Access → Width
  | .read _ w => w
  | .write _ w _ => w

/-- R70: the offset of a host address in the window, if it is there. -/
def State.offsetOf (s : State) (addr : Nat) : Option Nat :=
  if s.params.base ≤ addr ∧ addr < s.params.base + windowBytes then some (addr - s.params.base) else none

/-- What an accepted access does to the register `r`. -/
def Access.perform (a : Access) (r : Reg) (s : State) : State :=
  match a with
  | .read _ _ => hostRead r s
  | .write _ _ v => hostWrite r v s

/-- R71: a host access is accepted when it is 32 bits wide and its offset is a multiple of 4, and refused
otherwise. -/
def hostAccess (a : Access) (s : State) : Result :=
  match s.offsetOf a.addr with
  | none => .refused .accessOutsideWindow
  | some off =>
    if a.width ≠ .w32 then .refused .accessWidth
    else if off % 4 ≠ 0 then .refused .accessMisaligned
    else .next (a.perform (regAt s.params.cap off) s)

end Sys2Proof.Machine
end

