-- ==== Sys2Proof/Machine/Adder.lean ====
section
/-! DEFINITION. The multi-word adder and subtractor (42_adder.md R190-R193).  The carry and borrow chains
that compute the sums (R194, R195) are in Algorithms.lean. -/

namespace Sys2Proof.Machine

/-- R190: AADD; ORDER when the first operand is the shorter one. -/
def execAadd (d a b : Idx) (s : State) : Result :=
  if !s.wf a then raise .malformed s
  else if !s.wf b then raise .malformed s
  else if (s.slot a).len.toNat < (s.slot b).len.toNat then raise .order s
  else storeInt d (((s.slot a).mag + (s.slot b).mag : Nat) : Int) s

/-- R191: ASUB; MAGNITUDE when the first magnitude is the smaller one.  The result is at most the first
magnitude, so there is no capacity check (R313). -/
def execAsub (d a b : Idx) (s : State) : Result :=
  if !s.wf a then raise .malformed s
  else if !s.wf b then raise .malformed s
  else if (s.slot a).mag < (s.slot b).mag then raise .magnitude s
  else succeed (s.writeInt d (((s.slot a).mag - (s.slot b).mag : Nat) : Int))

/-- R192: ADD. -/
def execAdd (d a b : Idx) (s : State) : Result :=
  if !s.wf a then raise .malformed s
  else if !s.wf b then raise .malformed s
  else storeInt d ((s.slot a).sval + (s.slot b).sval) s

/-- R193: SUB. -/
def execSub (d a b : Idx) (s : State) : Result :=
  if !s.wf a then raise .malformed s
  else if !s.wf b then raise .malformed s
  else storeInt d ((s.slot a).sval - (s.slot b).sval) s

end Sys2Proof.Machine
end

