-- ==== Sys2Proof/Machine/Barrett.lean ====
section
/-! DEFINITION. The Barrett reducer and the rejected Montgomery command (44_barrett.md R250-R253). -/

namespace Sys2Proof.Machine

/-- R250: the value of BRED before its corrective loop, for a modulus of `n` words:
`r1 - r2`, with `W^(n+1)` added when it is negative. -/
def barrettEstimate (n z m t : Nat) : Nat :=
  let wide := 2 ^ (32 * (n + 1))
  let q1 := z / 2 ^ (32 * (n - 1))
  let qh := q1 * t / wide
  let r1 := z % wide
  let r2 := qh * m % wide
  if r1 < r2 then r1 + wide - r2 else r1 - r2

/-- R250, R251: the value BRED writes.  The loop "while r >= N: r <- r - N" leaves the remainder by `N`
(it is written out as `subtractLoop` in Algorithms.lean). -/
def barrettValue (n z m t : Nat) : Nat := barrettEstimate n z m t % m

/-- R250: BRED, `sA = Z`, `sB = N`, `sC = T`. -/
def execBred (d a b c : Idx) (s : State) : Result :=
  if !s.wf a then raise .malformed s
  else if !s.wf b then raise .malformed s
  else if !s.wf c then raise .malformed s
  else if (s.slot a).sign = signNeg ∨ (s.slot b).sign ≠ signPos ∨ (s.slot c).sign = signNeg then
    raise .modulus s
  else if 2 * (s.slot b).len.toNat < (s.slot a).len.toNat then raise .modulus s
  else succeed (s.writeInt d
    (barrettValue (s.slot b).len.toNat (s.slot a).mag (s.slot b).mag (s.slot c).mag : Int))

/-- R253: MONT is rejected. -/
def execMont (_ignored : BitVec 24) (s : State) : Result := raise .unimpl s

end Sys2Proof.Machine
end

