-- ==== Sys2Proof/Machine/Gf2n.lean ====
section
/-! DEFINITION. The GF(2^n) polynomial unit (45_gf2n.md R270-R275, R283-R285). -/

namespace Sys2Proof.Machine

/-- R270: the degree of a well-formed polynomial slot, from its top word. -/
def Slot.degree (sl : Slot) : Nat :=
  if sl.len.toNat = 0 then 0
  else (sl.len.toNat - 1) * 32 + (sl.digit (sl.len.toNat - 1)).toNat.log2

/-- R270: GDEG, the degree to `RESULT`. -/
def execGdeg (a : Idx) (s : State) : Result :=
  if !s.wfg a then raise .malformed s
  else succeed (s.setResult (BitVec.ofNat 32 (s.slot a).degree))

/-- R271: GRSH. -/
def execGrsh (d a : Idx) (shamt : BitVec 16) (s : State) : Result :=
  if !s.wfg a then raise .malformed s
  else succeed (s.writePoly d ((s.slot a).mag / 2 ^ shamt.toNat))

/-- R272: GLSH, exact or CAPACITY. -/
def execGlsh (d a : Idx) (shamt : BitVec 16) (s : State) : Result :=
  if !s.wfg a then raise .malformed s
  else storePoly d ((s.slot a).mag * 2 ^ shamt.toNat) s

/-- R273: GADD, the exclusive or. -/
def execGadd (d a b : Idx) (s : State) : Result :=
  if !s.wfg a then raise .malformed s
  else if !s.wfg b then raise .malformed s
  else succeed (s.writePoly d ((s.slot a).mag ^^^ (s.slot b).mag))

/-- R274: GRED, the remainder by `Irr = sC`; MODULUS for an `Irr` of degree 0. -/
def execGred (d a c : Idx) (s : State) : Result :=
  if !s.wfg a then raise .malformed s
  else if !s.wfg c then raise .malformed s
  else if (s.slot c).mag < 2 then raise .modulus s
  else succeed (s.writePoly d (pmod (s.slot a).mag (s.slot c).mag))

/-- R275: the value GMUL writes for operands `a` (of `bits` bits) and `b` and the modulus `m`. -/
def gmulValue (bits a b m : Nat) : Nat := pmod (gmulLoop m bits a (pmod b m) 0) m

/-- R275: GMUL, shift-and-add multiplication with inline reduction by `Irr = sC`. -/
def execGmul (d a b c : Idx) (s : State) : Result :=
  if !s.wfg a then raise .malformed s
  else if !s.wfg b then raise .malformed s
  else if !s.wfg c then raise .malformed s
  else if (s.slot c).mag < 2 then raise .modulus s
  else succeed (s.writePoly d
    (gmulValue (32 * (s.slot a).len.toNat) (s.slot a).mag (s.slot b).mag (s.slot c).mag))

/-- R283: GDIV is rejected. -/
def execGdiv (_ignored : BitVec 24) (s : State) : Result := raise .unimpl s

/-- R284: GSQR is rejected. -/
def execGsqr (_ignored : BitVec 24) (s : State) : Result := raise .unimpl s

end Sys2Proof.Machine
end

