-- ==== Sys2Proof/Machine/Multiplier.lean ====
section
/-! DEFINITION. The multipliers and the squarer (43_multiplier.md R220-R222).  "Each command's architectural
result is the exact product"; the grid, the Karatsuba tree and the squarer that compute it
(R223-R225) are in Algorithms.lean. -/

namespace Sys2Proof.Machine

/-- What R220 and R221 share: the exact signed product, or CAPACITY. -/
def multiplySlots (d a b : Idx) (s : State) : Result :=
  if !s.wf a then raise .malformed s
  else if !s.wf b then raise .malformed s
  else storeInt d ((s.slot a).sval * (s.slot b).sval) s

/-- R220: MUL. -/
def execMul (d a b : Idx) (s : State) : Result := multiplySlots d a b s

/-- R221: KMUL "writes exactly what MUL writes for the same operands". -/
def execKmul (d a b : Idx) (s : State) : Result := multiplySlots d a b s

/-- R222: SQR. -/
def execSqr (d a : Idx) (s : State) : Result :=
  if !s.wf a then raise .malformed s
  else storeInt d (((s.slot a).mag * (s.slot a).mag : Nat) : Int) s

end Sys2Proof.Machine
end

