-- ==== Sys2Proof/Machine/NormCompareShift.lean ====
section
/-! DEFINITION. No-op, normalisation, comparison and shifts (41_normalize_compare_shift.md R160-R165). -/

namespace Sys2Proof.Machine

/-- R160: NOP completes and changes nothing else. -/
def execNop (s : State) : Result := succeed s

/-- R161: NORM, in place; MALFORMED when `len > CAP` or the sign code is 3. -/
def execNorm (d : Idx) (s : State) : Result :=
  if s.params.cap < (s.slot d).len.toNat ∨ (s.slot d).sign = signInvalid then raise .malformed s
  else succeed (s.setSlot d ((s.slot d).normalised s.params.cap))

/-- R162: ACMP, the order of the magnitudes to `RESULT`. -/
def execAcmp (a b : Idx) (s : State) : Result :=
  if !s.wf a then raise .malformed s
  else if !s.wf b then raise .malformed s
  else succeed (s.setResult ((s.slot a).magOrder (s.slot b)).enc)

/-- R163: CMP, the order of the signed values to `RESULT`. -/
def execCmp (a b : Idx) (s : State) : Result :=
  if !s.wf a then raise .malformed s
  else if !s.wf b then raise .malformed s
  else succeed (s.setResult ((s.slot a).signedOrder (s.slot b)).enc)

/-- R164: RSH, the magnitude shifted right, with the source's sign unless the result is zero.  The
result is no longer than the operand, so there is no capacity check (R313). -/
def execRsh (d a : Idx) (shamt : BitVec 16) (s : State) : Result :=
  if !s.wf a then raise .malformed s
  else succeed (s.writeInt d (withSignOf (s.slot a) ((s.slot a).mag / 2 ^ shamt.toNat)))

/-- R165: LSH, the magnitude shifted left, exact or CAPACITY. -/
def execLsh (d a : Idx) (shamt : BitVec 16) (s : State) : Result :=
  if !s.wf a then raise .malformed s
  else storeInt d (withSignOf (s.slot a) ((s.slot a).mag * 2 ^ shamt.toNat)) s

end Sys2Proof.Machine
end

