-- ==== Sys2Proof/Machine/WordLayer.lean ====
section
/-! DEFINITION. The word-layer commands (40_word_layer.md R130-R136). -/

namespace Sys2Proof.Machine

/-- R130: WMUL, `x[D+1]:x[D] <- x[A] * x[B]`. -/
def execWmul (d a b : Idx) (s : State) : Result :=
  succeed (s.writePair d ((s.reg a).toNat * (s.reg b).toNat))

/-- R131: WSQR, `x[D+1]:x[D] <- x[A] * x[A]`. -/
def execWsqr (d a : Idx) (s : State) : Result :=
  succeed (s.writePair d ((s.reg a).toNat * (s.reg a).toNat))

/-- R132: WDMUL, `x[D+2]:x[D+1]:x[D] <- 2 * x[A] * x[B]`. -/
def execWdmul (d a b : Idx) (s : State) : Result :=
  succeed (s.writeTriple d (2 * (s.reg a).toNat * (s.reg b).toNat))

/-- R133: WMAC, `x[D+1]:x[D] <- x[A] * x[B] + x[D] + x[C]`. -/
def execWmac (d a b c : Idx) (s : State) : Result :=
  succeed (s.writePair d
    ((s.reg a).toNat * (s.reg b).toNat + (s.reg d).toNat + (s.reg c).toNat))

/-- R134: WMSB, the index of the highest set bit; ZERO for a zero word. -/
def execWmsb (d a : Idx) (s : State) : Result :=
  if s.reg a = 0 then raise .zero s
  else succeed (s.setReg d (BitVec.ofNat 32 (s.reg a).toNat.log2))

/-- R135: WDIV, the unsigned quotient; ZERO for a zero divisor. -/
def execWdiv (d a b : Idx) (s : State) : Result :=
  if s.reg b = 0 then raise .zero s
  else succeed (s.setReg d (BitVec.ofNat 32 ((s.reg a).toNat / (s.reg b).toNat)))

/-- R136: WMOD, the unsigned remainder; ZERO for a zero divisor. -/
def execWmod (d a b : Idx) (s : State) : Result :=
  if s.reg b = 0 then raise .zero s
  else succeed (s.setReg d (BitVec.ofNat 32 ((s.reg a).toNat % (s.reg b).toNat)))

end Sys2Proof.Machine
end

