-- ==== Sys2Proof/Machine/Dispatch.lean ====
section
/-! DEFINITION. Which meaning each command has: one arm per command, one direct call each. -/

namespace Sys2Proof.Machine

-- R311: the command's part of the sequencer's step, its completion included.
def exec (i : Instr) (s : State) : Host.Outcome State Fault Refusal :=
  match i with
  | .nop => Sys2Proof.Machine.execNop s
  | .wmul d a b => Sys2Proof.Machine.execWmul d a b s
  | .wsqr d a => Sys2Proof.Machine.execWsqr d a s
  | .wdmul d a b => Sys2Proof.Machine.execWdmul d a b s
  | .wmac d a b c => Sys2Proof.Machine.execWmac d a b c s
  | .wmsb d a => Sys2Proof.Machine.execWmsb d a s
  | .wdiv d a b => Sys2Proof.Machine.execWdiv d a b s
  | .wmod d a b => Sys2Proof.Machine.execWmod d a b s
  | .norm d => Sys2Proof.Machine.execNorm d s
  | .acmp a b => Sys2Proof.Machine.execAcmp a b s
  | .cmp a b => Sys2Proof.Machine.execCmp a b s
  | .rsh d a shamt => Sys2Proof.Machine.execRsh d a shamt s
  | .lsh d a shamt => Sys2Proof.Machine.execLsh d a shamt s
  | .aadd d a b => Sys2Proof.Machine.execAadd d a b s
  | .asub d a b => Sys2Proof.Machine.execAsub d a b s
  | .add d a b => Sys2Proof.Machine.execAdd d a b s
  | .sub d a b => Sys2Proof.Machine.execSub d a b s
  | .mul d a b => Sys2Proof.Machine.execMul d a b s
  | .kmul d a b => Sys2Proof.Machine.execKmul d a b s
  | .sqr d a => Sys2Proof.Machine.execSqr d a s
  | .bred d a b c => Sys2Proof.Machine.execBred d a b c s
  | .mont ignored => Sys2Proof.Machine.execMont ignored s
  | .gdeg a => Sys2Proof.Machine.execGdeg a s
  | .grsh d a shamt => Sys2Proof.Machine.execGrsh d a shamt s
  | .glsh d a shamt => Sys2Proof.Machine.execGlsh d a shamt s
  | .gadd d a b => Sys2Proof.Machine.execGadd d a b s
  | .gred d a c => Sys2Proof.Machine.execGred d a c s
  | .gmul d a b c => Sys2Proof.Machine.execGmul d a b c s
  | .gdiv ignored => Sys2Proof.Machine.execGdiv ignored s
  | .gsqr ignored => Sys2Proof.Machine.execGsqr ignored s

end Sys2Proof.Machine
end

