-- ==== Sys2Proof/Machine/Sequencer.lean ====
section
/-! DEFINITION. The agents' steps: the sequencer's (60_exceptions.md R311), the host's and the platform's. -/

namespace Sys2Proof.Machine

/-- R311: the sequencer executes the word in `LASTCMD`; an illegal word completes with ILLEGAL (R106). -/
def runCommand (s : State) : Result :=
  match decode s.lastCmd with
  | .ok i => exec i s
  | .error _ => raise .illegal s

/-- R30, R327: the sequencer's turn; it has a step only while `BUSY = 1`. -/
def sequencerTurn (s : State) : Result :=
  if s.busy then runCommand s else .next s

/-- One event. -/
def handleEvent (e : Event) (s : State) : Result :=
  match e with
  | .host a => hostAccess a s
  | .sequencer => sequencerTurn s
  | .powerOn => .next s.applyReset

/-- One step: the next event, or, when no event is left, the sequencer's turn (R361: a command in flight
is executed at last; R355: an idle block stays idle). -/
def nextStep (s : State) : Result :=
  match s.events with
  | [] => sequencerTurn s
  | e :: rest => handleEvent e { s with events := rest }

end Sys2Proof.Machine
end

