-- ==== Sys2Proof/Machine/Step.lean ====
section
/-! DEFINITION. The step of the machine, and how a command word is put where the next step runs it. -/

namespace Sys2Proof.Machine

/-- One step of the block and its surroundings (10_state.md R30; log 2). -/
def step (s : State) : Host.Outcome State Fault Refusal := nextStep s

/-- The state in which the very next step executes the command word `w` (log 8): the word is accepted as
by a `CMD` write (R42) and the next event is the sequencer's turn. -/
def State.withFetchWord (s : State) (nbits w : Nat) : State :=
  { s.accept (BitVec.ofNat 32 (w % 2 ^ nbits)) with events := .sequencer :: s.events }

end Sys2Proof.Machine
end

