-- ==== Sys2Proof/Machine/Assembler.lean ====
section
/-! DEFINITION. The assembler syntax and the pseudo-commands (30_encoding.md R108, R109), on one line of
text as a list of characters. -/

namespace Sys2Proof.Machine

/-- R108: an operand of a line. -/
inductive AsmOperand where
  | slot (j : Idx)
  | scalar (k : Idx)
  | number (n : Nat)
deriving DecidableEq, Repr

/-! ### Reading text -/

/-- The value of a digit in the given radix. -/
def digitValue (radix : Nat) (c : Char) : Option Nat :=
  let n := c.toNat
  let v :=
    if 48 ≤ n ∧ n ≤ 57 then n - 48
    else if 97 ≤ n ∧ n ≤ 102 then n - 87
    else if 65 ≤ n ∧ n ≤ 70 then n - 55
    else radix
  if v < radix then some v else none

/-- The number a run of digits stands for, after the digits whose value is `acc`. -/
def readDigits (radix : Nat) : List Char → Nat → Option Nat
  | [], acc => some acc
  | c :: cs, acc =>
    match digitValue radix c with
    | some v => readDigits radix cs (acc * radix + v)
    | none => none

/-- R108: a decimal or `0x` hexadecimal number. -/
def readNumber : List Char → Option Nat
  | [] => none
  | '0' :: 'x' :: [] => none
  | '0' :: 'x' :: cs => readDigits 16 cs 0
  | cs => readDigits 10 cs 0

/-- R108: the register numbers `0` to `15`. -/
def readIdx : List Char → Option Idx
  | [c] => (digitValue 10 c).map (Fin.ofNat 16)
  | ['1', c] =>
    match digitValue 10 c with
    | some v => if v < 6 then some (Fin.ofNat 16 (10 + v)) else none
    | none => none
  | _ => none

/-- R108: `s0`..`s15`, `x0`..`x15`, or a number. -/
def readOperand : List Char → Option AsmOperand
  | 's' :: cs => (readIdx cs).map .slot
  | 'x' :: cs => (readIdx cs).map .scalar
  | cs => (readNumber cs).map .number

/-- Blanks at both ends taken off. -/
def trimBlanks (cs : List Char) : List Char :=
  ((cs.dropWhile (· == ' ')).reverse.dropWhile (· == ' ')).reverse

/-- The pieces between commas; `piece` is the piece so far, last character first. -/
def splitCommas : List Char → List Char → List (List Char)
  | [], piece => [piece.reverse]
  | c :: cs, piece => if c = ',' then piece.reverse :: splitCommas cs [] else splitCommas cs (c :: piece)

/-- All operands, or nothing when one cannot be read. -/
def readOperands : List (List Char) → Option (List AsmOperand)
  | [] => some []
  | p :: ps =>
    match readOperand (trimBlanks p), readOperands ps with
    | some o, some os => some (o :: os)
    | _, _ => none

/-- The operands after the mnemonic. -/
def operandsOf (cs : List Char) : Option (List AsmOperand) :=
  if trimBlanks cs = [] then some [] else readOperands (splitCommas cs [])

/-! ### Operand forms (R105's operand column) -/

/-- No operands. -/
def takesNone {α : Type} (r : α) : List AsmOperand → Option α
  | [] => some r
  | _ => none

/-- One slot. -/
def takesS {α : Type} (f : Idx → α) : List AsmOperand → Option α
  | [.slot a] => some (f a)
  | _ => none

/-- Two slots. -/
def takesSS {α : Type} (f : Idx → Idx → α) : List AsmOperand → Option α
  | [.slot a, .slot b] => some (f a b)
  | _ => none

/-- Three slots. -/
def takesSSS {α : Type} (f : Idx → Idx → Idx → α) : List AsmOperand → Option α
  | [.slot a, .slot b, .slot c] => some (f a b c)
  | _ => none

/-- Four slots. -/
def takesSSSS {α : Type} (f : Idx → Idx → Idx → Idx → α) : List AsmOperand → Option α
  | [.slot a, .slot b, .slot c, .slot d] => some (f a b c d)
  | _ => none

/-- Two slots and a `shamt` in `0..65535`. -/
def takesSSN {α : Type} (f : Idx → Idx → BitVec 16 → α) : List AsmOperand → Option α
  | [.slot a, .slot b, .number n] => if n < 65536 then some (f a b (BitVec.ofNat 16 n)) else none
  | _ => none

/-- Two scalar registers. -/
def takesXX {α : Type} (f : Idx → Idx → α) : List AsmOperand → Option α
  | [.scalar a, .scalar b] => some (f a b)
  | _ => none

/-- Three scalar registers. -/
def takesXXX {α : Type} (f : Idx → Idx → Idx → α) : List AsmOperand → Option α
  | [.scalar a, .scalar b, .scalar c] => some (f a b c)
  | _ => none

/-- Four scalar registers. -/
def takesXXXX {α : Type} (f : Idx → Idx → Idx → Idx → α) : List AsmOperand → Option α
  | [.scalar a, .scalar b, .scalar c, .scalar d] => some (f a b c d)
  | _ => none

/-- R105, R108: the mnemonics and their operands. -/
def asmCommands : List (String × (List AsmOperand → Option Instr)) :=
  [("NOP", takesNone .nop), ("WMUL", takesXXX .wmul), ("WSQR", takesXX .wsqr),
   ("WDMUL", takesXXX .wdmul), ("WMAC", takesXXXX .wmac), ("WMSB", takesXX .wmsb),
   ("WDIV", takesXXX .wdiv), ("WMOD", takesXXX .wmod)]
  ++ [("NORM", takesS .norm), ("ACMP", takesSS .acmp), ("CMP", takesSS .cmp),
   ("RSH", takesSSN .rsh), ("LSH", takesSSN .lsh), ("AADD", takesSSS .aadd),
   ("ASUB", takesSSS .asub), ("ADD", takesSSS .add), ("SUB", takesSSS .sub)]
  ++ [("MUL", takesSSS .mul), ("KMUL", takesSSS .kmul), ("SQR", takesSS .sqr),
   ("BRED", takesSSSS .bred), ("MONT", takesNone (.mont 0))]
  ++ [("GDEG", takesS .gdeg), ("GRSH", takesSSN .grsh), ("GLSH", takesSSN .glsh),
   ("GADD", takesSSS .gadd), ("GRED", takesSSS .gred), ("GMUL", takesSSSS .gmul),
   ("GDIV", takesNone (.gdiv 0)), ("GSQR", takesNone (.gsqr 0))]

/-- R109: the pseudo-commands and their operands. -/
def asmPseudos : List (String × (List AsmOperand → Option Pseudo)) :=
  [("MOV", takesSS .mov), ("GMOV", takesSS .gmov), ("CLR", takesS .clr), ("NEG", takesSS .neg),
   ("GCLR", takesS .gclr)]

/-- The words of a mnemonic and its operands. -/
def assemble (mnemonic : String) (operands : List AsmOperand) : Option (List Word) :=
  if mnemonic = ".word" then
    match operands with
    | [.number n] => if n < 2 ^ 32 then some [BitVec.ofNat 32 n] else none
    | _ => none
  else
    match asmCommands.lookup mnemonic with
    | some f => (f operands).map fun i => [encode i]
    | none =>
      match asmPseudos.lookup mnemonic with
      | some f =>
        match f operands with
        | some p => if p.wf then some (p.expand.map encode) else none
        | none => none
      | none => none

/-- R108, R109: the command words of one line of assembler text, or nothing where it is no line of the
syntax. -/
def assembleLine (line : List Char) : Option (List Word) :=
  let cs := trimBlanks line
  match operandsOf (cs.dropWhile (· != ' ')) with
  | some operands => assemble (String.ofList (cs.takeWhile (· != ' '))) operands
  | none => none

end Sys2Proof.Machine
end

