-- ==== Sys2Proof/Machine/Algorithms.lean ====
section
/-! DEFINITION. The internal algorithms the spec transcribes from its source.  No rule of the machine reads
them (10_state.md R50: "This storage is not architectural"), and the commands' meanings write the exact
values; these definitions stand beside them so that "computes the same value" is a statement
(R130-R132, R164, R192-R195, R223-R225, R250). -/

namespace Sys2Proof.Machine

/-! ### Word layer -/

/-- R130: "four half-word partial products with explicit carry propagation". -/
def halfWordProduct (a b : Word) : Nat :=
  let aH := (a &&& highHalfMask).toNat / 2 ^ 16
  let aL := (a &&& lowHalfMask).toNat
  let bH := (b &&& highHalfMask).toNat / 2 ^ 16
  let bL := (b &&& lowHalfMask).toNat
  aH * bH * 2 ^ 32 + (aH * bL + aL * bH) * 2 ^ 16 + aL * bL

/-- R132: the double word `{hi, lo}` of the product shifted left by one, the bit shifted out of `hi`
captured as the third word; `(lo, mid, hi)`. -/
def doubledWords (a b : Word) : Word × Word × Word :=
  let lo := BitVec.ofNat 32 (a.toNat * b.toNat)
  let hi := BitVec.ofNat 32 (a.toNat * b.toNat / 2 ^ 32)
  (lo <<< 1, (hi <<< 1) ||| (lo >>> 31), hi >>> 31)

/-! ### Shifts -/

/-- R164: word `i` of a slot's magnitude shifted right by `shamt` bits, from the whole-word part
`floor(shamt/32)` and the intra-word part `shamt mod 32`, "with `dig[k] = 0` for `k >= len`". -/
def shiftedWord (sl : Slot) (shamt i : Nat) : Word :=
  let w := shamt / 32
  let b := shamt % 32
  let d := fun k => if k < sl.len.toNat then sl.digit k else 0
  if b = 0 then d (i + w) else (d (i + w) >>> b) ||| (d (i + w + 1) <<< (32 - b))

/-! ### Adder -/

/-- R194: the carry chain; the second operand reads as 0 beyond its words, and the last word is the
last carry. -/
def carryChain : List Word → List Word → Nat → List Word
  | [], _, c => [BitVec.ofNat 32 c]
  | a :: as, bs, c =>
    let t := a.toNat + (bs.headD 0).toNat + c
    BitVec.ofNat 32 t :: carryChain as bs.tail (t / 2 ^ 32)

/-- R195: the borrow chain. -/
def borrowChain : List Word → List Word → Nat → List Word
  | [], _, _ => []
  | a :: as, bs, w =>
    let t : Int := (a.toNat : Int) - (bs.headD 0).toNat - w
    BitVec.ofInt 32 t :: borrowChain as bs.tail (if t < 0 then 1 else 0)

/-- The integer of magnitude `m` with the sign code `sign`. -/
def signedBy (sign : BitVec 2) (m : Nat) : Int :=
  if sign = signNeg then -(m : Int) else (m : Int)

/-- R192: the source's signed addition, by cases on the signs. -/
def addBySigns (p q : Slot) : Int :=
  if p.sign = signZero then q.sval
  else if q.sign = signZero then p.sval
  else if p.sign = q.sign then signedBy p.sign (p.mag + q.mag)
  else if q.mag < p.mag then signedBy p.sign (p.mag - q.mag)
  else signedBy q.sign (q.mag - p.mag)

/-- R193: the source's signed subtraction, "via sign-flip-and-add logic"; the zero operands, which the
source does not list, as the spec derives them. -/
def subBySigns (p q : Slot) : Int :=
  if q.sign = signZero then p.sval
  else if p.sign = signZero then -q.sval
  else if p.sign ≠ q.sign then signedBy p.sign (p.mag + q.mag)
  else if q.mag ≤ p.mag then signedBy p.sign (p.mag - q.mag)
  else -signedBy q.sign (q.mag - p.mag)

/-! ### Multipliers -/

/-- R223: one cell of the grid, a WMAC step (R133): the result word and the carry. -/
def gridCell (a b r c : Word) : Word × Word :=
  let t := a.toNat * b.toNat + r.toNat + c.toNat
  (BitVec.ofNat 32 t, BitVec.ofNat 32 (t / 2 ^ 32))

/-- R223: one row of the grid over the words of `b`, with the result words `rs` already there; the last
word is the row's carry. -/
def gridRow (a : Word) : List Word → List Word → Word → List Word
  | [], _, c => [c]
  | b :: bs, rs, c =>
    (gridCell a b (rs.headD 0) c).1 :: gridRow a bs rs.tail (gridCell a b (rs.headD 0) c).2

/-- R223: the rows, each one word further up; `rs` are the result words from the row's position on. -/
def gridRows : List Word → List Word → List Word → List Word
  | [], _, rs => rs
  | a :: as, bs, rs =>
    (gridRow a bs rs 0).headD 0 :: gridRows as bs (gridRow a bs rs 0).tail

/-- R223: the schoolbook product of two magnitudes, `la + lb` words. -/
def schoolbook (as bs : List Word) : List Word := gridRows as bs (List.replicate bs.length 0)

/-- R223 on naturals: the schoolbook product of their words. -/
def schoolbookNat (u v : Nat) : Nat :=
  natOfWords (schoolbook (wordsOfNat (nwords u) u) (wordsOfNat (nwords v) v))

/-- R224: the Karatsuba tree, to a depth of at most `fuel`; at depth 0 it gives up and answers 0. -/
def karatsubaTree : Nat → Nat → Nat → Nat
  | 0, _, _ => 0
  | fuel + 1, u, v =>
    let d := max (nwords u) (nwords v)
    let q := (d + 1) / 2
    if q ≤ Config.karatsubaThreshold then schoolbookNat u v
    else
      let w := 2 ^ (32 * q)
      let z0 := karatsubaTree fuel (u % w) (v % w)
      let z2 := karatsubaTree fuel (u / w) (v / w)
      let z1 := karatsubaTree fuel (u % w + u / w) (v % w + v / w) - z2 - z0
      z2 * 2 ^ (32 * (2 * q)) + z1 * w + z0

/-- R224: `K(u, v)`.  Each level lowers the sum of the operands, so their sum bounds the depth. -/
def karatsuba (u v : Nat) : Nat := karatsubaTree (u + v + 1) u v

/-- R225: the cross terms of one word with the words above it,
`sum over j of doubleMultiply(a, b_j) * W^j`. -/
def crossTerms (a : Word) : List Word → Nat
  | [] => 0
  | b :: bs => 2 * a.toNat * b.toNat + 2 ^ 32 * crossTerms a bs

/-- R225: the squarer, each diagonal term once and each cross term once, doubled. -/
def squarer : List Word → Nat
  | [] => 0
  | a :: as => a.toNat * a.toNat + 2 ^ 32 * crossTerms a as + 2 ^ 64 * squarer as

/-! ### Barrett -/

/-- R250: the corrective loop, "while r >= N: r <- r - N", at most `fuel` times. -/
def subtractLoop (m : Nat) : Nat → Nat → Nat
  | 0, r => r
  | fuel + 1, r => if m ≤ r then subtractLoop m fuel (r - m) else r

end Sys2Proof.Machine
end

