-- ==== Sys2Proof/Safety.lean ====
section
/-! DEFINITION. The vocabulary of claims: what a command may change, what it means for a slot to hold a
value, what a completion leaves, and the invariant of the machine. -/

namespace Sys2Proof.Machine

/-! ### Frames -/

/-- Everything outside `STATUS.BUSY`, `DONE` and `ERR` and outside what a command may write (R311: "`STATUS.OVR`
and `CTRL` are not changed by the step"). -/
def State.SameSurroundings (s t : State) : Prop :=
  t.params = s.params ∧ t.ie = s.ie ∧ t.ovr = s.ovr ∧ t.lastCmd = s.lastCmd
    ∧ t.readData = s.readData ∧ t.draws = s.draws ∧ t.events = s.events

/-- R311: the command has completed with the code `c`. -/
def State.CompletedWith (s t : State) (c : ErrorCode) : Prop :=
  s.SameSurroundings t ∧ t.busy = false ∧ t.done = true ∧ t.err = c

/-- R315: the command has completed with the error `c` and has written nothing but `STATUS`. -/
def State.FailedWith (s t : State) (c : ErrorCode) : Prop :=
  s.CompletedWith t c ∧ t.x = s.x ∧ t.slots = s.slots ∧ t.result = s.result

/-- The command has completed without error; only the scalar registers in `ks` may have changed. -/
def State.WroteRegs (s t : State) (ks : List Idx) : Prop :=
  s.CompletedWith t .ok ∧ (∀ k, k ∉ ks → t.reg k = s.reg k) ∧ t.slots = s.slots
    ∧ t.result = s.result

/-- The command has completed without error; only `RESULT` may have changed, and it holds `v`. -/
def State.WroteResult (s t : State) (v : Word) : Prop :=
  s.CompletedWith t .ok ∧ t.x = s.x ∧ t.slots = s.slots ∧ t.result = v

/-- R15, R36: the slot holds the integer `v`, normalised, in `cap` words, "the words at indices `>= len`
receiving 0". -/
def Slot.HoldsInt (cap : Nat) (sl : Slot) (v : Int) : Prop :=
  sl.wf cap = true ∧ sl.sval = v ∧ sl.dig.length = cap
    ∧ ∀ i, sl.len.toNat ≤ i → sl.digit i = 0

/-- The command has completed without error; only slot `d` may have changed, and it holds `v`. -/
def State.WroteSlot (s t : State) (d : Idx) (v : Int) : Prop :=
  s.CompletedWith t .ok ∧ t.x = s.x ∧ (∀ j, j ≠ d → t.slot j = s.slot j) ∧ t.result = s.result
    ∧ (t.slot d).HoldsInt s.params.cap v

end Sys2Proof.Machine

namespace Sys2Proof

open Sys2Proof.Machine

/-- The scalar registers a command may write (R103). -/
def Instr.destRegs : Instr → List Idx
  | .wmul d _ _ => [d, d + 1]
  | .wsqr d _ => [d, d + 1]
  | .wdmul d _ _ => [d, d + 1, d + 2]
  | .wmac d _ _ _ => [d, d + 1]
  | .wmsb d _ => [d]
  | .wdiv d _ _ => [d]
  | .wmod d _ _ => [d]
  | .nop | .norm _ | .acmp _ _ | .cmp _ _ | .rsh _ _ _ | .lsh _ _ _ => []
  | .aadd _ _ _ | .asub _ _ _ | .add _ _ _ | .sub _ _ _ => []
  | .mul _ _ _ | .kmul _ _ _ | .sqr _ _ | .bred _ _ _ _ | .mont _ => []
  | .gdeg _ | .grsh _ _ _ | .glsh _ _ _ | .gadd _ _ _ | .gred _ _ _ | .gmul _ _ _ _ => []
  | .gdiv _ | .gsqr _ => []

/-- The slot a command may write. -/
def Instr.destSlot : Instr → Option Idx
  | .norm d => some d
  | .rsh d _ _ => some d
  | .lsh d _ _ => some d
  | .aadd d _ _ => some d
  | .asub d _ _ => some d
  | .add d _ _ => some d
  | .sub d _ _ => some d
  | .mul d _ _ => some d
  | .kmul d _ _ => some d
  | .sqr d _ => some d
  | .bred d _ _ _ => some d
  | .grsh d _ _ => some d
  | .glsh d _ _ => some d
  | .gadd d _ _ => some d
  | .gred d _ _ => some d
  | .gmul d _ _ _ => some d
  | .nop | .wmul _ _ _ | .wsqr _ _ | .wdmul _ _ _ | .wmac _ _ _ _ | .wmsb _ _ => none
  | .wdiv _ _ _ | .wmod _ _ _ | .acmp _ _ | .cmp _ _ | .mont _ | .gdeg _ => none
  | .gdiv _ | .gsqr _ => none

/-- R44: the commands that write `RESULT`. -/
def Instr.writesResult : Instr → Bool
  | .acmp _ _ => true
  | .cmp _ _ => true
  | .gdeg _ => true
  | .nop | .wmul _ _ _ | .wsqr _ _ | .wdmul _ _ _ | .wmac _ _ _ _ | .wmsb _ _ => false
  | .wdiv _ _ _ | .wmod _ _ _ | .norm _ | .rsh _ _ _ | .lsh _ _ _ => false
  | .aadd _ _ _ | .asub _ _ _ | .add _ _ _ | .sub _ _ _ => false
  | .mul _ _ _ | .kmul _ _ _ | .sqr _ _ | .bred _ _ _ _ | .mont _ => false
  | .grsh _ _ _ | .glsh _ _ _ | .gadd _ _ _ | .gred _ _ _ | .gmul _ _ _ _ => false
  | .gdiv _ | .gsqr _ => false

/-- The registers of the window whose value a command may change: `STATUS` and its destinations. -/
def Instr.mayChange (i : Instr) : Reg → Bool
  | .status => true
  | .result => i.writesResult
  | .x k => k ∈ i.destRegs
  | .len j => i.destSlot == some j
  | .sign j => i.destSlot == some j
  | .dig j _ => i.destSlot == some j
  | .id | .config | .ctrl | .cmd | .lastCmd | .reserved => false

/-- R312: the codes a command may complete with, its own column of the table read row by row; ILLEGAL is not
among them, since it is raised for a word that is no command. -/
def Instr.possibleCodes : Instr → List ErrorCode
  | .nop => [.ok]
  | .wmul _ _ _ => [.ok]
  | .wsqr _ _ => [.ok]
  | .wdmul _ _ _ => [.ok]
  | .wmac _ _ _ _ => [.ok]
  | .wmsb _ _ => [.ok, .zero]
  | .wdiv _ _ _ => [.ok, .zero]
  | .wmod _ _ _ => [.ok, .zero]
  | .norm _ => [.ok, .malformed]
  | .acmp _ _ => [.ok, .malformed]
  | .cmp _ _ => [.ok, .malformed]
  | .rsh _ _ _ => [.ok, .malformed]
  | .lsh _ _ _ => [.ok, .malformed, .capacity]
  | .aadd _ _ _ => [.ok, .malformed, .order, .capacity]
  | .asub _ _ _ => [.ok, .malformed, .magnitude]
  | .add _ _ _ => [.ok, .malformed, .capacity]
  | .sub _ _ _ => [.ok, .malformed, .capacity]
  | .mul _ _ _ => [.ok, .malformed, .capacity]
  | .kmul _ _ _ => [.ok, .malformed, .capacity]
  | .sqr _ _ => [.ok, .malformed, .capacity]
  | .bred _ _ _ _ => [.ok, .malformed, .modulus]
  | .mont _ => [.unimpl]
  | .gdeg _ => [.ok, .malformed]
  | .grsh _ _ _ => [.ok, .malformed]
  | .glsh _ _ _ => [.ok, .malformed, .capacity]
  | .gadd _ _ _ => [.ok, .malformed]
  | .gred _ _ _ => [.ok, .malformed, .modulus]
  | .gmul _ _ _ _ => [.ok, .malformed, .modulus]
  | .gdiv _ => [.unimpl]
  | .gsqr _ => [.unimpl]

/-- The GF(2^n) commands (45_gf2n.md) that have an effect. -/
def Instr.isGf : Instr → Bool
  | .gdeg _ | .grsh _ _ _ | .glsh _ _ _ | .gadd _ _ _ | .gred _ _ _ | .gmul _ _ _ _ => true
  | .nop | .wmul _ _ _ | .wsqr _ _ | .wdmul _ _ _ | .wmac _ _ _ _ | .wmsb _ _ => false
  | .wdiv _ _ _ | .wmod _ _ _ | .norm _ | .acmp _ _ | .cmp _ _ | .rsh _ _ _ | .lsh _ _ _ => false
  | .aadd _ _ _ | .asub _ _ _ | .add _ _ _ | .sub _ _ _ => false
  | .mul _ _ _ | .kmul _ _ _ | .sqr _ _ | .bred _ _ _ _ | .mont _ => false
  | .gdiv _ | .gsqr _ => false

end Sys2Proof

namespace Sys2Proof.Machine

/-! ### Sequences of commands (R109) -/

/-- The commands run one after the other, each completing before the next; the first error ends the
sequence in the state of that error. -/
def execSeq : List Instr → State → Result
  | [], s => .next s
  | i :: is, s =>
    match exec i s with
    | .next t => if t.err = .ok then execSeq is t else .next t
    | .fault r => .fault r
    | .refused r => .refused r

/-- The command completes with the error `c` and writes nothing but `STATUS` (R310, R315). -/
def Fails (i : Instr) (s : State) (c : ErrorCode) : Prop :=
  ∃ t, exec i s = .next t ∧ s.FailedWith t c

/-! ### Reset values (R49) -/

/-- R49: every piece of the block's state has its reset value. -/
def State.AtResetValues (s : State) : Prop :=
  (∀ k, s.reg k = 0)
    ∧ (∀ j, (s.slot j).len = 0 ∧ (s.slot j).sign = 0 ∧ (s.slot j).dig.length = s.params.cap
        ∧ ∀ i, (s.slot j).digit i = 0)
    ∧ s.ie = false ∧ s.busy = false ∧ s.done = false ∧ s.ovr = false ∧ s.err = .ok
    ∧ s.lastCmd = 0 ∧ s.result = 0 ∧ s.irq = false

/-! ### The invariant -/

/-- What holds of the machine between any two steps: the open parameter is in its range (R10), every slot
has its `CAP` digit words (R36), and a command in flight has its completion still to come
(R42: acceptance clears `DONE` and `ERR`). -/
def State.Inv (s : State) : Prop :=
  s.params.wf = true ∧ (∀ j, (s.slot j).dig.length = s.params.cap)
    ∧ (s.busy = true → s.done = false ∧ s.err = .ok)

/-! ### Host accesses -/

/-- A 32-bit read of the window offset `off`. -/
def State.readAt (s : State) (off : Nat) : Event := .host (.read (s.params.base + off) .w32)

/-- A 32-bit write of `v` to the window offset `off`. -/
def State.writeAt (s : State) (off : Nat) (v : Word) : Event :=
  .host (.write (s.params.base + off) .w32 v)

/-- The block has a meaning for the event: it is no refused access (R70, R71). -/
def State.Accepts (s : State) : Event → Prop
  | .host a => a.width = .w32 ∧ ∃ off, off < 2 ^ 20 ∧ off % 4 = 0 ∧ a.addr = s.params.base + off
  | .sequencer => True
  | .powerOn => True

/-- R72: the offsets no register stands at. -/
def ReservedOffset (cap off : Nat) : Prop :=
  (0x0001C ≤ off ∧ off ≤ 0x000FC) ∨ (0x00140 ≤ off ∧ off ≤ 0x001FC)
    ∨ (0x00280 ≤ off ∧ off ≤ 0x00FFC) ∨ (0x01000 + 64 * cap ≤ off ∧ off ≤ 0xFFFFC)

/-- R30, R361: the next step is the sequencer's turn, which leaves the events `rest` to come: its turn stands
first in the list, or no event is left (log 2). -/
def State.TurnNext (s : State) (rest : List Event) : Prop :=
  s.events = .sequencer :: rest ∨ (s.events = [] ∧ rest = [])

/-- R350, R351: the event resets the block: the reset input, or a `CTRL` write with `SRST` set. -/
def State.IsReset (s : State) (e : Event) : Prop :=
  e = .powerOn ∨ ∃ v : Word, v.getLsbD 1 = true ∧ e = s.writeAt 0x00008 v

end Sys2Proof.Machine
end

