-- ==== Sys2Proof/Certificates/Slice0/Obligations.lean ====
section
/-! DEFINITION. The statements about the block, one `def Obligations.<Name> : Prop` each. -/

open Sys2Proof Sys2Proof.Machine

/-! ### Encoding (30_encoding.md) -/

/-- Decoding the word of any command gives the command back: no bit of an encoding is dropped
(R101, R102, R105; the ignored bits of format FU are kept by the model's choice, log 7). -/
def Obligations.DecodeOfEncodeIsTheCommand : Prop :=
  ∀ i : Instr, decode (encode i) = .ok i

/-- Encoding what a word decodes to gives the word back, so two words never mean one command. -/
def Obligations.EncodeOfDecodeIsTheWord : Prop :=
  ∀ (c : Word) (i : Instr), decode c = .ok i → encode i = c

/-- R106 and the reserved opcodes of R107: a word is a command exactly when it matches a row of the opcode map, it matches no second
row, the reserved opcodes decode to nothing, an illegal word completes with ILLEGAL and no other
effect, and MONT, GDIV and GSQR complete with UNIMPL whatever their low bits are. -/
def Obligations.DecodeFollowsTheOpcodeMap : Prop :=
  (∀ c : Word, (∃ i, decode c = .ok i) ↔ ∃ r ∈ opcodeRows, r.matchesWord c = true)
    ∧ (∀ (c : Word) (i : Instr), decode c = .ok i →
        i.row.matchesWord c = true ∧ ∀ r ∈ opcodeRows, r.matchesWord c = true → r = i.row)
    ∧ (∀ c : Word,
        (0x01 ≤ (fieldOpc c).toNat ∧ (fieldOpc c).toNat ≤ 0x0F)
          ∨ (0x17 ≤ (fieldOpc c).toNat ∧ (fieldOpc c).toNat ≤ 0x1F)
          ∨ (0x25 ≤ (fieldOpc c).toNat ∧ (fieldOpc c).toNat ≤ 0x2F)
          ∨ (0x34 ≤ (fieldOpc c).toNat ∧ (fieldOpc c).toNat ≤ 0x3F)
          ∨ (0x43 ≤ (fieldOpc c).toNat ∧ (fieldOpc c).toNat ≤ 0x4F)
          ∨ (0x52 ≤ (fieldOpc c).toNat ∧ (fieldOpc c).toNat ≤ 0x5F)
          ∨ 0x68 ≤ (fieldOpc c).toNat →
        decode c = .error .unassignedOpcode)
    ∧ (∀ (s : State) (rest : List Event) (e : DecodeError), s.busy = true → s.TurnNext rest →
        decode s.lastCmd = .error e →
        ∃ t, step s = .next t ∧ ({ s with events := rest }).FailedWith t .illegal)
    ∧ (∀ (s : State) (rest : List Event), s.busy = true → s.TurnNext rest →
        (fieldOpc s.lastCmd).toNat = 0x51 ∨ (fieldOpc s.lastCmd).toNat = 0x66
          ∨ (fieldOpc s.lastCmd).toNat = 0x67 →
        ∃ t, step s = .next t ∧ ({ s with events := rest }).FailedWith t .unimpl)

/-- The four examples of R108: the lines assemble to their words and the words decode to the commands they
stand for; so does one word of each other format, written out from R102. -/
def Obligations.SampleWordsDecode : Prop :=
  decode 0x30201000 = .ok (.aadd 2 0 1) ∧ decode 0x23330024 = .ok (.rsh 3 3 36)
    ∧ decode 0x65412300 = .ok (.gmul 4 1 2 3) ∧ decode 0x10201000 = .ok (.wmul 2 0 1)
    ∧ decode 0x00000000 = .ok .nop ∧ decode 0x20100000 = .ok (.norm 1)
    ∧ decode 0x60030000 = .ok (.gdeg 3) ∧ decode 0x21023000 = .ok (.acmp 2 3)
    ∧ decode 0x42100000 = .ok (.sqr 1 0) ∧ decode 0x64100200 = .ok (.gred 1 0 2)
    ∧ decode 0x51FFFFFF = .ok (.mont 0xFFFFFF)
    ∧ assembleLine "AADD s2, s0, s1".toList = some [0x30201000]
    ∧ assembleLine "RSH s3, s3, 36".toList = some [0x23330024]
    ∧ assembleLine "GMUL s4, s1, s2, s3".toList = some [0x65412300]
    ∧ assembleLine "WMUL x2, x0, x1".toList = some [0x10201000]

/-! ### Reset (10_state.md R49; 70_reset_and_hazards.md) -/

/-- R49: the values after reset, every one of them; the default `CAP` is that of R10. -/
def Obligations.ResetHoldsTheResetValues : Prop :=
  State.reset.AtResetValues ∧ State.reset.params.cap = 128 ∧ (∀ j, State.reset.wf j = true)
    ∧ State.reset.regValue .id = 0x43484C42 ∧ State.reset.regValue .config = 0x00801020

/-- R350: the reset input, at any time, gives every piece of state its reset value, leaves ID and CONFIG
as they are and no command in flight, and after it the block waits. -/
def Obligations.PowerOnResetGivesTheResetValues : Prop :=
  ∀ (s : State) (rest : List Event), s.events = .powerOn :: rest →
    ∃ t, step s = .next t ∧ t.AtResetValues ∧ t.params = s.params ∧ t.events = rest
      ∧ t.regValue .id = 0x43484C42 ∧ t.regValue .config = s.regValue .config
      ∧ (rest = [] → step t = .next t)

/-- R40, R351: a CTRL write with bit 1 set resets the block, busy or not, and does not store bit 0; any
other CTRL write stores IE and nothing else; a read gives IE in bit 0 and zeros. -/
def Obligations.ControlRegisterStoresEnableOrResets : Prop :=
  ∀ (s : State) (rest : List Event),
    (∀ v : Word, s.events = s.writeAt 0x00008 v :: rest → v.getLsbD 1 = true →
        ∃ t, step s = .next t ∧ t.AtResetValues ∧ t.params = s.params ∧ t.events = rest)
      ∧ (∀ v : Word, s.events = s.writeAt 0x00008 v :: rest → v.getLsbD 1 = false →
        step s = .next { s with ie := v.getLsbD 0, events := rest })
      ∧ (s.events = s.readAt 0x00008 :: rest →
        step s = .next { s with readData := if s.ie then 1 else 0, events := rest })

/-! ### The invariant -/

/-- Every step keeps the invariant: the parameter in its range, `CAP` digit words in every slot, and no
completion recorded while a command is in flight. -/
def Obligations.StepKeepsTheInvariant : Prop :=
  ∀ s t : State, s.Inv → step s = .next t → t.Inv

/-- The invariant holds right after reset. -/
def Obligations.ResetMeetsTheInvariant : Prop := State.reset.Inv

/-! ### The register window (20_memory.md) -/

/-- R72: the register map: where each register stands, that every register stands alone at a multiple of 4
inside the window, and which offsets are reserved. -/
def Obligations.RegisterMapIsOneToOne : Prop :=
  ∀ cap : Nat, 1 ≤ cap → cap ≤ 4096 →
    (regAt cap 0x00000 = .id ∧ regAt cap 0x00004 = .config ∧ regAt cap 0x00008 = .ctrl
        ∧ regAt cap 0x0000C = .status ∧ regAt cap 0x00010 = .cmd ∧ regAt cap 0x00014 = .lastCmd
        ∧ regAt cap 0x00018 = .result)
      ∧ (∀ k : Idx, regAt cap (0x00100 + 4 * k.val) = .x k)
      ∧ (∀ j : Idx, regAt cap (0x00200 + 8 * j.val) = .len j
        ∧ regAt cap (0x00204 + 8 * j.val) = .sign j)
      ∧ (∀ (j : Idx) (i : Nat), i < cap →
        regAt cap (0x01000 + 4 * cap * j.val + 4 * i) = .dig j i
          ∧ 0x01000 + 4 * cap * j.val + 4 * i < 2 ^ 20)
      ∧ (∀ off : Nat, off < 2 ^ 20 → off % 4 = 0 →
        (regAt cap off = .reserved ↔ ReservedOffset cap off))

/-- R71, R320: an access of the window of another width, or at an offset that is no multiple of 4, is
refused; every other access of the window has a next state. -/
def Obligations.OnlyWrongWidthOrMisalignedAccessesAreRefused : Prop :=
  ∀ (s : State) (a : Access) (rest : List Event) (off : Nat),
    s.events = .host a :: rest → a.addr = s.params.base + off → off < 2 ^ 20 →
      (a.width ≠ .w32 ∨ off % 4 ≠ 0 → ∃ r, step s = .refused r)
        ∧ (a.width = .w32 → off % 4 = 0 → ∃ t, step s = .next t)

/-- R38, R39, R76: the read-only registers and the reserved offsets ignore writes, busy or not, without any
effect on STATUS; the read-only registers read their values, CMD and the reserved offsets read 0. -/
def Obligations.ReadOnlyAndReservedOffsets : Prop :=
  ∀ (s : State) (rest : List Event), s.params.wf = true →
    (∀ (off : Nat) (v : Word), off < 2 ^ 20 → off % 4 = 0 →
        (ReservedOffset s.params.cap off ∨ off = 0x00000 ∨ off = 0x00004 ∨ off = 0x00014
          ∨ off = 0x00018) →
        s.events = s.writeAt off v :: rest → step s = .next { s with events := rest })
      ∧ (∀ off : Nat, off < 2 ^ 20 → off % 4 = 0 →
        (ReservedOffset s.params.cap off ∨ off = 0x00010) → s.events = s.readAt off :: rest →
        step s = .next { s with readData := 0, events := rest })
      ∧ (s.events = s.readAt 0x00000 :: rest →
        step s = .next { s with readData := 0x43484C42, events := rest })
      ∧ (s.events = s.readAt 0x00004 :: rest →
        ∃ w : Word, step s = .next { s with readData := w, events := rest }
          ∧ w.toNat = s.params.cap * 2 ^ 16 + 16 * 2 ^ 8 + 32)
      ∧ (s.events = s.readAt 0x00014 :: rest →
        step s = .next { s with readData := s.lastCmd, events := rest })
      ∧ (s.busy = false → s.events = s.readAt 0x00018 :: rest →
        step s = .next { s with readData := s.result, events := rest })

/-- R73, R74, R75: while the block is idle, a write to an operand register and a read of it give the stored
bits, and no other register changes: a host write does not normalise, zero or check anything. -/
def Obligations.OperandWriteThenRead : Prop :=
  ∀ (s : State) (v : Word) (rest : List Event) (r : Reg) (off : Nat), s.params.wf = true →
    s.busy = false → (∀ j, (s.slot j).dig.length = s.params.cap) →
    s.events = s.writeAt off v :: s.readAt off :: rest →
    ((∃ k : Idx, off = 0x00100 + 4 * k.val ∧ r = .x k)
      ∨ (∃ j : Idx, off = 0x00200 + 8 * j.val ∧ r = .len j)
      ∨ (∃ j : Idx, off = 0x00204 + 8 * j.val ∧ r = .sign j)
      ∨ (∃ (j : Idx) (i : Nat), i < s.params.cap
          ∧ off = 0x01000 + 4 * s.params.cap * j.val + 4 * i ∧ r = .dig j i)) →
    ∃ t u, step s = .next t ∧ step t = .next u ∧ u.events = rest
      ∧ (∀ r', r' ≠ r → u.regValue r' = s.regValue r')
      ∧ (∀ k, r = .x k → u.readData = v ∧ u.reg k = v)
      ∧ (∀ j, r = .len j → u.readData.toNat = v.toNat % 2 ^ 16
          ∧ (u.slot j).len.toNat = v.toNat % 2 ^ 16)
      ∧ (∀ j, r = .sign j → u.readData.toNat = v.toNat % 4
          ∧ (u.slot j).sign.toNat = v.toNat % 4)
      ∧ (∀ j i, r = .dig j i → u.readData = v ∧ (u.slot j).digit i = v)

/-- R357: a read of a scalar register, a slot field or RESULT while the block is busy returns some value and
changes no state of the block; every other read returns the register's value. -/
def Obligations.ReadsWhileBusyAreUnspecified : Prop :=
  ∀ (s : State) (r : Reg) (off : Nat) (rest : List Event), s.params.wf = true →
    (∀ j i, r = .dig j i → i < s.params.cap) → r.offset s.params.cap = some off →
    s.events = s.readAt off :: rest →
      (s.busy = true → (r.isOperand = true ∨ r = .result) →
        ∃ (w : Word) (n : Nat), step s = .next { s with readData := w, draws := n, events := rest })
      ∧ (s.busy = false ∨ (r.isOperand = false ∧ r ≠ .result) →
        step s = .next { s with readData := s.regValue r, events := rest })

/-- R41 and the status bits: what STATUS reads, and that a write clears DONE and OVR where it has a 1 and
changes nothing else. -/
def Obligations.StatusReadsAndClears : Prop :=
  ∀ (s : State) (rest : List Event),
    (s.events = s.readAt 0x0000C :: rest →
      ∃ w : Word, step s = .next { s with readData := w, events := rest }
        ∧ w.getLsbD 0 = s.busy ∧ w.getLsbD 1 = s.done ∧ w.getLsbD 2 = s.ovr ∧ w.getLsbD 3 = false
        ∧ w.extractLsb' 4 4 = s.err.bits ∧ w.extractLsb' 8 24 = 0)
      ∧ (∀ v : Word, s.events = s.writeAt 0x0000C v :: rest →
        step s = .next { s with
          done := if v.getLsbD 1 then false else s.done
          ovr := if v.getLsbD 2 then false else s.ovr
          events := rest })

/-! ### Command issue and overrun (10_state.md R42; 70_reset_and_hazards.md) -/

/-- R42: a CMD write is accepted while the block is idle, and dropped with OVR set while it is busy, even
when DONE is 1; CMD reads 0. -/
def Obligations.CommandIssue : Prop :=
  ∀ (s : State) (rest : List Event),
    (∀ v : Word, s.events = s.writeAt 0x00010 v :: rest → s.busy = false →
        step s = .next
          { s with lastCmd := v, done := false, err := .ok, busy := true, events := rest })
      ∧ (∀ v : Word, s.events = s.writeAt 0x00010 v :: rest → s.busy = true →
        step s = .next { s with ovr := true, events := rest })
      ∧ (s.events = s.readAt 0x00010 :: rest →
        step s = .next { s with readData := 0, events := rest })

/-- R356: writes while busy: dropped with OVR set for CMD, the scalar registers and the slot fields; CTRL and
STATUS as at any time; ignored without OVR everywhere else. -/
def Obligations.WritesWhileBusy : Prop :=
  ∀ (s : State) (v : Word) (rest : List Event) (off : Nat), s.params.wf = true → s.busy = true →
    off < 2 ^ 20 → off % 4 = 0 → s.events = s.writeAt off v :: rest →
      (∀ r : Reg, r.offset s.params.cap = some off → (∀ j i, r = .dig j i → i < s.params.cap) →
        r.isOperand = true ∨ r = .cmd → step s = .next { s with ovr := true, events := rest })
      ∧ (off = 0x00008 → v.getLsbD 1 = false →
        step s = .next { s with ie := v.getLsbD 0, events := rest })
      ∧ (off = 0x00008 → v.getLsbD 1 = true →
        ∃ t, step s = .next t ∧ t.AtResetValues ∧ t.params = s.params ∧ t.events = rest)
      ∧ (off = 0x0000C → step s = .next { s with
          done := if v.getLsbD 1 then false else s.done
          ovr := if v.getLsbD 2 then false else s.ovr
          events := rest })
      ∧ (ReservedOffset s.params.cap off ∨ off = 0x00000 ∨ off = 0x00004 ∨ off = 0x00014
          ∨ off = 0x00018 → step s = .next { s with events := rest })

/-- R47: no host access but a reset changes the operands or the command of a command in flight. -/
def Obligations.InFlightOperandsAreFixed : Prop :=
  ∀ (s t : State) (a : Access) (rest : List Event), s.busy = true → s.events = .host a :: rest →
    ¬ s.IsReset (.host a) → step s = .next t →
      t.x = s.x ∧ t.slots = s.slots ∧ t.lastCmd = s.lastCmd ∧ t.busy = true ∧ t.params = s.params

/-- R359: once set, OVR stays until a STATUS write with bit 2 set or a reset. -/
def Obligations.OverrunIsSticky : Prop :=
  ∀ s t : State, s.ovr = true → step s = .next t →
    t.ovr = true
      ∨ ∃ e rest, s.events = e :: rest
        ∧ (s.IsReset e ∨ ∃ v : Word, v.getLsbD 2 = true ∧ e = s.writeAt 0x0000C v)

/-! ### The sequencer (60_exceptions.md R310-R317) -/

/-- R31, R311: the sequencer's turn executes the command in LASTCMD; nothing happens while the block is
idle; and a word placed by `withFetchWord` is what the very next step runs. -/
def Obligations.StepRunsTheDecodedCommand : Prop :=
  (∀ (s : State) (i : Instr), s.busy = true → decode s.lastCmd = .ok i →
      (s.events = [] → step s = exec i s)
        ∧ (∀ rest, s.events = .sequencer :: rest → step s = exec i { s with events := rest }))
    ∧ (∀ s : State, s.busy = false →
      (s.events = [] → step s = .next s)
        ∧ (∀ rest, s.events = .sequencer :: rest → step s = .next { s with events := rest }))
    ∧ (∀ (s : State) (nbits w : Nat) (i : Instr), decodeTableWord nbits w = some i →
      step (s.withFetchWord nbits w) = exec i
        { s with
          lastCmd := BitVec.ofNat 32 (w % 2 ^ nbits)
          done := false
          err := .ok
          busy := true })

/-- R310: every command, in every state, and every accepted word, command or not, completes: BUSY falls, DONE rises, OVR, CTRL and LASTCMD stay,
and either its code is OK or nothing but STATUS is written. -/
def Obligations.EveryCommandCompletes : Prop :=
  (∀ (i : Instr) (s : State),
      ∃ t, exec i s = .next t ∧ s.CompletedWith t t.err ∧ t.irq = s.ie
        ∧ (t.err ≠ .ok → s.FailedWith t t.err))
    ∧ ∀ (s : State) (rest : List Event), s.busy = true → s.TurnNext rest →
      ∃ t, step s = .next t ∧ ({ s with events := rest }).CompletedWith t t.err ∧ t.irq = s.ie
        ∧ (t.err ≠ .ok → ({ s with events := rest }).FailedWith t t.err)

/-- R312: the codes and their numbers, and that a command never raises a code whose row does not list it. -/
def Obligations.CodesOfEachCommand : Prop :=
  (ErrorCode.ok.bits = 0 ∧ ErrorCode.illegal.bits = 1 ∧ ErrorCode.unimpl.bits = 2
      ∧ ErrorCode.malformed.bits = 3 ∧ ErrorCode.order.bits = 4 ∧ ErrorCode.magnitude.bits = 5
      ∧ ErrorCode.modulus.bits = 6 ∧ ErrorCode.zero.bits = 7 ∧ ErrorCode.capacity.bits = 8)
    ∧ ∀ (i : Instr) (s t : State), exec i s = .next t → t.err ∈ i.possibleCodes

/-- R311: DONE is set and BUSY is cleared only by the sequencer's step of a command in flight, or by reset. -/
def Obligations.OnlyCompletionSetsDone : Prop :=
  ∀ s t : State, step s = .next t →
    ((s.done = false ∧ t.done = true) ∨ (s.busy = true ∧ t.busy = false)) →
      (s.busy = true ∧ (s.events = [] ∨ ∃ rest, s.events = .sequencer :: rest))
        ∨ ∃ e rest, s.events = e :: rest ∧ s.IsReset e

/-- R361: a command in flight completes, or is abandoned by a reset, after finitely many steps, whatever
accesses the host still makes. -/
def Obligations.CommandInFlightEndsInBoundedSteps : Prop :=
  ∀ s : State, s.busy = true → (∀ e ∈ s.events, s.Accepts e) →
    ∃ (k : Nat) (t : State), k ≤ s.events.length + 1
      ∧ Sys2Proof.core.run k s = Host.Outcome.next t ∧ t.busy = false

/-- R45, R316: IRQ is the level `CTRL.IE and STATUS.DONE`: what raises it and what lowers it. -/
def Obligations.InterruptLevel : Prop :=
  (∀ s : State, s.irq = (s.ie && s.done))
    ∧ (∀ (s : State) (rest : List Event), s.busy = true → s.TurnNext rest →
      ∃ t, step s = .next t ∧ t.irq = s.ie)
    ∧ ∀ (s : State) (v : Word) (rest : List Event),
      (s.events = s.writeAt 0x00008 v :: rest → v.getLsbD 1 = false → v.getLsbD 0 = true →
        s.done = true → ∃ t, step s = .next t ∧ t.irq = true)
      ∧ (s.events = s.writeAt 0x00008 v :: rest → v.getLsbD 1 = false → v.getLsbD 0 = false →
        ∃ t, step s = .next t ∧ t.irq = false)
      ∧ (s.events = s.writeAt 0x0000C v :: rest → v.getLsbD 1 = true →
        ∃ t, step s = .next t ∧ t.irq = false)
      ∧ (s.events = s.writeAt 0x00010 v :: rest → s.busy = false →
        ∃ t, step s = .next t ∧ t.irq = false)
      ∧ (∀ e, s.IsReset e → s.events = e :: rest → ∃ t, step s = .next t ∧ t.irq = false)

/-! ### What commands read and change -/

/-- Frame of every command: every byte of the window but those of STATUS and of the command's own destinations
reads as before, and nothing outside the window changes either. -/
def Obligations.CommandsChangeOnlyTheirDestinations : Prop :=
  ∀ (i : Instr) (s t : State), exec i s = .next t →
    s.SameSurroundings t
      ∧ (∀ off, i.mayChange (regAt s.params.cap (off - off % 4)) = false →
          t.windowByte off = s.windowByte off)
      ∧ (∀ k, k ∉ i.destRegs → t.reg k = s.reg k)
      ∧ (∀ j, i.destSlot ≠ some j → t.slot j = s.slot j)
      ∧ (i.writesResult = false → t.result = s.result)

/-- R46: "no command reads RESULT or STATUS as an input": two states with the same scalar registers and
slots, whatever their flags, give the same outcome. -/
def Obligations.FlagsNeverInfluenceACommand : Prop :=
  ∀ (i : Instr) (s s' : State), s'.params = s.params → s'.x = s.x → s'.slots = s.slots →
    ∃ t t', exec i s = .next t ∧ exec i s' = .next t' ∧ t'.err = t.err ∧ t'.x = t.x
      ∧ t'.slots = t.slots ∧ (i.writesResult = true → t.err = .ok → t'.result = t.result)

/-- R285: two states that differ in the signs of their slots give the same outcome of a GF(2^n) command. -/
def Obligations.PolynomialCommandsNeverReadTheSign : Prop :=
  ∀ (i : Instr) (s s' : State), i.isGf = true → s'.params = s.params →
    (∀ j, (s'.slot j).len = (s.slot j).len ∧ (s'.slot j).dig = (s.slot j).dig) →
    ∃ t t', exec i s = .next t ∧ exec i s' = .next t' ∧ t'.err = t.err
      ∧ (i.writesResult = true → t.err = .ok → t'.result = t.result)
      ∧ (∀ d, i.destSlot = some d → t.err = .ok → t'.slot d = t.slot d)

/-- R14, R36: two states that differ in the digit words at indices at or above `len` give the same outcome. -/
def Obligations.DigitsAboveLengthAreNeverRead : Prop :=
  ∀ (i : Instr) (s s' : State), s'.params = s.params → s'.x = s.x →
    (∀ j, (s'.slot j).len = (s.slot j).len ∧ (s'.slot j).sign = (s.slot j).sign
      ∧ (s'.slot j).dig.take (s.slot j).len.toNat = (s.slot j).dig.take (s.slot j).len.toNat) →
    ∃ t t', exec i s = .next t ∧ exec i s' = .next t' ∧ t'.err = t.err ∧ t'.x = t.x
      ∧ (i.writesResult = true → t.err = .ok → t'.result = t.result)
      ∧ (∀ d, i.destSlot = some d → t.err = .ok → t'.slot d = t.slot d)

/-- R48: a slot that is well formed stays so through every step but a host write to one of its own fields;
in particular "no command produces" a denormalised slot. -/
def Obligations.OnlyTheHostDenormalisesASlot : Prop :=
  ∀ (s t : State) (j : Idx), s.params.wf = true → step s = .next t → s.wf j = true →
    t.wf j = false →
      ∃ (off : Nat) (v : Word) (rest : List Event) (r : Reg),
        s.events = s.writeAt off v :: rest ∧ r.offset s.params.cap = some off
          ∧ (r = .len j ∨ r = .sign j ∨ ∃ i, i < s.params.cap ∧ r = .dig j i)

/-- R15: what `WriteInt` and `WritePoly` leave: the word count, every digit word, the sign, and a well-formed
slot of that value, the only one. -/
def Obligations.WriteIntNormalises : Prop :=
  ∀ (cap : Nat) (v : Int), cap ≤ 4096 → v.natAbs < 2 ^ (32 * cap) →
    (∀ k, (intSlot cap v).len.toNat ≤ k ↔ v.natAbs < 2 ^ (32 * k))
      ∧ (∀ i, i < cap → ((intSlot cap v).digit i).toNat = v.natAbs / 2 ^ (32 * i) % 2 ^ 32)
      ∧ ((v = 0 → (intSlot cap v).sign = 0) ∧ (0 < v → (intSlot cap v).sign = 1)
        ∧ (v < 0 → (intSlot cap v).sign = 2))
      ∧ (intSlot cap v).HoldsInt cap v
      ∧ (∀ sl : Slot, sl.HoldsInt cap v → sl = intSlot cap v)
      ∧ ∀ (s : State) (j k : Idx), s.params.cap = cap →
        (s.writeInt j v).slot k = (if k = j then intSlot cap v else s.slot k)
          ∧ (0 ≤ v → s.writePoly j v.toNat = s.writeInt j v)

/-! ### Word layer (40_word_layer.md) -/

/-- R130, R131: WMUL and WSQR write the exact double-word product, and the source's four half-word partial
products are that product. -/
def Obligations.WordProductIsExact : Prop :=
  (∀ d a b : Idx, decode (commandWord 0x10 (fieldOfIdx d) (fieldOfIdx a) (fieldOfIdx b) 0 0)
        = .ok (.wmul d a b)
      ∧ decode (commandWord 0x11 (fieldOfIdx d) (fieldOfIdx a) 0 0 0) = .ok (.wsqr d a))
    ∧ (∀ (d a b : Idx) (s : State), ∃ t, exec (.wmul d a b) s = .next t
      ∧ s.WroteRegs t [d, d + 1]
      ∧ (t.reg d).toNat + 2 ^ 32 * (t.reg (d + 1)).toNat = (s.reg a).toNat * (s.reg b).toNat)
    ∧ (∀ (d a : Idx) (s : State), ∃ t, exec (.wsqr d a) s = .next t
      ∧ s.WroteRegs t [d, d + 1]
      ∧ (t.reg d).toNat + 2 ^ 32 * (t.reg (d + 1)).toNat = (s.reg a).toNat * (s.reg a).toNat)
    ∧ ∀ x y : Word, halfWordProduct x y = x.toNat * y.toNat

/-- R132: WDMUL writes the exact doubled product in three words, and doubling the product by a shift with
the carry captured gives the same words. -/
def Obligations.DoubledProductIsExact : Prop :=
  (∀ d a b : Idx, decode (commandWord 0x12 (fieldOfIdx d) (fieldOfIdx a) (fieldOfIdx b) 0 0)
      = .ok (.wdmul d a b))
    ∧ ∀ (d a b : Idx) (s : State), ∃ t, exec (.wdmul d a b) s = .next t
      ∧ s.WroteRegs t [d, d + 1, d + 2]
      ∧ (t.reg d).toNat + 2 ^ 32 * (t.reg (d + 1)).toNat + 2 ^ 64 * (t.reg (d + 2)).toNat
          = 2 * (s.reg a).toNat * (s.reg b).toNat
      ∧ (t.reg (d + 2)).toNat ≤ 1
      ∧ (t.reg d, t.reg (d + 1), t.reg (d + 2)) = doubledWords (s.reg a) (s.reg b)

/-- R133: WMAC writes the exact double word `x[A] * x[B] + x[D] + x[C]`, all four read before any is written. -/
def Obligations.MultiplyAccumulateIsExact : Prop :=
  (∀ d a b c : Idx,
      decode (commandWord 0x13 (fieldOfIdx d) (fieldOfIdx a) (fieldOfIdx b) (fieldOfIdx c) 0)
        = .ok (.wmac d a b c))
    ∧ ∀ (d a b c : Idx) (s : State), ∃ t, exec (.wmac d a b c) s = .next t
      ∧ s.WroteRegs t [d, d + 1]
      ∧ (t.reg d).toNat + 2 ^ 32 * (t.reg (d + 1)).toNat
          = (s.reg a).toNat * (s.reg b).toNat + (s.reg d).toNat + (s.reg c).toNat

/-- R134: WMSB writes the index of the highest set bit of a nonzero word, and raises ZERO for a zero word. -/
def Obligations.MostSignificantBit : Prop :=
  (∀ d a : Idx, decode (commandWord 0x14 (fieldOfIdx d) (fieldOfIdx a) 0 0 0) = .ok (.wmsb d a))
    ∧ ∀ (d a : Idx) (s : State),
      (s.reg a = 0 → Fails (.wmsb d a) s .zero)
        ∧ (s.reg a ≠ 0 → ∃ t, exec (.wmsb d a) s = .next t ∧ s.WroteRegs t [d]
          ∧ (t.reg d).toNat < 32 ∧ 2 ^ (t.reg d).toNat ≤ (s.reg a).toNat
          ∧ (s.reg a).toNat < 2 ^ ((t.reg d).toNat + 1))

/-- R135, R136: WDIV and WMOD write the unsigned quotient and remainder, and raise ZERO for a zero divisor. -/
def Obligations.WordQuotientAndRemainder : Prop :=
  (∀ d a b : Idx, decode (commandWord 0x15 (fieldOfIdx d) (fieldOfIdx a) (fieldOfIdx b) 0 0)
        = .ok (.wdiv d a b)
      ∧ decode (commandWord 0x16 (fieldOfIdx d) (fieldOfIdx a) (fieldOfIdx b) 0 0)
        = .ok (.wmod d a b))
    ∧ ∀ (d a b : Idx) (s : State),
      (s.reg b = 0 → Fails (.wdiv d a b) s .zero ∧ Fails (.wmod d a b) s .zero)
        ∧ (s.reg b ≠ 0 → ∃ t u, exec (.wdiv d a b) s = .next t ∧ exec (.wmod d a b) s = .next u
          ∧ s.WroteRegs t [d] ∧ s.WroteRegs u [d] ∧ (u.reg d).toNat < (s.reg b).toNat
          ∧ (t.reg d).toNat * (s.reg b).toNat + (u.reg d).toNat = (s.reg a).toNat)

/-! ### No-op, normalisation, comparison, shifts (41_normalize_compare_shift.md) -/

/-- R160: NOP completes with ERR = 0 and changes nothing else; its word is zero. -/
def Obligations.NopOnlyCompletes : Prop :=
  decode 0 = .ok .nop ∧ (∀ c : Word, fieldOpc c = 0 → c ≠ 0 → decode c = .error .fieldNotZero)
    ∧ ∀ s : State, exec .nop s = .next { s with err := .ok, busy := false, done := true }

/-- R161: NORM keeps the magnitude and leaves a well-formed slot with zeros above: its sign is ZERO for zero,
POS where it was ZERO and else what it was; MALFORMED for `len > CAP` or sign code 3; doing it twice
changes nothing more. -/
def Obligations.NormaliseKeepsTheValue : Prop :=
  (∀ d : Idx, decode (commandWord 0x20 (fieldOfIdx d) 0 0 0 0) = .ok (.norm d))
    ∧ ∀ (d : Idx) (s : State), s.params.wf = true → (s.slot d).dig.length = s.params.cap →
      (s.params.cap < (s.slot d).len.toNat ∨ (s.slot d).sign = 3 → Fails (.norm d) s .malformed)
        ∧ ((s.slot d).len.toNat ≤ s.params.cap → (s.slot d).sign ≠ 3 →
          ∃ t u, exec (.norm d) s = .next t ∧ exec (.norm d) t = .next u
            ∧ s.CompletedWith t .ok ∧ t.x = s.x ∧ t.result = s.result
            ∧ (∀ j, j ≠ d → t.slot j = s.slot j)
            ∧ t.wf d = true ∧ (t.slot d).mag = (s.slot d).mag
            ∧ (t.slot d).dig.length = s.params.cap
            ∧ (∀ i, (t.slot d).len.toNat ≤ i → (t.slot d).digit i = 0)
            ∧ ((s.slot d).mag ≠ 0 → (s.slot d).sign = 0 → (t.slot d).sign = 1)
            ∧ ((s.slot d).mag ≠ 0 → (s.slot d).sign ≠ 0 → (t.slot d).sign = (s.slot d).sign)
            ∧ u.slots = t.slots)

/-- R162: ACMP writes to RESULT the order of the magnitudes, and nothing else. -/
def Obligations.CompareMagnitudes : Prop :=
  (∀ a b : Idx, decode (commandWord 0x21 0 (fieldOfIdx a) (fieldOfIdx b) 0 0) = .ok (.acmp a b))
    ∧ ∀ (a b : Idx) (s : State),
      (s.wf a = false ∨ s.wf b = false → Fails (.acmp a b) s .malformed)
        ∧ (s.wf a = true → s.wf b = true → ∃ (t : State) (r : Word),
          exec (.acmp a b) s = .next t ∧ s.WroteResult t r
            ∧ ((s.slot b).mag < (s.slot a).mag → r = 0x00000001)
            ∧ ((s.slot a).mag = (s.slot b).mag → r = 0x00000000)
            ∧ ((s.slot a).mag < (s.slot b).mag → r = 0xFFFFFFFF))

/-- R163: CMP writes to RESULT the order of the signed values, and nothing else. -/
def Obligations.CompareSignedValues : Prop :=
  (∀ a b : Idx, decode (commandWord 0x22 0 (fieldOfIdx a) (fieldOfIdx b) 0 0) = .ok (.cmp a b))
    ∧ ∀ (a b : Idx) (s : State),
      (s.wf a = false ∨ s.wf b = false → Fails (.cmp a b) s .malformed)
        ∧ (s.wf a = true → s.wf b = true → ∃ (t : State) (r : Word),
          exec (.cmp a b) s = .next t ∧ s.WroteResult t r
            ∧ ((s.slot b).sval < (s.slot a).sval → r = 0x00000001)
            ∧ ((s.slot a).sval = (s.slot b).sval → r = 0x00000000)
            ∧ ((s.slot a).sval < (s.slot b).sval → r = 0xFFFFFFFF))

/-- R164: RSH writes the magnitude shifted right with the source's sign, ZERO for zero; the word formula of
its decomposition gives the same words. -/
def Obligations.RightShift : Prop :=
  (∀ (d a : Idx) (k : BitVec 16),
      decode (shiftWord 0x23 (fieldOfIdx d) (fieldOfIdx a) k) = .ok (.rsh d a k))
    ∧ ∀ (d a : Idx) (k : BitVec 16) (s : State),
      (s.wf a = false → Fails (.rsh d a k) s .malformed)
        ∧ (s.params.wf = true → s.wf a = true → ∃ t, exec (.rsh d a k) s = .next t
          ∧ s.WroteSlot t d (signedBy (s.slot a).sign ((s.slot a).mag / 2 ^ k.toNat))
          ∧ ∀ i, i < s.params.cap → (t.slot d).digit i = shiftedWord (s.slot a) k.toNat i)

/-- R165: LSH writes the magnitude shifted left, exactly, with the source's sign, or raises CAPACITY. -/
def Obligations.LeftShift : Prop :=
  (∀ (d a : Idx) (k : BitVec 16),
      decode (shiftWord 0x24 (fieldOfIdx d) (fieldOfIdx a) k) = .ok (.lsh d a k))
    ∧ ∀ (d a : Idx) (k : BitVec 16) (s : State),
      (s.wf a = false → Fails (.lsh d a k) s .malformed)
        ∧ (s.wf a = true → 2 ^ (32 * s.params.cap) ≤ (s.slot a).mag * 2 ^ k.toNat →
          Fails (.lsh d a k) s .capacity)
        ∧ (s.params.wf = true → s.wf a = true →
          (s.slot a).mag * 2 ^ k.toNat < 2 ^ (32 * s.params.cap) →
          ∃ t, exec (.lsh d a k) s = .next t
            ∧ s.WroteSlot t d (signedBy (s.slot a).sign ((s.slot a).mag * 2 ^ k.toNat)))

/-- R165: "`RightShift(LeftShift(A, k), k) == A`" for every k for which LSH does not raise, and the same for
GRSH and GLSH (R272); also through other slots. -/
def Obligations.ShiftRoundTrip : Prop :=
  ∀ (d e a : Idx) (k : BitVec 16) (s t u : State), s.params.wf = true →
    (exec (.lsh d a k) s = .next t → t.err = .ok → exec (.rsh e d k) t = .next u →
        u.err = .ok ∧ (u.slot e).sval = (s.slot a).sval)
      ∧ (exec (.glsh d a k) s = .next t → t.err = .ok → exec (.grsh e d k) t = .next u →
        u.err = .ok ∧ (u.slot e).mag = (s.slot a).mag)

/-! ### Adder (42_adder.md) -/

/-- R190, R191: AADD and ASUB write the sum and the difference of the magnitudes; their preconditions and
their capacity are checked in the order of R314. -/
def Obligations.AddAndSubtractMagnitudes : Prop :=
  (∀ d a b : Idx, decode (commandWord 0x30 (fieldOfIdx d) (fieldOfIdx a) (fieldOfIdx b) 0 0)
        = .ok (.aadd d a b)
      ∧ decode (commandWord 0x31 (fieldOfIdx d) (fieldOfIdx a) (fieldOfIdx b) 0 0)
        = .ok (.asub d a b))
    ∧ ∀ (d a b : Idx) (s : State),
      (s.wf a = false ∨ s.wf b = false →
          Fails (.aadd d a b) s .malformed ∧ Fails (.asub d a b) s .malformed)
        ∧ (s.wf a = true → s.wf b = true → (s.slot a).len.toNat < (s.slot b).len.toNat →
          Fails (.aadd d a b) s .order)
        ∧ (s.wf a = true → s.wf b = true → (s.slot b).len.toNat ≤ (s.slot a).len.toNat →
          2 ^ (32 * s.params.cap) ≤ (s.slot a).mag + (s.slot b).mag →
          Fails (.aadd d a b) s .capacity)
        ∧ (s.params.wf = true → s.wf a = true → s.wf b = true →
          (s.slot b).len.toNat ≤ (s.slot a).len.toNat →
          (s.slot a).mag + (s.slot b).mag < 2 ^ (32 * s.params.cap) →
          ∃ t, exec (.aadd d a b) s = .next t
            ∧ s.WroteSlot t d ((s.slot a).mag + (s.slot b).mag))
        ∧ (s.wf a = true → s.wf b = true → (s.slot a).mag < (s.slot b).mag →
          Fails (.asub d a b) s .magnitude)
        ∧ (s.params.wf = true → s.wf a = true → s.wf b = true →
          (s.slot b).mag ≤ (s.slot a).mag →
          ∃ t, exec (.asub d a b) s = .next t
            ∧ s.WroteSlot t d ((s.slot a).mag - (s.slot b).mag))

/-- R192, R193: ADD and SUB write the signed sum and difference or raise CAPACITY, and the source's procedures
by cases on the signs compute them. -/
def Obligations.AddAndSubtractSigned : Prop :=
  (∀ d a b : Idx, decode (commandWord 0x32 (fieldOfIdx d) (fieldOfIdx a) (fieldOfIdx b) 0 0)
        = .ok (.add d a b)
      ∧ decode (commandWord 0x33 (fieldOfIdx d) (fieldOfIdx a) (fieldOfIdx b) 0 0)
        = .ok (.sub d a b))
    ∧ ∀ (d a b : Idx) (s : State),
      (s.wf a = false ∨ s.wf b = false →
          Fails (.add d a b) s .malformed ∧ Fails (.sub d a b) s .malformed)
        ∧ (s.wf a = true → s.wf b = true →
          (2 ^ (32 * s.params.cap) ≤ ((s.slot a).sval + (s.slot b).sval).natAbs →
            Fails (.add d a b) s .capacity)
          ∧ (2 ^ (32 * s.params.cap) ≤ ((s.slot a).sval - (s.slot b).sval).natAbs →
            Fails (.sub d a b) s .capacity)
          ∧ addBySigns (s.slot a) (s.slot b) = (s.slot a).sval + (s.slot b).sval
          ∧ subBySigns (s.slot a) (s.slot b) = (s.slot a).sval - (s.slot b).sval)
        ∧ (s.params.wf = true → s.wf a = true → s.wf b = true →
          ((s.slot a).sval + (s.slot b).sval).natAbs < 2 ^ (32 * s.params.cap) →
          ∃ t, exec (.add d a b) s = .next t
            ∧ s.WroteSlot t d ((s.slot a).sval + (s.slot b).sval))
        ∧ (s.params.wf = true → s.wf a = true → s.wf b = true →
          ((s.slot a).sval - (s.slot b).sval).natAbs < 2 ^ (32 * s.params.cap) →
          ∃ t, exec (.sub d a b) s = .next t
            ∧ s.WroteSlot t d ((s.slot a).sval - (s.slot b).sval))

/-- R194, R195: the carry chain computes the sum, in one word more than its longer operand, and the borrow
chain the difference. -/
def Obligations.CarryAndBorrowChains : Prop :=
  ∀ as bs : List Word, bs.length ≤ as.length →
    (natOfWords (carryChain as bs 0) = natOfWords as + natOfWords bs
        ∧ (carryChain as bs 0).length = as.length + 1)
      ∧ (natOfWords bs ≤ natOfWords as →
        natOfWords (borrowChain as bs 0) = natOfWords as - natOfWords bs
          ∧ (borrowChain as bs 0).length = as.length)

/-! ### Multiplier (43_multiplier.md) -/

/-- R220, R221: MUL and KMUL write the exact signed product, the same one, or raise CAPACITY. -/
def Obligations.SignedProduct : Prop :=
  (∀ d a b : Idx, decode (commandWord 0x40 (fieldOfIdx d) (fieldOfIdx a) (fieldOfIdx b) 0 0)
        = .ok (.mul d a b)
      ∧ decode (commandWord 0x41 (fieldOfIdx d) (fieldOfIdx a) (fieldOfIdx b) 0 0)
        = .ok (.kmul d a b))
    ∧ ∀ (d a b : Idx) (s : State),
      (s.wf a = false ∨ s.wf b = false →
          Fails (.mul d a b) s .malformed ∧ Fails (.kmul d a b) s .malformed)
        ∧ (s.wf a = true → s.wf b = true →
          2 ^ (32 * s.params.cap) ≤ (s.slot a).mag * (s.slot b).mag →
          Fails (.mul d a b) s .capacity ∧ Fails (.kmul d a b) s .capacity)
        ∧ (s.params.wf = true → s.wf a = true → s.wf b = true →
          (s.slot a).mag * (s.slot b).mag < 2 ^ (32 * s.params.cap) →
          ∃ t, exec (.mul d a b) s = .next t ∧ exec (.kmul d a b) s = .next t
            ∧ s.WroteSlot t d ((s.slot a).sval * (s.slot b).sval))

/-- R222: SQR writes the square, which is the value `MUL sD, sA, sA` writes, or raises CAPACITY. -/
def Obligations.SquareIsTheProductWithItself : Prop :=
  (∀ d a : Idx, decode (commandWord 0x42 (fieldOfIdx d) (fieldOfIdx a) 0 0 0) = .ok (.sqr d a))
    ∧ ∀ (d a : Idx) (s : State),
      (s.wf a = false → Fails (.sqr d a) s .malformed)
        ∧ (s.wf a = true → 2 ^ (32 * s.params.cap) ≤ (s.slot a).mag * (s.slot a).mag →
          Fails (.sqr d a) s .capacity)
        ∧ (s.params.wf = true → s.wf a = true →
          (s.slot a).mag * (s.slot a).mag < 2 ^ (32 * s.params.cap) →
          ∃ t, exec (.sqr d a) s = .next t ∧ exec (.mul d a a) s = .next t
            ∧ s.WroteSlot t d ((s.slot a).mag * (s.slot a).mag))

/-- R223, R224, R225: the schoolbook grid, the Karatsuba tree and the squarer compute the exact product. -/
def Obligations.MultiplierAlgorithmsAreExact : Prop :=
  (∀ as bs : List Word,
      natOfWords (schoolbook as bs) = natOfWords as * natOfWords bs
        ∧ (schoolbook as bs).length = as.length + bs.length)
    ∧ (∀ u v : Nat, karatsuba u v = u * v)
    ∧ (∀ as : List Word, squarer as = natOfWords as * natOfWords as)

/-! ### Barrett (44_barrett.md) -/

/-- R250, R251: BRED writes the closed form for every admitted operand, and raises MODULUS outside its range;
the corrective loop computes the closed form's remainder. -/
def Obligations.BarrettClosedForm : Prop :=
  (∀ d a b c : Idx,
      decode (commandWord 0x50 (fieldOfIdx d) (fieldOfIdx a) (fieldOfIdx b) (fieldOfIdx c) 0)
        = .ok (.bred d a b c))
    ∧ (∀ (d a b c : Idx) (s : State),
      (s.wf a = false ∨ s.wf b = false ∨ s.wf c = false → Fails (.bred d a b c) s .malformed)
        ∧ (s.wf a = true → s.wf b = true → s.wf c = true →
          (s.slot a).sign = 2 ∨ (s.slot b).sign ≠ 1 ∨ (s.slot c).sign = 2
            ∨ 2 * (s.slot b).len.toNat < (s.slot a).len.toNat → Fails (.bred d a b c) s .modulus)
        ∧ ∀ n : Nat, n = (s.slot b).len.toNat → s.params.wf = true → s.wf a = true →
          s.wf b = true → s.wf c = true → (s.slot a).sign ≠ 2 → (s.slot b).sign = 1 →
          (s.slot c).sign ≠ 2 → (s.slot a).len.toNat ≤ 2 * n →
          ∃ t, exec (.bred d a b c) s = .next t
            ∧ s.WroteSlot t d
              (((((s.slot a).mag % 2 ^ (32 * (n + 1)) : Nat) : Int)
                  - (((s.slot a).mag / 2 ^ (32 * (n - 1)) * (s.slot c).mag / 2 ^ (32 * (n + 1))
                    * (s.slot b).mag % 2 ^ (32 * (n + 1)) : Nat) : Int))
                % 2 ^ (32 * (n + 1)) % (s.slot b).mag))
    ∧ ∀ m r : Nat, 0 < m → subtractLoop m (r / m) r = r % m

/-- R252: with `T = floor(W^(2n) / N)` BRED writes `Z mod N`, and the corrective loop runs at most twice. -/
def Obligations.BarrettReducesWithTheRightConstant : Prop :=
  ∀ (d a b c : Idx) (s : State) (n : Nat), n = (s.slot b).len.toNat → s.params.wf = true →
    s.wf a = true → s.wf b = true → s.wf c = true → (s.slot a).sign ≠ 2 → (s.slot b).sign = 1 →
    (s.slot a).len.toNat ≤ 2 * n → (s.slot c).mag = 2 ^ (32 * (2 * n)) / (s.slot b).mag →
    (s.slot c).sign ≠ 2 →
      (∃ t, exec (.bred d a b c) s = .next t
        ∧ s.WroteSlot t d (((s.slot a).mag % (s.slot b).mag : Nat) : Int))
      ∧ subtractLoop (s.slot b).mag 2
          (barrettEstimate n (s.slot a).mag (s.slot b).mag (s.slot c).mag)
        = (s.slot a).mag % (s.slot b).mag

/-- R253, R283, R284: MONT, GDIV and GSQR always raise UNIMPL, whatever their ignored bits. -/
def Obligations.UnimplementedCommandsAreRejected : Prop :=
  (∀ g : BitVec 24, decode (unimplWord 0x51 g) = .ok (.mont g)
      ∧ decode (unimplWord 0x66 g) = .ok (.gdiv g) ∧ decode (unimplWord 0x67 g) = .ok (.gsqr g))
    ∧ ∀ (g : BitVec 24) (s : State),
      (∃ t, exec (.mont g) s = .next t ∧ s.FailedWith t .unimpl)
        ∧ (∃ t, exec (.gdiv g) s = .next t ∧ s.FailedWith t .unimpl)
        ∧ (∃ t, exec (.gsqr g) s = .next t ∧ s.FailedWith t .unimpl)

/-! ### GF(2^n) (45_gf2n.md) -/

/-- R270: GDEG writes to RESULT the degree of the polynomial, 0 for the zero polynomial. -/
def Obligations.PolynomialDegree : Prop :=
  (∀ a : Idx, decode (commandWord 0x60 0 (fieldOfIdx a) 0 0 0) = .ok (.gdeg a))
    ∧ ∀ (a : Idx) (s : State),
      (s.wfg a = false → Fails (.gdeg a) s .malformed)
        ∧ (s.wfg a = true → ∃ (t : State) (r : Word), exec (.gdeg a) s = .next t
          ∧ s.WroteResult t r ∧ r.toNat = deg (s.slot a).mag
          ∧ ((s.slot a).mag ≠ 0 → 2 ^ r.toNat ≤ (s.slot a).mag
            ∧ (s.slot a).mag < 2 ^ (r.toNat + 1))
          ∧ ((s.slot a).mag = 0 → r = 0))

/-- R271, R272: GRSH and GLSH write the shifted polynomial; GLSH is exact or raises CAPACITY. -/
def Obligations.PolynomialShifts : Prop :=
  (∀ (d a : Idx) (k : BitVec 16),
      decode (shiftWord 0x61 (fieldOfIdx d) (fieldOfIdx a) k) = .ok (.grsh d a k)
        ∧ decode (shiftWord 0x62 (fieldOfIdx d) (fieldOfIdx a) k) = .ok (.glsh d a k))
    ∧ ∀ (d a : Idx) (k : BitVec 16) (s : State),
      (s.wfg a = false → Fails (.grsh d a k) s .malformed ∧ Fails (.glsh d a k) s .malformed)
        ∧ (s.params.wf = true → s.wfg a = true → ∃ t, exec (.grsh d a k) s = .next t
          ∧ s.WroteSlot t d (((s.slot a).mag / 2 ^ k.toNat : Nat) : Int))
        ∧ (s.wfg a = true → 2 ^ (32 * s.params.cap) ≤ (s.slot a).mag * 2 ^ k.toNat →
          Fails (.glsh d a k) s .capacity)
        ∧ (s.params.wf = true → s.wfg a = true →
          (s.slot a).mag * 2 ^ k.toNat < 2 ^ (32 * s.params.cap) →
          ∃ t, exec (.glsh d a k) s = .next t
            ∧ s.WroteSlot t d (((s.slot a).mag * 2 ^ k.toNat : Nat) : Int))

/-- R273: GADD writes the exclusive or, bit by bit; it never raises CAPACITY. -/
def Obligations.PolynomialSum : Prop :=
  (∀ d a b : Idx, decode (commandWord 0x63 (fieldOfIdx d) (fieldOfIdx a) (fieldOfIdx b) 0 0)
      = .ok (.gadd d a b))
    ∧ ∀ (d a b : Idx) (s : State),
      (s.wfg a = false ∨ s.wfg b = false → Fails (.gadd d a b) s .malformed)
        ∧ (s.params.wf = true → s.wfg a = true → s.wfg b = true →
          ∃ (t : State) (p : Nat), exec (.gadd d a b) s = .next t ∧ s.WroteSlot t d p
            ∧ (∀ i, p.testBit i = ((s.slot a).mag.testBit i ^^ (s.slot b).mag.testBit i))
            ∧ (t.slot d).len.toNat ≤ max (s.slot a).len.toNat (s.slot b).len.toNat)

/-- R18: the remainder of a polynomial by a modulus of degree at least 1 exists and is unique, and the
reduction loop of R274 finds it. -/
def Obligations.PolynomialRemainderIsUnique : Prop :=
  ∀ a m : Nat, 2 ≤ m →
    (pmod a m = 0 ∨ deg (pmod a m) < deg m) ∧ (∃ q, a ^^^ pmod a m = clmul q m)
      ∧ ∀ r : Nat, (r = 0 ∨ deg r < deg m) → (∃ q, a ^^^ r = clmul q m) → r = pmod a m

/-- R274: GRED writes the remainder of the polynomial by `Irr`, of smaller degree and congruent to it, and
raises MODULUS for an `Irr` of degree 0. -/
def Obligations.PolynomialReduction : Prop :=
  (∀ d a c : Idx, decode (commandWord 0x64 (fieldOfIdx d) (fieldOfIdx a) 0 (fieldOfIdx c) 0)
      = .ok (.gred d a c))
    ∧ ∀ (d a c : Idx) (s : State),
      (s.wfg a = false ∨ s.wfg c = false → Fails (.gred d a c) s .malformed)
        ∧ (s.wfg a = true → s.wfg c = true → (s.slot c).mag < 2 → Fails (.gred d a c) s .modulus)
        ∧ (s.params.wf = true → s.wfg a = true → s.wfg c = true → 2 ≤ (s.slot c).mag →
          ∃ (t : State) (r : Nat), exec (.gred d a c) s = .next t ∧ s.WroteSlot t d r
            ∧ deg r < deg (s.slot c).mag ∧ ∃ q, (s.slot a).mag ^^^ r = clmul q (s.slot c).mag)

/-- R275: GMUL writes the remainder of the carry-less product by `Irr`, whatever the degrees of its operands;
MODULUS for an `Irr` of degree 0. -/
def Obligations.PolynomialProductIsReduced : Prop :=
  (∀ d a b c : Idx,
      decode (commandWord 0x65 (fieldOfIdx d) (fieldOfIdx a) (fieldOfIdx b) (fieldOfIdx c) 0)
        = .ok (.gmul d a b c))
    ∧ ∀ (d a b c : Idx) (s : State),
      (s.wfg a = false ∨ s.wfg b = false ∨ s.wfg c = false → Fails (.gmul d a b c) s .malformed)
        ∧ (s.wfg a = true → s.wfg b = true → s.wfg c = true → (s.slot c).mag < 2 →
          Fails (.gmul d a b c) s .modulus)
        ∧ (s.params.wf = true → s.wfg a = true → s.wfg b = true → s.wfg c = true →
          2 ≤ (s.slot c).mag → ∃ t, exec (.gmul d a b c) s = .next t
            ∧ s.WroteSlot t d
              ((pmod (clmul (s.slot a).mag (s.slot b).mag) (s.slot c).mag : Nat) : Int))

/-! ### Pseudo-commands (30_encoding.md R109) -/

/-- R109: each pseudo-command's expansion has the effect it names. -/
def Obligations.PseudoCommandsHaveTheirEffects : Prop :=
  ∀ (d a : Idx) (s : State), s.params.wf = true →
    (s.wf a = true → ∃ t, execSeq (Pseudo.mov d a).expand s = .next t
        ∧ s.WroteSlot t d (s.slot a).sval)
      ∧ (s.wfg a = true → ∃ t, execSeq (Pseudo.gmov d a).expand s = .next t
        ∧ s.WroteSlot t d (s.slot a).mag)
      ∧ (s.wf d = true → ∃ t, execSeq (Pseudo.clr d).expand s = .next t ∧ s.WroteSlot t d 0)
      ∧ (s.wf d = false → ∃ t, execSeq (Pseudo.clr d).expand s = .next t
        ∧ s.FailedWith t .malformed)
      ∧ (d ≠ a → s.wf a = true → ∃ t, execSeq (Pseudo.neg d a).expand s = .next t
        ∧ s.WroteSlot t d (-(s.slot a).sval))
      ∧ (s.wfg d = true → ∃ t, execSeq (Pseudo.gclr d).expand s = .next t ∧ s.WroteSlot t d 0)
end

