-- ==== Sys2Proof/Laws/Words.lean ====
section
/-! SUPPORT. Naturals and their words: `natOfWords`, `wordsOfNat` and `nwords` (00_scope.md R14). -/

namespace Sys2Proof.Machine

theorem natOfWords_nil : natOfWords [] = 0 := rfl

theorem natOfWords_cons (w : Word) (ws : List Word) :
    natOfWords (w :: ws) = w.toNat + 2 ^ 32 * natOfWords ws := rfl

theorem natOfWords_lt (ws : List Word) : natOfWords ws < 2 ^ (32 * ws.length) := by
  induction ws with
  | nil => simp [natOfWords]
  | cons w ws ih =>
    have hw := w.isLt
    rw [natOfWords_cons, List.length_cons, Nat.mul_succ, Nat.pow_add]
    have : natOfWords ws + 1 ≤ 2 ^ (32 * ws.length) := ih
    nlinarith

theorem natOfWords_append (as bs : List Word) :
    natOfWords (as ++ bs) = natOfWords as + 2 ^ (32 * as.length) * natOfWords bs := by
  induction as with
  | nil => simp [natOfWords]
  | cons a as ih =>
    rw [List.cons_append, natOfWords_cons, natOfWords_cons, ih, List.length_cons, Nat.mul_succ,
      Nat.pow_add]
    ring

theorem natOfWords_replicate_zero (n : Nat) : natOfWords (List.replicate n 0) = 0 := by
  induction n with
  | zero => rfl
  | succ n ih =>
    rw [List.replicate_succ, natOfWords_cons, ih]
    rfl

theorem wordsOfNat_length (n v : Nat) : (wordsOfNat n v).length = n := by
  induction n generalizing v with
  | zero => rfl
  | succ n ih => simp [wordsOfNat, ih]

theorem natOfWords_wordsOfNat (n v : Nat) :
    natOfWords (wordsOfNat n v) = v % 2 ^ (32 * n) := by
  induction n generalizing v with
  | zero => simp [wordsOfNat, natOfWords, Nat.mod_one]
  | succ n ih =>
    rw [wordsOfNat, natOfWords_cons, ih, BitVec.toNat_ofNat, Nat.mul_succ, Nat.add_comm (32 * n),
      Nat.pow_add, Nat.mod_mul]

theorem natOfWords_wordsOfNat_of_lt {n v : Nat} (h : v < 2 ^ (32 * n)) :
    natOfWords (wordsOfNat n v) = v := by
  rw [natOfWords_wordsOfNat, Nat.mod_eq_of_lt h]

theorem wordsOfNat_natOfWords (ws : List Word) : wordsOfNat ws.length (natOfWords ws) = ws := by
  induction ws with
  | nil => rfl
  | cons w ws ih =>
    have hw := w.isLt
    rw [List.length_cons, wordsOfNat, natOfWords_cons]
    congr 1
    · apply BitVec.eq_of_toNat_eq
      rw [BitVec.toNat_ofNat]
      omega
    · rw [show (w.toNat + 2 ^ 32 * natOfWords ws) / 2 ^ 32 = natOfWords ws by omega, ih]

theorem wordsOfNat_take (n k v : Nat) : (wordsOfNat n v).take k = wordsOfNat (min k n) v := by
  induction n generalizing k v with
  | zero => simp [wordsOfNat]
  | succ n ih =>
    cases k with
    | zero => simp [wordsOfNat]
    | succ k => simp [wordsOfNat, ih, Nat.succ_min_succ]

theorem wordsOfNat_getD (n v i : Nat) :
    (wordsOfNat n v).getD i 0 = if i < n then BitVec.ofNat 32 (v / 2 ^ (32 * i)) else 0 := by
  induction n generalizing i v with
  | zero => simp [wordsOfNat]
  | succ n ih =>
    cases i with
    | zero => simp [wordsOfNat]
    | succ i =>
      rw [wordsOfNat, List.getD_cons_succ, ih, Nat.div_div_eq_div_mul, ← Nat.pow_add,
        show 32 + 32 * i = 32 * (i + 1) by ring]
      simp

/-- R14: `nwords(v)` is the least `k` with `v < 2^(32*k)`. -/
theorem nwords_le_iff (v k : Nat) : nwords v ≤ k ↔ v < 2 ^ (32 * k) := by
  unfold nwords
  split
  · next h => subst h; simp
  · next h =>
    rw [← Nat.log2_lt h]
    omega

theorem lt_nwords_iff (v k : Nat) : k < nwords v ↔ 2 ^ (32 * k) ≤ v := by
  have := nwords_le_iff v k
  omega

theorem lt_pow_nwords (v : Nat) : v < 2 ^ (32 * nwords v) := (nwords_le_iff v _).1 le_rfl

theorem nwords_zero : nwords 0 = 0 := rfl

theorem nwords_eq_zero {v : Nat} : nwords v = 0 ↔ v = 0 := by
  constructor
  · intro h
    have := lt_pow_nwords v
    rw [h] at this
    omega
  · rintro rfl
    rfl

theorem pow_le_of_nwords {v : Nat} (h : v ≠ 0) : 2 ^ (32 * (nwords v - 1)) ≤ v := by
  rw [← lt_nwords_iff]
  have : nwords v ≠ 0 := fun e => h (nwords_eq_zero.1 e)
  omega

/-- A number between two powers of the radix has that many words. -/
theorem nwords_eq_of_bounds {v n : Nat} (hn : 0 < n) (hlo : 2 ^ (32 * (n - 1)) ≤ v)
    (hhi : v < 2 ^ (32 * n)) : nwords v = n := by
  have h1 := (nwords_le_iff v n).2 hhi
  have h2 := (lt_nwords_iff v (n - 1)).2 hlo
  omega

/-- The top word of a nonzero number is not zero. -/
theorem topWord_ne_zero {v : Nat} (h : v ≠ 0) :
    BitVec.ofNat 32 (v / 2 ^ (32 * (nwords v - 1))) ≠ 0 := by
  have hlo := pow_le_of_nwords h
  have hhi := lt_pow_nwords v
  have hn : nwords v ≠ 0 := fun e => h (nwords_eq_zero.1 e)
  have hpos : 0 < 2 ^ (32 * (nwords v - 1)) := Nat.pow_pos (by norm_num)
  have h1 : 1 ≤ v / 2 ^ (32 * (nwords v - 1)) := (Nat.le_div_iff_mul_le hpos).2 (by omega)
  have h2 : v / 2 ^ (32 * (nwords v - 1)) < 2 ^ 32 := by
    rw [Nat.div_lt_iff_lt_mul hpos, ← Nat.pow_add]
    rw [show 32 + 32 * (nwords v - 1) = 32 * nwords v by omega]
    exact hhi
  intro e
  have := congrArg BitVec.toNat e
  rw [BitVec.toNat_ofNat, Nat.mod_eq_of_lt h2] at this
  simp at this
  omega

/-- The words of a number beyond its word count are zero. -/
theorem div_eq_zero_of_nwords_le {v i : Nat} (h : nwords v ≤ i) : v / 2 ^ (32 * i) = 0 :=
  Nat.div_eq_of_lt ((nwords_le_iff v i).1 h)

theorem natOfWords_take_add_drop (ws : List Word) (k : Nat) (h : k ≤ ws.length) :
    natOfWords ws = natOfWords (ws.take k) + 2 ^ (32 * k) * natOfWords (ws.drop k) := by
  conv_lhs => rw [← List.take_append_drop k ws]
  rw [natOfWords_append, List.length_take, Nat.min_eq_left h]

end Sys2Proof.Machine
end

