-- ==== Sys2Proof/Laws/Slots.lean ====
section
/-! SUPPORT. Slots: their value and well-formedness, and what `WriteInt`, `WritePoly` and NORM leave
(00_scope.md R14, R15, R17; 41_normalize_compare_shift.md R161). -/

namespace Sys2Proof.Machine

/-! ### Well-formedness, as propositions -/

theorem Slot.topNonzero_iff (sl : Slot) :
    sl.topNonzero = true ↔ (sl.len ≠ 0 → sl.digit (sl.len.toNat - 1) ≠ 0) := by
  simp only [Slot.topNonzero, Bool.or_eq_true, beq_iff_eq, bne_iff_ne]
  tauto

theorem Slot.wf_iff (cap : Nat) (sl : Slot) :
    sl.wf cap = true ↔ sl.len.toNat ≤ cap ∧ sl.sign ≠ signInvalid
      ∧ (sl.len = 0 ↔ sl.sign = signZero) ∧ (sl.len ≠ 0 → sl.digit (sl.len.toNat - 1) ≠ 0) := by
  rw [Slot.wf, Bool.and_eq_true, Bool.and_eq_true, Bool.and_eq_true, Slot.topNonzero_iff,
    decide_eq_true_iff, bne_iff_ne, beq_iff_eq, Bool.eq_iff_iff, beq_iff_eq, beq_iff_eq]
  tauto

theorem Slot.wfg_iff (cap : Nat) (sl : Slot) :
    sl.wfg cap = true ↔ sl.len.toNat ≤ cap ∧ (sl.len ≠ 0 → sl.digit (sl.len.toNat - 1) ≠ 0) := by
  rw [Slot.wfg, Bool.and_eq_true, Slot.topNonzero_iff, decide_eq_true_iff]

/-- A well-formed integer slot is a well-formed polynomial slot. -/
theorem Slot.wfg_of_wf {cap : Nat} {sl : Slot} (h : sl.wf cap = true) : sl.wfg cap = true := by
  rw [Slot.wf_iff] at h
  rw [Slot.wfg_iff]
  exact ⟨h.1, h.2.2.2⟩

theorem Slot.len_toNat_eq_zero (sl : Slot) : sl.len.toNat = 0 ↔ sl.len = 0 := by
  constructor
  · intro h
    exact BitVec.eq_of_toNat_eq h
  · intro h
    rw [h]
    rfl

/-- A slot whose top word is there has all its words there. -/
theorem Slot.len_le_length {sl : Slot} (h : sl.len ≠ 0 → sl.digit (sl.len.toNat - 1) ≠ 0) :
    sl.len.toNat ≤ sl.dig.length := by
  by_cases h0 : sl.len = 0
  · rw [h0]
    simp
  · by_contra hlt
    apply h h0
    rw [Slot.digit, List.getD_eq_default]
    have := (Slot.len_toNat_eq_zero sl).not.2 h0
    omega

/-! ### The magnitude -/

theorem Slot.mag_of_len_zero {sl : Slot} (h : sl.len = 0) : sl.mag = 0 := by
  simp [Slot.mag, h, natOfWords]

theorem Slot.mag_lt (sl : Slot) : sl.mag < 2 ^ (32 * sl.len.toNat) := by
  refine lt_of_lt_of_le (natOfWords_lt _) (Nat.pow_le_pow_right (by norm_num) ?_)
  rw [List.length_take]
  omega

/-- The magnitude of a slot is its top word and the words below. -/
theorem Slot.mag_eq_top {sl : Slot} (h : sl.len ≠ 0) (hlen : sl.len.toNat ≤ sl.dig.length) :
    sl.mag = natOfWords (sl.dig.take (sl.len.toNat - 1))
      + 2 ^ (32 * (sl.len.toNat - 1)) * (sl.digit (sl.len.toNat - 1)).toNat := by
  have h0 := (Slot.len_toNat_eq_zero sl).not.2 h
  obtain ⟨n, hn⟩ : ∃ n, sl.len.toNat = n + 1 := ⟨sl.len.toNat - 1, by omega⟩
  rw [Slot.mag, hn, Nat.add_sub_cancel, List.take_add_one, natOfWords_append, List.length_take,
    Nat.min_eq_left (by omega), Slot.digit]
  have hl : n < sl.dig.length := by omega
  rw [List.getElem?_eq_getElem hl, Option.toList_some, List.getD_eq_getElem _ _ hl, natOfWords_cons,
    natOfWords_nil]
  simp

/-- R17, R162: a polynomial or integer operand of `n > 0` words is at least `2^(32*(n-1))`. -/
theorem Slot.pow_le_mag {cap : Nat} {sl : Slot} (hwf : sl.wfg cap = true) (h : sl.len ≠ 0) :
    2 ^ (32 * (sl.len.toNat - 1)) ≤ sl.mag := by
  rw [Slot.wfg_iff] at hwf
  rw [Slot.mag_eq_top h (Slot.len_le_length hwf.2)]
  have : (sl.digit (sl.len.toNat - 1)).toNat ≠ 0 := fun e =>
    hwf.2 h (BitVec.eq_of_toNat_eq (by simpa using e))
  have : 1 ≤ (sl.digit (sl.len.toNat - 1)).toNat := by omega
  nlinarith [Nat.pow_pos (n := 32 * (sl.len.toNat - 1)) (show 0 < 2 by norm_num)]

theorem Slot.mag_eq_zero_iff {cap : Nat} {sl : Slot} (hwf : sl.wfg cap = true) :
    sl.mag = 0 ↔ sl.len = 0 := by
  constructor
  · intro h
    by_contra h0
    have := Slot.pow_le_mag hwf h0
    have := Nat.pow_pos (n := 32 * (sl.len.toNat - 1)) (show 0 < 2 by norm_num)
    omega
  · exact Slot.mag_of_len_zero

/-- The `len` of a well-formed operand is the word count of its magnitude. -/
theorem Slot.nwords_mag {cap : Nat} {sl : Slot} (hwf : sl.wfg cap = true) :
    nwords sl.mag = sl.len.toNat := by
  by_cases h : sl.len = 0
  · rw [Slot.mag_of_len_zero h, h]
    rfl
  · have := (Slot.len_toNat_eq_zero sl).not.2 h
    exact nwords_eq_of_bounds (by omega) (Slot.pow_le_mag hwf h) sl.mag_lt

theorem Slot.mag_lt_cap {cap : Nat} {sl : Slot} (hwf : sl.wfg cap = true) :
    sl.mag < 2 ^ (32 * cap) := by
  rw [← nwords_le_iff, Slot.nwords_mag hwf]
  exact ((Slot.wfg_iff cap sl).1 hwf).1

/-! ### The signed value -/

theorem Slot.sign_cases (sl : Slot) :
    sl.sign = signZero ∨ sl.sign = signPos ∨ sl.sign = signNeg ∨ sl.sign = signInvalid := by
  have : ∀ v : BitVec 2, v = signZero ∨ v = signPos ∨ v = signNeg ∨ v = signInvalid := by decide
  exact this sl.sign

/-- R14: the absolute value of a well-formed integer operand is its magnitude. -/
theorem Slot.natAbs_sval {cap : Nat} {sl : Slot} (hwf : sl.wf cap = true) :
    sl.sval.natAbs = sl.mag := by
  have h := (Slot.wf_iff cap sl).1 hwf
  rcases sl.sign_cases with hs | hs | hs | hs
  · rw [Slot.mag_of_len_zero (h.2.2.1.2 hs)]
    simp [Slot.sval, hs, signZero, signPos, signNeg]
  · simp [Slot.sval, hs]
  · simp [Slot.sval, hs, signNeg, signPos]
  · exact absurd hs h.2.1

/-! ### What a write leaves (R15) -/

theorem intSlot_dig_length (cap : Nat) (v : Int) : (intSlot cap v).dig.length = cap :=
  wordsOfNat_length cap _

theorem intSlot_digit (cap : Nat) (v : Int) (i : Nat) :
    (intSlot cap v).digit i
      = if i < cap then BitVec.ofNat 32 (v.natAbs / 2 ^ (32 * i)) else 0 :=
  wordsOfNat_getD cap v.natAbs i

theorem intSlot_len_toNat {cap : Nat} {v : Int} (hcap : cap < 2 ^ 16)
    (h : v.natAbs < 2 ^ (32 * cap)) : (intSlot cap v).len.toNat = nwords v.natAbs := by
  have := (nwords_le_iff v.natAbs cap).2 h
  rw [intSlot, BitVec.toNat_ofNat, Nat.mod_eq_of_lt (by omega)]

theorem intSlot_mag {cap : Nat} {v : Int} (hcap : cap < 2 ^ 16) (h : v.natAbs < 2 ^ (32 * cap)) :
    (intSlot cap v).mag = v.natAbs := by
  have hle := (nwords_le_iff v.natAbs cap).2 h
  rw [Slot.mag, intSlot_len_toNat hcap h, intSlot, wordsOfNat_take, Nat.min_eq_left hle,
    natOfWords_wordsOfNat_of_lt (lt_pow_nwords _)]

theorem signOfInt_eq_zero {v : Int} : signOfInt v = signZero ↔ v = 0 := by
  unfold signOfInt
  split
  · next h => simp [h]
  · next h =>
    split <;> simp [h, signPos, signNeg, signZero]

/-- R15: the value of the slot `WriteInt` writes. -/
theorem intSlot_sval {cap : Nat} {v : Int} (hcap : cap < 2 ^ 16) (h : v.natAbs < 2 ^ (32 * cap)) :
    (intSlot cap v).sval = v := by
  rw [Slot.sval, intSlot_mag hcap h]
  show (if signOfInt v = signPos then (v.natAbs : Int) else
    if signOfInt v = signNeg then -(v.natAbs : Int) else 0) = v
  rcases lt_trichotomy v 0 with h' | h' | h'
  · have hs : signOfInt v = signNeg := by
      rw [signOfInt, if_neg h'.ne, if_neg (not_lt.2 h'.le)]
    rw [hs, if_neg (by decide), if_pos rfl]
    omega
  · subst h'
    rfl
  · have hs : signOfInt v = signPos := by
      rw [signOfInt, if_neg h'.ne', if_pos h']
    rw [hs, if_pos rfl]
    omega

/-- R15: "The result of either is normalised in the sense of rule R17". -/
theorem intSlot_wf {cap : Nat} {v : Int} (hcap : cap < 2 ^ 16) (h : v.natAbs < 2 ^ (32 * cap)) :
    (intSlot cap v).wf cap = true := by
  have hle := (nwords_le_iff v.natAbs cap).2 h
  have hlen := intSlot_len_toNat hcap h
  have hzero : (intSlot cap v).len = 0 ↔ v = 0 := by
    rw [← Slot.len_toNat_eq_zero, hlen, nwords_eq_zero]
    omega
  rw [Slot.wf_iff]
  refine ⟨by omega, ?_, ?_, ?_⟩
  · show signOfInt v ≠ signInvalid
    unfold signOfInt
    split
    · decide
    · split <;> decide
  · rw [hzero]
    exact signOfInt_eq_zero.symm
  · intro h0
    have hv : v.natAbs ≠ 0 := by
      rw [Ne, hzero] at h0
      omega
    have hn : nwords v.natAbs ≠ 0 := fun e => hv (nwords_eq_zero.1 e)
    rw [intSlot_digit, hlen, if_pos (by omega)]
    exact topWord_ne_zero hv

/-- R15, R36: what `WriteInt` leaves in the slot. -/
theorem intSlot_holdsInt {cap : Nat} {v : Int} (hcap : cap < 2 ^ 16)
    (h : v.natAbs < 2 ^ (32 * cap)) : (intSlot cap v).HoldsInt cap v := by
  refine ⟨intSlot_wf hcap h, intSlot_sval hcap h, intSlot_dig_length cap v, ?_⟩
  intro i hi
  rw [intSlot_len_toNat hcap h] at hi
  rw [intSlot_digit, div_eq_zero_of_nwords_le hi]
  simp

theorem polySlot_holdsInt {cap p : Nat} (hcap : cap < 2 ^ 16) (h : p < 2 ^ (32 * cap)) :
    (polySlot cap p).HoldsInt cap p :=
  intSlot_holdsInt hcap (by simpa using h)

/-- A slot that holds a value is determined by it. -/
theorem Slot.HoldsInt.natAbs_lt {cap : Nat} {sl : Slot} {v : Int} (h : sl.HoldsInt cap v) :
    v.natAbs < 2 ^ (32 * cap) := by
  rw [← h.2.1, Slot.natAbs_sval h.1]
  exact Slot.mag_lt_cap (Slot.wfg_of_wf h.1)

theorem params_wf_iff (p : Config.Params) :
    p.wf = true ↔ 1 ≤ p.cap ∧ p.cap ≤ 4096 := by
  rw [Config.Params.wf, Bool.and_eq_true, decide_eq_true_iff, decide_eq_true_iff]
  rfl

theorem cap_lt_of_wf {p : Config.Params} (h : p.wf = true) : p.cap < 2 ^ 16 := by
  have := (params_wf_iff p).1 h
  omega

/-! ### NORM (R161) -/

theorem stripZeros_le (sl : Slot) (n : Nat) : stripZeros sl n ≤ n := by
  induction n with
  | zero => exact le_rfl
  | succ n ih =>
    rw [stripZeros]
    split
    · omega
    · exact le_rfl

/-- The loop of NORM stops at a nonzero word, unless no word is left. -/
theorem stripZeros_top (sl : Slot) (n : Nat) (h : stripZeros sl n ≠ 0) :
    sl.digit (stripZeros sl n - 1) ≠ 0 := by
  induction n with
  | zero => exact absurd rfl h
  | succ n ih =>
    rw [stripZeros] at h ⊢
    split
    · next h0 =>
      rw [if_pos h0] at h
      exact ih h
    · next h0 => simpa using h0

/-- The words NORM strips are zero. -/
theorem stripZeros_zero_above (sl : Slot) (n i : Nat) (h1 : stripZeros sl n ≤ i) (h2 : i < n) :
    sl.digit i = 0 := by
  induction n with
  | zero => omega
  | succ n ih =>
    rw [stripZeros] at h1
    split at h1
    · next h0 =>
      by_cases hi : i = n
      · rw [hi, h0]
      · exact ih h1 (by omega)
    · omega

theorem stripZeros_le_length (sl : Slot) (n : Nat) : stripZeros sl n ≤ sl.dig.length := by
  by_contra hlt
  have h0 : stripZeros sl n ≠ 0 := by omega
  apply stripZeros_top sl n h0
  rw [Slot.digit, List.getD_eq_default]
  omega

theorem normalised_len_toNat {cap : Nat} {sl : Slot} :
    (sl.normalised cap).len.toNat = stripZeros sl sl.len.toNat := by
  have := stripZeros_le sl sl.len.toNat
  rw [Slot.normalised, BitVec.toNat_ofNat, Nat.mod_eq_of_lt (by have := sl.len.isLt; omega)]

theorem normalised_digit (cap : Nat) (sl : Slot) (i : Nat) :
    (sl.normalised cap).digit i
      = if i < stripZeros sl sl.len.toNat then sl.digit i else 0 := by
  have hle := stripZeros_le_length sl sl.len.toNat
  simp only [Slot.normalised, Slot.digit, List.getD_eq_getElem?_getD]
  by_cases h : i < stripZeros sl sl.len.toNat
  · rw [List.getElem?_append_left (by rw [List.length_take]; omega), List.getElem?_take, if_pos h,
      if_pos h]
  · rw [List.getElem?_append_right (by rw [List.length_take]; omega), if_neg h]
    simp only [List.getElem?_replicate]
    split <;> rfl

theorem normalised_dig_length {cap : Nat} {sl : Slot} (h : sl.len.toNat ≤ cap) :
    (sl.normalised cap).dig.length = cap := by
  have h1 := stripZeros_le_length sl sl.len.toNat
  have h2 := stripZeros_le sl sl.len.toNat
  simp only [Slot.normalised, List.length_append, List.length_take, List.length_replicate]
  omega

/-- R161: NORM keeps the magnitude. -/
theorem normalised_mag (cap : Nat) (sl : Slot) (hlen : sl.len.toNat ≤ sl.dig.length) :
    (sl.normalised cap).mag = sl.mag := by
  have h1 := stripZeros_le_length sl sl.len.toNat
  have h2 := stripZeros_le sl sl.len.toNat
  have hz : natOfWords ((sl.dig.take sl.len.toNat).drop (stripZeros sl sl.len.toNat)) = 0 := by
    have : (sl.dig.take sl.len.toNat).drop (stripZeros sl sl.len.toNat)
        = List.replicate (sl.len.toNat - stripZeros sl sl.len.toNat) 0 := by
      apply List.ext_getElem
      · simp only [List.length_drop, List.length_take, List.length_replicate]
        omega
      · intro i hi _
        simp only [List.length_drop, List.length_take] at hi
        have := stripZeros_zero_above sl sl.len.toNat (stripZeros sl sl.len.toNat + i)
          (by omega) (by omega)
        rw [Slot.digit, List.getD_eq_getElem _ _ (by omega)] at this
        simp [this]
    rw [this, natOfWords_replicate_zero]
  have ht : ((sl.normalised cap).dig.take (stripZeros sl sl.len.toNat))
      = sl.dig.take (stripZeros sl sl.len.toNat) := by
    simp only [Slot.normalised]
    rw [List.take_append_of_le_length (by rw [List.length_take]; omega), List.take_take,
      Nat.min_self]
  rw [Slot.mag, normalised_len_toNat, ht, Slot.mag,
    natOfWords_take_add_drop (sl.dig.take sl.len.toNat) (stripZeros sl sl.len.toNat)
      (by rw [List.length_take]; omega), hz, List.take_take, Nat.min_eq_left h2]
  omega

/-- R161: "after it the slot satisfies `WF`". -/
theorem normalised_wf {cap : Nat} {sl : Slot} (h : sl.len.toNat ≤ cap)
    (hs : sl.sign ≠ signInvalid) : (sl.normalised cap).wf cap = true := by
  have h2 := stripZeros_le sl sl.len.toNat
  have hlen := normalised_len_toNat (cap := cap) (sl := sl)
  have hz : (sl.normalised cap).len = 0 ↔ stripZeros sl sl.len.toNat = 0 := by
    rw [← Slot.len_toNat_eq_zero, hlen]
  rw [Slot.wf_iff, hz, hlen]
  have hsign : (sl.normalised cap).sign
      = if stripZeros sl sl.len.toNat = 0 then signZero
        else if sl.sign = signZero then signPos else sl.sign := rfl
  refine ⟨by omega, ?_, ?_, ?_⟩
  · rw [hsign]
    split
    · decide
    · split
      · decide
      · exact hs
  · rw [hsign]
    split
    · next e => simp [e]
    · next e =>
      split
      · simp [e, signPos, signZero]
      · next e' => simp [e, e']
  · intro h0
    have h0' : stripZeros sl sl.len.toNat ≠ 0 := fun e => h0 (hz.2 e)
    rw [normalised_digit, if_pos (by omega)]
    exact stripZeros_top sl _ h0'

end Sys2Proof.Machine
end

