-- ==== Sys2Proof/Laws/State.lean ====
section
/-! SUPPORT. One lemma per field per update of the state, and reading a register or slot after an update. -/

namespace Sys2Proof.Machine.State

variable (s : State)

/-! ### setReg -/

@[simp] theorem setReg_params (k : Idx) (v : Word) : (s.setReg k v).params = s.params := rfl
@[simp] theorem setReg_x (k : Idx) (v : Word) : (s.setReg k v).x = s.x.set k v := rfl
@[simp] theorem setReg_slots (k : Idx) (v : Word) : (s.setReg k v).slots = s.slots := rfl
@[simp] theorem setReg_ie (k : Idx) (v : Word) : (s.setReg k v).ie = s.ie := rfl
@[simp] theorem setReg_busy (k : Idx) (v : Word) : (s.setReg k v).busy = s.busy := rfl
@[simp] theorem setReg_done (k : Idx) (v : Word) : (s.setReg k v).done = s.done := rfl
@[simp] theorem setReg_ovr (k : Idx) (v : Word) : (s.setReg k v).ovr = s.ovr := rfl
@[simp] theorem setReg_err (k : Idx) (v : Word) : (s.setReg k v).err = s.err := rfl
@[simp] theorem setReg_lastCmd (k : Idx) (v : Word) : (s.setReg k v).lastCmd = s.lastCmd := rfl
@[simp] theorem setReg_result (k : Idx) (v : Word) : (s.setReg k v).result = s.result := rfl
@[simp] theorem setReg_readData (k : Idx) (v : Word) : (s.setReg k v).readData = s.readData := rfl
@[simp] theorem setReg_draws (k : Idx) (v : Word) : (s.setReg k v).draws = s.draws := rfl
@[simp] theorem setReg_events (k : Idx) (v : Word) : (s.setReg k v).events = s.events := rfl

/-! ### setSlot -/

@[simp] theorem setSlot_params (j : Idx) (sl : Slot) : (s.setSlot j sl).params = s.params := rfl
@[simp] theorem setSlot_x (j : Idx) (sl : Slot) : (s.setSlot j sl).x = s.x := rfl
@[simp] theorem setSlot_slots (j : Idx) (sl : Slot) : (s.setSlot j sl).slots = s.slots.set j sl := rfl
@[simp] theorem setSlot_ie (j : Idx) (sl : Slot) : (s.setSlot j sl).ie = s.ie := rfl
@[simp] theorem setSlot_busy (j : Idx) (sl : Slot) : (s.setSlot j sl).busy = s.busy := rfl
@[simp] theorem setSlot_done (j : Idx) (sl : Slot) : (s.setSlot j sl).done = s.done := rfl
@[simp] theorem setSlot_ovr (j : Idx) (sl : Slot) : (s.setSlot j sl).ovr = s.ovr := rfl
@[simp] theorem setSlot_err (j : Idx) (sl : Slot) : (s.setSlot j sl).err = s.err := rfl
@[simp] theorem setSlot_lastCmd (j : Idx) (sl : Slot) : (s.setSlot j sl).lastCmd = s.lastCmd := rfl
@[simp] theorem setSlot_result (j : Idx) (sl : Slot) : (s.setSlot j sl).result = s.result := rfl
@[simp] theorem setSlot_readData (j : Idx) (sl : Slot) : (s.setSlot j sl).readData = s.readData := rfl
@[simp] theorem setSlot_draws (j : Idx) (sl : Slot) : (s.setSlot j sl).draws = s.draws := rfl
@[simp] theorem setSlot_events (j : Idx) (sl : Slot) : (s.setSlot j sl).events = s.events := rfl

/-! ### setResult -/

@[simp] theorem setResult_params (v : Word) : (s.setResult v).params = s.params := rfl
@[simp] theorem setResult_x (v : Word) : (s.setResult v).x = s.x := rfl
@[simp] theorem setResult_slots (v : Word) : (s.setResult v).slots = s.slots := rfl
@[simp] theorem setResult_ie (v : Word) : (s.setResult v).ie = s.ie := rfl
@[simp] theorem setResult_busy (v : Word) : (s.setResult v).busy = s.busy := rfl
@[simp] theorem setResult_done (v : Word) : (s.setResult v).done = s.done := rfl
@[simp] theorem setResult_ovr (v : Word) : (s.setResult v).ovr = s.ovr := rfl
@[simp] theorem setResult_err (v : Word) : (s.setResult v).err = s.err := rfl
@[simp] theorem setResult_lastCmd (v : Word) : (s.setResult v).lastCmd = s.lastCmd := rfl
@[simp] theorem setResult_result (v : Word) : (s.setResult v).result = v := rfl
@[simp] theorem setResult_readData (v : Word) : (s.setResult v).readData = s.readData := rfl
@[simp] theorem setResult_draws (v : Word) : (s.setResult v).draws = s.draws := rfl
@[simp] theorem setResult_events (v : Word) : (s.setResult v).events = s.events := rfl

/-! ### complete -/

@[simp] theorem complete_params (c : ErrorCode) : (s.complete c).params = s.params := rfl
@[simp] theorem complete_x (c : ErrorCode) : (s.complete c).x = s.x := rfl
@[simp] theorem complete_slots (c : ErrorCode) : (s.complete c).slots = s.slots := rfl
@[simp] theorem complete_ie (c : ErrorCode) : (s.complete c).ie = s.ie := rfl
@[simp] theorem complete_busy (c : ErrorCode) : (s.complete c).busy = false := rfl
@[simp] theorem complete_done (c : ErrorCode) : (s.complete c).done = true := rfl
@[simp] theorem complete_ovr (c : ErrorCode) : (s.complete c).ovr = s.ovr := rfl
@[simp] theorem complete_err (c : ErrorCode) : (s.complete c).err = c := rfl
@[simp] theorem complete_lastCmd (c : ErrorCode) : (s.complete c).lastCmd = s.lastCmd := rfl
@[simp] theorem complete_result (c : ErrorCode) : (s.complete c).result = s.result := rfl
@[simp] theorem complete_readData (c : ErrorCode) : (s.complete c).readData = s.readData := rfl
@[simp] theorem complete_draws (c : ErrorCode) : (s.complete c).draws = s.draws := rfl
@[simp] theorem complete_events (c : ErrorCode) : (s.complete c).events = s.events := rfl

/-! ### accept -/

@[simp] theorem accept_params (v : Word) : (s.accept v).params = s.params := rfl
@[simp] theorem accept_x (v : Word) : (s.accept v).x = s.x := rfl
@[simp] theorem accept_slots (v : Word) : (s.accept v).slots = s.slots := rfl
@[simp] theorem accept_ie (v : Word) : (s.accept v).ie = s.ie := rfl
@[simp] theorem accept_busy (v : Word) : (s.accept v).busy = true := rfl
@[simp] theorem accept_done (v : Word) : (s.accept v).done = false := rfl
@[simp] theorem accept_ovr (v : Word) : (s.accept v).ovr = s.ovr := rfl
@[simp] theorem accept_err (v : Word) : (s.accept v).err = .ok := rfl
@[simp] theorem accept_lastCmd (v : Word) : (s.accept v).lastCmd = v := rfl
@[simp] theorem accept_result (v : Word) : (s.accept v).result = s.result := rfl
@[simp] theorem accept_readData (v : Word) : (s.accept v).readData = s.readData := rfl
@[simp] theorem accept_draws (v : Word) : (s.accept v).draws = s.draws := rfl
@[simp] theorem accept_events (v : Word) : (s.accept v).events = s.events := rfl

/-! ### overrun -/

@[simp] theorem overrun_params : s.overrun.params = s.params := rfl
@[simp] theorem overrun_x : s.overrun.x = s.x := rfl
@[simp] theorem overrun_slots : s.overrun.slots = s.slots := rfl
@[simp] theorem overrun_ie : s.overrun.ie = s.ie := rfl
@[simp] theorem overrun_busy : s.overrun.busy = s.busy := rfl
@[simp] theorem overrun_done : s.overrun.done = s.done := rfl
@[simp] theorem overrun_ovr : s.overrun.ovr = true := rfl
@[simp] theorem overrun_err : s.overrun.err = s.err := rfl
@[simp] theorem overrun_lastCmd : s.overrun.lastCmd = s.lastCmd := rfl
@[simp] theorem overrun_result : s.overrun.result = s.result := rfl
@[simp] theorem overrun_readData : s.overrun.readData = s.readData := rfl
@[simp] theorem overrun_draws : s.overrun.draws = s.draws := rfl
@[simp] theorem overrun_events : s.overrun.events = s.events := rfl

/-! ### applyReset -/

@[simp] theorem applyReset_params : s.applyReset.params = s.params := rfl
@[simp] theorem applyReset_x : s.applyReset.x = Vector.replicate 16 0 := rfl
@[simp] theorem applyReset_slots : s.applyReset.slots = Vector.replicate 16 (Slot.zero s.params.cap) := rfl
@[simp] theorem applyReset_ie : s.applyReset.ie = false := rfl
@[simp] theorem applyReset_busy : s.applyReset.busy = false := rfl
@[simp] theorem applyReset_done : s.applyReset.done = false := rfl
@[simp] theorem applyReset_ovr : s.applyReset.ovr = false := rfl
@[simp] theorem applyReset_err : s.applyReset.err = .ok := rfl
@[simp] theorem applyReset_lastCmd : s.applyReset.lastCmd = 0 := rfl
@[simp] theorem applyReset_result : s.applyReset.result = 0 := rfl
@[simp] theorem applyReset_readData : s.applyReset.readData = s.readData := rfl
@[simp] theorem applyReset_draws : s.applyReset.draws = s.draws := rfl
@[simp] theorem applyReset_events : s.applyReset.events = s.events := rfl

/-! ### Scalar registers and slots after an update -/

@[simp] theorem reg_setReg (k i : Idx) (v : Word) :
    (s.setReg k v).reg i = if i = k then v else s.reg i := by
  by_cases h : i = k
  · subst h
    simp [reg, setReg]
  · have h' : (k : Nat) ≠ i := fun e => h (Fin.ext e.symm)
    simp [reg, setReg, h, h']

@[simp] theorem slot_setSlot (j i : Idx) (sl : Slot) :
    (s.setSlot j sl).slot i = if i = j then sl else s.slot i := by
  by_cases h : i = j
  · subst h
    simp [slot, setSlot]
  · have h' : (j : Nat) ≠ i := fun e => h (Fin.ext e.symm)
    simp [slot, setSlot, h, h']

@[simp] theorem slot_setReg (k : Idx) (v : Word) (i : Idx) : (s.setReg k v).slot i = s.slot i := rfl
@[simp] theorem reg_setSlot (j : Idx) (sl : Slot) (i : Idx) : (s.setSlot j sl).reg i = s.reg i := rfl
@[simp] theorem reg_setResult (v : Word) (i : Idx) : (s.setResult v).reg i = s.reg i := rfl
@[simp] theorem slot_setResult (v : Word) (i : Idx) : (s.setResult v).slot i = s.slot i := rfl
@[simp] theorem reg_complete (c : ErrorCode) (i : Idx) : (s.complete c).reg i = s.reg i := rfl
@[simp] theorem slot_complete (c : ErrorCode) (i : Idx) : (s.complete c).slot i = s.slot i := rfl
@[simp] theorem reg_accept (v : Word) (i : Idx) : (s.accept v).reg i = s.reg i := rfl
@[simp] theorem slot_accept (v : Word) (i : Idx) : (s.accept v).slot i = s.slot i := rfl
@[simp] theorem reg_overrun (i : Idx) : s.overrun.reg i = s.reg i := rfl
@[simp] theorem slot_overrun (i : Idx) : s.overrun.slot i = s.slot i := rfl

@[simp] theorem reg_applyReset (k : Idx) : s.applyReset.reg k = 0 := by
  simp [reg]

@[simp] theorem slot_applyReset (j : Idx) : s.applyReset.slot j = Slot.zero s.params.cap := by
  simp [slot]

/-- Two states have the same scalar registers when every register reads the same. -/
theorem x_eq_of_reg {s t : State} (h : ∀ k, t.reg k = s.reg k) : t.x = s.x := by
  ext i hi : 1
  exact h ⟨i, hi⟩

/-- Two states have the same slots when every slot reads the same. -/
theorem slots_eq_of_slot {s t : State} (h : ∀ j, t.slot j = s.slot j) : t.slots = s.slots := by
  ext i hi : 1
  exact h ⟨i, hi⟩

theorem reg_congr {s t : State} (h : t.x = s.x) (k : Idx) : t.reg k = s.reg k := by
  simp [reg, h]

theorem slot_congr {s t : State} (h : t.slots = s.slots) (j : Idx) : t.slot j = s.slot j := by
  simp [slot, h]

end Sys2Proof.Machine.State
end

