-- ==== Sys2Proof/Laws/Ops.lean ====
section
/-! SUPPORT. What each shared operation of Machine/Ops.lean can do, said once: completion, the register
writes, the slot writes and the stores that may raise CAPACITY. -/

namespace Sys2Proof.Machine

/-! ### Completion (R311, R315) -/

theorem complete_sameSurroundings (s : State) (c : ErrorCode) :
    s.SameSurroundings (s.complete c) := ⟨rfl, rfl, rfl, rfl, rfl, rfl, rfl⟩

/-- R315: a command that raises writes nothing but `STATUS`. -/
theorem complete_failedWith (s : State) (c : ErrorCode) : s.FailedWith (s.complete c) c :=
  ⟨⟨complete_sameSurroundings s c, rfl, rfl, rfl⟩, rfl, rfl, rfl⟩

/-- `raise` answers one next state. -/
theorem raise_next_iff {c : ErrorCode} {s t : State} : raise c s = .next t ↔ t = s.complete c := by
  rw [raise, Host.Outcome.next.injEq, eq_comm]

/-- `succeed` answers one next state. -/
theorem succeed_next_iff {s t : State} : succeed s = .next t ↔ t = s.complete .ok := by
  rw [succeed, Host.Outcome.next.injEq, eq_comm]

/-! ### Scalar results (R103) -/

theorem writePair_reg_low (s : State) (d : Idx) (p : Nat) :
    (s.writePair d p).reg d = BitVec.ofNat 32 p := by
  have : d ≠ d + 1 := by
    revert d
    decide
  simp [State.writePair, this]

theorem writePair_reg_high (s : State) (d : Idx) (p : Nat) :
    (s.writePair d p).reg (d + 1) = BitVec.ofNat 32 (p / 2 ^ 32) := by
  simp [State.writePair]

theorem writePair_reg_other (s : State) (d : Idx) (p : Nat) {k : Idx} (h : k ∉ [d, d + 1]) :
    (s.writePair d p).reg k = s.reg k := by
  simp only [List.mem_cons, List.not_mem_nil, or_false, not_or] at h
  simp [State.writePair, h.1, h.2]

theorem writeTriple_reg_low (s : State) (d : Idx) (t : Nat) :
    (s.writeTriple d t).reg d = BitVec.ofNat 32 t := by
  have : d ≠ d + 2 := by
    revert d
    decide
  rw [State.writeTriple, State.reg_setReg, if_neg this, writePair_reg_low]

theorem writeTriple_reg_mid (s : State) (d : Idx) (t : Nat) :
    (s.writeTriple d t).reg (d + 1) = BitVec.ofNat 32 (t / 2 ^ 32) := by
  have : d + 1 ≠ d + 2 := by
    revert d
    decide
  rw [State.writeTriple, State.reg_setReg, if_neg this, writePair_reg_high]

theorem writeTriple_reg_high (s : State) (d : Idx) (t : Nat) :
    (s.writeTriple d t).reg (d + 2) = BitVec.ofNat 32 (t / 2 ^ 64) := by
  simp [State.writeTriple]

theorem writeTriple_reg_other (s : State) (d : Idx) (t : Nat) {k : Idx}
    (h : k ∉ [d, d + 1, d + 2]) : (s.writeTriple d t).reg k = s.reg k := by
  simp only [List.mem_cons, List.not_mem_nil, or_false, not_or] at h
  rw [State.writeTriple, State.reg_setReg, if_neg h.2.2, writePair_reg_other]
  simp [h.1, h.2.1]

/-- A completed command that wrote one scalar register. -/
theorem setReg_wroteRegs (s : State) (d : Idx) (v : Word) :
    s.WroteRegs ((s.setReg d v).complete .ok) [d] := by
  refine ⟨⟨⟨rfl, rfl, rfl, rfl, rfl, rfl, rfl⟩, rfl, rfl, rfl⟩, ?_, rfl, rfl⟩
  intro k hk
  have : k ≠ d := by simpa using hk
  simp [this]

/-- A completed command that wrote a double word. -/
theorem writePair_wroteRegs (s : State) (d : Idx) (p : Nat) :
    s.WroteRegs ((s.writePair d p).complete .ok) [d, d + 1] :=
  ⟨⟨⟨rfl, rfl, rfl, rfl, rfl, rfl, rfl⟩, rfl, rfl, rfl⟩,
    fun _ hk => by rw [State.reg_complete, writePair_reg_other s d p hk], rfl, rfl⟩

/-- A completed command that wrote a triple word. -/
theorem writeTriple_wroteRegs (s : State) (d : Idx) (t : Nat) :
    s.WroteRegs ((s.writeTriple d t).complete .ok) [d, d + 1, d + 2] :=
  ⟨⟨⟨rfl, rfl, rfl, rfl, rfl, rfl, rfl⟩, rfl, rfl, rfl⟩,
    fun _ hk => by rw [State.reg_complete, writeTriple_reg_other s d t hk], rfl, rfl⟩

/-- A completed command that wrote `RESULT`. -/
theorem setResult_wroteResult (s : State) (v : Word) :
    s.WroteResult ((s.setResult v).complete .ok) v :=
  ⟨⟨⟨rfl, rfl, rfl, rfl, rfl, rfl, rfl⟩, rfl, rfl, rfl⟩, rfl, rfl, rfl⟩

/-- A double word that fits is the number its two words stand for. -/
theorem pair_value {p : Nat} (h : p < 2 ^ 64) :
    (BitVec.ofNat 32 p).toNat + 2 ^ 32 * (BitVec.ofNat 32 (p / 2 ^ 32)).toNat = p := by
  rw [BitVec.toNat_ofNat, BitVec.toNat_ofNat]
  omega

/-! ### Slot results (R15, R313) -/

theorem setSlot_wroteSlot {s : State} {d : Idx} {sl : Slot} {v : Int}
    (h : sl.HoldsInt s.params.cap v) : s.WroteSlot ((s.setSlot d sl).complete .ok) d v := by
  refine ⟨⟨⟨rfl, rfl, rfl, rfl, rfl, rfl, rfl⟩, rfl, rfl, rfl⟩, rfl, ?_, rfl, ?_⟩
  · intro j hj
    simp [hj]
  · simpa using h

/-- R15: a value that fits, written and completed. -/
theorem writeInt_wroteSlot {s : State} (hp : s.params.wf = true) (d : Idx) {v : Int}
    (h : v.natAbs < 2 ^ (32 * s.params.cap)) :
    s.WroteSlot ((s.writeInt d v).complete .ok) d v :=
  setSlot_wroteSlot (intSlot_holdsInt (cap_lt_of_wf hp) h)

/-- R15: a polynomial that fits, written and completed. -/
theorem writePoly_wroteSlot {s : State} (hp : s.params.wf = true) (d : Idx) {p : Nat}
    (h : p < 2 ^ (32 * s.params.cap)) : s.WroteSlot ((s.writePoly d p).complete .ok) d p :=
  setSlot_wroteSlot (polySlot_holdsInt (cap_lt_of_wf hp) h)

/-- R313: a value that needs more than `CAP` words raises CAPACITY. -/
theorem storeInt_capacity {d : Idx} {v : Int} {s : State}
    (h : 2 ^ (32 * s.params.cap) ≤ v.natAbs) : storeInt d v s = .next (s.complete .capacity) :=
  if_pos ((lt_nwords_iff _ _).2 h)

/-- R313: any other value is written. -/
theorem storeInt_fits {d : Idx} {v : Int} {s : State} (h : v.natAbs < 2 ^ (32 * s.params.cap)) :
    storeInt d v s = .next ((s.writeInt d v).complete .ok) :=
  if_neg (by rw [lt_nwords_iff]; omega)

theorem storePoly_capacity {d : Idx} {p : Nat} {s : State} (h : 2 ^ (32 * s.params.cap) ≤ p) :
    storePoly d p s = .next (s.complete .capacity) :=
  if_pos ((lt_nwords_iff _ _).2 h)

theorem storePoly_fits {d : Idx} {p : Nat} {s : State} (h : p < 2 ^ (32 * s.params.cap)) :
    storePoly d p s = .next ((s.writePoly d p).complete .ok) :=
  if_neg (by rw [lt_nwords_iff]; omega)

/-- Everything `storeInt` can do. -/
theorem storeInt_cases {d : Idx} {v : Int} {s t : State} (h : storeInt d v s = .next t) :
    (2 ^ (32 * s.params.cap) ≤ v.natAbs ∧ t = s.complete .capacity)
      ∨ (v.natAbs < 2 ^ (32 * s.params.cap) ∧ t = (s.writeInt d v).complete .ok) := by
  by_cases hc : v.natAbs < 2 ^ (32 * s.params.cap)
  · rw [storeInt_fits hc, Host.Outcome.next.injEq] at h
    exact .inr ⟨hc, h.symm⟩
  · rw [storeInt_capacity (by omega), Host.Outcome.next.injEq] at h
    exact .inl ⟨by omega, h.symm⟩

/-- Everything `storePoly` can do. -/
theorem storePoly_cases {d : Idx} {p : Nat} {s t : State} (h : storePoly d p s = .next t) :
    (2 ^ (32 * s.params.cap) ≤ p ∧ t = s.complete .capacity)
      ∨ (p < 2 ^ (32 * s.params.cap) ∧ t = (s.writePoly d p).complete .ok) := by
  by_cases hc : p < 2 ^ (32 * s.params.cap)
  · rw [storePoly_fits hc, Host.Outcome.next.injEq] at h
    exact .inr ⟨hc, h.symm⟩
  · rw [storePoly_capacity (by omega), Host.Outcome.next.injEq] at h
    exact .inl ⟨by omega, h.symm⟩

/-! ### Signs of shift results (R164, R165) -/

theorem withSignOf_natAbs (sl : Slot) (v : Nat) : (withSignOf sl v).natAbs = v := by
  unfold withSignOf
  split
  · next h => simp [h]
  · split <;> simp

end Sys2Proof.Machine
end

