-- ==== Sys2Proof/Laws/Bus.lean ====
section
/-! SUPPORT. The register window: the map of R72 read both ways, and what a host access can do
(20_memory.md R70-R79; 70_reset_and_hazards.md R355-R357). -/

namespace Sys2Proof.Machine

/-- A register the map has an offset for: a digit index below `CAP`. -/
def Reg.valid (cap : Nat) : Reg → Prop
  | .dig _ i => i < cap
  | _ => True

theorem idx_ofNat_val (k : Idx) : Fin.ofNat 16 k.val = k := by
  revert k
  decide

/-- R72: the map gives each register back from its offset. -/
theorem regAt_offset {cap off : Nat} {r : Reg} (hv : r.valid cap)
    (h : r.offset cap = some off) : regAt cap off = r := by
  cases r with
  | x k =>
    simp only [Reg.offset, Option.some.injEq] at h
    subst h
    have := k.isLt
    have e : (0x00100 + 4 * k.val - 0x00100) / 4 = k.val := by omega
    simp only [regAt]
    repeat rw [if_neg (by omega)]
    rw [if_pos (by omega), e, idx_ofNat_val]
  | len j =>
    simp only [Reg.offset, Option.some.injEq] at h
    subst h
    have := j.isLt
    have e : (0x00200 + 8 * j.val - 0x00200) / 8 = j.val := by omega
    simp only [regAt]
    repeat rw [if_neg (by omega)]
    rw [if_pos (by omega), if_pos (by omega), e, idx_ofNat_val]
  | sign j =>
    simp only [Reg.offset, Option.some.injEq] at h
    subst h
    have := j.isLt
    have e : (0x00204 + 8 * j.val - 0x00200) / 8 = j.val := by omega
    simp only [regAt]
    iterate 8 rw [if_neg (by omega)]
    rw [if_pos (by omega), if_neg (by omega), e, idx_ofNat_val]
  | dig j i =>
    simp only [Reg.offset, Option.some.injEq] at h
    subst h
    have hi : i < cap := hv
    have hj := j.isLt
    have e : (0x01000 + 4 * cap * j.val + 4 * i - 0x01000) / 4 = cap * j.val + i := by
      rw [show 0x01000 + 4 * cap * j.val + 4 * i - 0x01000 = 4 * (cap * j.val + i) by
        rw [Nat.add_assoc, Nat.add_sub_cancel_left]; ring]
      omega
    have hd : (cap * j.val + i) / cap = j.val := by
      rw [Nat.mul_add_div (by omega), Nat.div_eq_of_lt hi]
      omega
    have hm : (cap * j.val + i) % cap = i := by
      rw [Nat.mul_add_mod, Nat.mod_eq_of_lt hi]
    have hlt : 4 * cap * j.val + 4 * i < 64 * cap := by
      have : cap * j.val ≤ cap * 15 := Nat.mul_le_mul_left cap (by omega)
      nlinarith
    simp only [regAt]
    iterate 9 rw [if_neg (by omega)]
    rw [if_pos ⟨by omega, by omega⟩, e, hd, hm, idx_ofNat_val]
  | reserved => simp [Reg.offset] at h
  | _ =>
    simp only [Reg.offset, Option.some.injEq] at h
    subst h
    rfl

/-- R72: what stands at an aligned offset that is not reserved is a register of the map, with that offset. -/
theorem offset_regAt {cap off : Nat} (hal : off % 4 = 0) (hr : regAt cap off ≠ .reserved) :
    (regAt cap off).valid cap ∧ (regAt cap off).offset cap = some off := by
  unfold regAt at hr ⊢
  by_cases h7 : off ≤ 0x00018
  · have : off = 0x00000 ∨ off = 0x00004 ∨ off = 0x00008 ∨ off = 0x0000C ∨ off = 0x00010
        ∨ off = 0x00014 ∨ off = 0x00018 := by omega
    rcases this with rfl | rfl | rfl | rfl | rfl | rfl | rfl <;> exact ⟨trivial, rfl⟩
  · iterate 7 rw [if_neg (by omega)] at hr ⊢
    by_cases hx : 0x00100 ≤ off ∧ off < 0x00140
    · rw [if_pos hx]
      exact ⟨trivial, congrArg some (by simp only [Fin.val_ofNat]; omega)⟩
    rw [if_neg hx] at hr ⊢
    by_cases hs : 0x00200 ≤ off ∧ off < 0x00280
    · rw [if_pos hs]
      by_cases he : (off - 0x00200) % 8 = 0
      · rw [if_pos he]
        exact ⟨trivial, congrArg some (by simp only [Fin.val_ofNat]; omega)⟩
      · rw [if_neg he]
        exact ⟨trivial, congrArg some (by simp only [Fin.val_ofNat]; omega)⟩
    rw [if_neg hs] at hr ⊢
    by_cases hd : 0x01000 ≤ off ∧ off < 0x01000 + 64 * cap
    · rw [if_pos hd]
      have hcap : 0 < cap := by omega
      have hdm := Nat.div_add_mod ((off - 0x01000) / 4) cap
      have hlt : (off - 0x01000) / 4 / cap < 16 := by
        rw [Nat.div_lt_iff_lt_mul hcap]
        omega
      refine ⟨Nat.mod_lt _ hcap, congrArg some ?_⟩
      simp only [Fin.val_ofNat, Nat.mod_eq_of_lt hlt]
      rw [Nat.mul_assoc 4 cap]
      omega
    · rw [if_neg hd] at hr
      exact absurd rfl hr

/-- R10, R72: every register stands in the window, at a multiple of 4. -/
theorem offset_aligned_in_window {cap off : Nat} {r : Reg} (hcap : cap ≤ 4096)
    (hv : r.valid cap) (h : r.offset cap = some off) : off % 4 = 0 ∧ off < 2 ^ 20 := by
  cases r with
  | x k =>
    simp only [Reg.offset, Option.some.injEq] at h
    have := k.isLt
    omega
  | len j =>
    simp only [Reg.offset, Option.some.injEq] at h
    have := j.isLt
    omega
  | sign j =>
    simp only [Reg.offset, Option.some.injEq] at h
    have := j.isLt
    omega
  | dig j i =>
    simp only [Reg.offset, Option.some.injEq] at h
    have hi : i < cap := hv
    have hj := j.isLt
    have hb : cap * j.val ≤ 4096 * 15 := Nat.mul_le_mul hcap (by omega)
    have e : 4 * cap * j.val = 4 * (cap * j.val) := by ring
    omega
  | reserved => simp [Reg.offset] at h
  | _ =>
    simp only [Reg.offset, Option.some.injEq] at h
    omega

/-! ### Accesses -/

theorem offsetOf_base_add {s : State} {off : Nat} (h : off < 2 ^ 20) :
    s.offsetOf (s.params.base + off) = some off := by
  rw [State.offsetOf, if_pos ⟨by omega, by unfold Config.windowBytes; omega⟩,
    Nat.add_sub_cancel_left]

/-- R70: an offset in the window is the address's distance from `BASE`. -/
theorem addr_of_offsetOf {s : State} {addr off : Nat} (h : s.offsetOf addr = some off) :
    addr = s.params.base + off ∧ off < 2 ^ 20 := by
  unfold State.offsetOf at h
  split at h
  · next hw =>
    simp only [Config.windowBytes, Option.some.injEq] at h hw
    omega
  · cases h

/-- An accepted access acts on the register at its offset. -/
theorem hostAccess_accepted {s : State} {a : Access} {off : Nat}
    (haddr : a.addr = s.params.base + off) (hoff : off < 2 ^ 20) (hw : a.width = .w32)
    (hal : off % 4 = 0) : hostAccess a s = .next (a.perform (regAt s.params.cap off) s) := by
  simp only [hostAccess, haddr, offsetOf_base_add hoff]
  rw [if_neg (by simp [hw]), if_neg (by simp [hal])]

/-- Everything a host access can do. -/
theorem hostAccess_next {s t : State} {a : Access} (h : hostAccess a s = .next t) :
    ∃ off, s.offsetOf a.addr = some off ∧ a.width = .w32 ∧ off % 4 = 0
      ∧ t = a.perform (regAt s.params.cap off) s := by
  unfold hostAccess at h
  split at h
  · cases h
  · next off ho =>
    split at h
    · cases h
    · next hw =>
      split at h
      · cases h
      · next hal =>
        cases h
        exact ⟨off, ho, not_not.1 hw, not_not.1 hal, rfl⟩

/-- A step with an event pending. -/
theorem step_cons {s : State} {e : Event} {rest : List Event} (h : s.events = e :: rest) :
    step s = handleEvent e { s with events := rest } := by
  simp only [step, nextStep, h]

/-- A step with no event pending is the sequencer's turn. -/
theorem step_nil {s : State} (h : s.events = []) : step s = sequencerTurn s := by
  simp only [step, nextStep, h]

/-- A step that is the sequencer's turn, queued or not. -/
theorem step_turnNext {s : State} {rest : List Event} (h : s.TurnNext rest) :
    step s = sequencerTurn { s with events := rest } := by
  obtain h | ⟨h, rfl⟩ := h
  · exact step_cons h
  · rw [step_nil h, ← h]

/-- R106, R311: the turn of a busy block whose word is illegal. -/
theorem step_illegal {s : State} {rest : List Event} {e : DecodeError} (h : s.TurnNext rest)
    (hb : s.busy = true) (hd : decode s.lastCmd = .error e) :
    step s = raise .illegal { s with events := rest } := by
  rw [step_turnNext h]
  simp [sequencerTurn, runCommand, hb, hd]

/-- A step whose event is an aligned 32-bit read of the window. -/
theorem step_readAt {s : State} {off : Nat} {rest : List Event} (hoff : off < 2 ^ 20)
    (hal : off % 4 = 0) (h : s.events = s.readAt off :: rest) :
    step s = .next (hostRead (regAt s.params.cap off) { s with events := rest }) := by
  rw [step_cons h]
  exact hostAccess_accepted (s := { s with events := rest }) rfl hoff rfl hal

/-- A step whose event is an aligned 32-bit write of the window. -/
theorem step_writeAt {s : State} {off : Nat} {v : Word} {rest : List Event} (hoff : off < 2 ^ 20)
    (hal : off % 4 = 0) (h : s.events = s.writeAt off v :: rest) :
    step s = .next (hostWrite (regAt s.params.cap off) v { s with events := rest }) := by
  rw [step_cons h]
  exact hostAccess_accepted (s := { s with events := rest }) rfl hoff rfl hal

/-- R79: what a read leaves. -/
theorem hostRead_frame (r : Reg) (s : State) :
    (hostRead r s).params = s.params ∧ (hostRead r s).x = s.x ∧ (hostRead r s).slots = s.slots
      ∧ (hostRead r s).ie = s.ie ∧ (hostRead r s).busy = s.busy ∧ (hostRead r s).done = s.done
      ∧ (hostRead r s).ovr = s.ovr ∧ (hostRead r s).err = s.err
      ∧ (hostRead r s).lastCmd = s.lastCmd ∧ (hostRead r s).result = s.result
      ∧ (hostRead r s).events = s.events := by
  unfold hostRead
  split <;> exact ⟨rfl, rfl, rfl, rfl, rfl, rfl, rfl, rfl, rfl, rfl, rfl⟩

end Sys2Proof.Machine
end

