-- ==== Sys2Proof/Laws/Encoding.lean ====
section
/-! SUPPORT. The fields of the words the encoder builds, and a word rebuilt from its fields
(30_encoding.md R101, R108). -/

namespace Sys2Proof

theorem append_toNat {m n : Nat} (x : BitVec m) (y : BitVec n) :
    (x ++ y).toNat = x.toNat * 2 ^ n + y.toNat := by
  rw [BitVec.toNat_append, Nat.shiftLeft_eq, Nat.mul_comm, ← Nat.two_pow_add_eq_or_of_lt y.isLt]

/-! ### `{OPC, D, A, B, C, Z}` -/

theorem commandWord_toNat (opc : BitVec 8) (d a b c : BitVec 4) (z : BitVec 8) :
    (commandWord opc d a b c z).toNat = opc.toNat * 2 ^ 24 + d.toNat * 2 ^ 20 + a.toNat * 2 ^ 16
      + b.toNat * 2 ^ 12 + c.toNat * 2 ^ 8 + z.toNat := by
  simp only [commandWord, append_toNat]
  ring

theorem shiftWord_toNat (opc : BitVec 8) (d a : BitVec 4) (shamt : BitVec 16) :
    (shiftWord opc d a shamt).toNat = opc.toNat * 2 ^ 24 + d.toNat * 2 ^ 20 + a.toNat * 2 ^ 16
      + shamt.toNat := by
  simp only [shiftWord, append_toNat]
  ring

theorem unimplWord_toNat (opc : BitVec 8) (ignored : BitVec 24) :
    (unimplWord opc ignored).toNat = opc.toNat * 2 ^ 24 + ignored.toNat := by
  simp only [unimplWord, append_toNat]

theorem extract_toNat (c : Word) (lo n : Nat) :
    (c.extractLsb' lo n).toNat = c.toNat / 2 ^ lo % 2 ^ n := by
  rw [BitVec.extractLsb'_toNat, Nat.shiftRight_eq_div_pow]

section CommandWord

variable (opc : BitVec 8) (d a b c : BitVec 4) (z : BitVec 8)

@[simp] theorem fieldOpc_commandWord : fieldOpc (commandWord opc d a b c z) = opc := by
  apply BitVec.eq_of_toNat_eq
  rw [fieldOpc, extract_toNat, commandWord_toNat]
  omega

@[simp] theorem fieldD_commandWord : fieldD (commandWord opc d a b c z) = d := by
  apply BitVec.eq_of_toNat_eq
  rw [fieldD, extract_toNat, commandWord_toNat]
  omega

@[simp] theorem fieldA_commandWord : fieldA (commandWord opc d a b c z) = a := by
  apply BitVec.eq_of_toNat_eq
  rw [fieldA, extract_toNat, commandWord_toNat]
  omega

@[simp] theorem fieldB_commandWord : fieldB (commandWord opc d a b c z) = b := by
  apply BitVec.eq_of_toNat_eq
  rw [fieldB, extract_toNat, commandWord_toNat]
  omega

@[simp] theorem fieldC_commandWord : fieldC (commandWord opc d a b c z) = c := by
  apply BitVec.eq_of_toNat_eq
  rw [fieldC, extract_toNat, commandWord_toNat]
  omega

@[simp] theorem fieldZ_commandWord : fieldZ (commandWord opc d a b c z) = z := by
  apply BitVec.eq_of_toNat_eq
  rw [fieldZ, extract_toNat, commandWord_toNat]
  omega

end CommandWord

section ShiftWord

variable (opc : BitVec 8) (d a : BitVec 4) (shamt : BitVec 16)

@[simp] theorem fieldOpc_shiftWord : fieldOpc (shiftWord opc d a shamt) = opc := by
  apply BitVec.eq_of_toNat_eq
  rw [fieldOpc, extract_toNat, shiftWord_toNat]
  omega

@[simp] theorem fieldD_shiftWord : fieldD (shiftWord opc d a shamt) = d := by
  apply BitVec.eq_of_toNat_eq
  rw [fieldD, extract_toNat, shiftWord_toNat]
  omega

@[simp] theorem fieldA_shiftWord : fieldA (shiftWord opc d a shamt) = a := by
  apply BitVec.eq_of_toNat_eq
  rw [fieldA, extract_toNat, shiftWord_toNat]
  omega

@[simp] theorem fieldShamt_shiftWord : fieldShamt (shiftWord opc d a shamt) = shamt := by
  apply BitVec.eq_of_toNat_eq
  rw [fieldShamt, extract_toNat, shiftWord_toNat]
  omega

end ShiftWord

section UnimplWord

variable (opc : BitVec 8) (ignored : BitVec 24)

@[simp] theorem fieldOpc_unimplWord : fieldOpc (unimplWord opc ignored) = opc := by
  apply BitVec.eq_of_toNat_eq
  rw [fieldOpc, extract_toNat, unimplWord_toNat]
  omega

@[simp] theorem fieldIgnored_unimplWord : fieldIgnored (unimplWord opc ignored) = ignored := by
  apply BitVec.eq_of_toNat_eq
  rw [fieldIgnored, extract_toNat, unimplWord_toNat]
  omega

end UnimplWord

/-! ### A word is made of its fields -/

theorem commandWord_fields (w : Word) :
    commandWord (fieldOpc w) (fieldD w) (fieldA w) (fieldB w) (fieldC w) (fieldZ w) = w := by
  apply BitVec.eq_of_toNat_eq
  simp only [commandWord_toNat, fieldOpc, fieldD, fieldA, fieldB, fieldC, fieldZ, extract_toNat]
  have := w.isLt
  omega

theorem shiftWord_fields (w : Word) :
    shiftWord (fieldOpc w) (fieldD w) (fieldA w) (fieldShamt w) = w := by
  apply BitVec.eq_of_toNat_eq
  simp only [shiftWord_toNat, fieldOpc, fieldD, fieldA, fieldShamt, extract_toNat]
  have := w.isLt
  omega

theorem unimplWord_fields (w : Word) : unimplWord (fieldOpc w) (fieldIgnored w) = w := by
  apply BitVec.eq_of_toNat_eq
  simp only [unimplWord_toNat, fieldOpc, fieldIgnored, extract_toNat]
  have := w.isLt
  omega

/-! ### Operand names -/

@[simp] theorem idxOfField_fieldOfIdx (i : Idx) : idxOfField (fieldOfIdx i) = i := rfl

@[simp] theorem fieldOfIdx_idxOfField (v : BitVec 4) : fieldOfIdx (idxOfField v) = v := rfl

/-- The opcode field decides the arm of the decoder. -/
theorem fieldOpc_eq_of_toNat {w : Word} {n : Nat} (h : (fieldOpc w).toNat = n) :
    fieldOpc w = BitVec.ofNat 8 n := by
  rw [← h]
  simp

end Sys2Proof
end

