-- ==== Sys2Proof/Laws/Gf.lean ====
section
/-! SUPPORT. Carry-less multiplication and the reduction loop (00_scope.md R18; 45_gf2n.md R274). -/

namespace Sys2Proof.Machine

/-! ### The carry-less product -/

theorem clmulBits_succ (k a b : Nat) :
    clmulBits (k + 1) a b = clmulBits k a b ^^^ (if a.testBit k then b <<< k else 0) := rfl

/-- Bits that are not set add nothing. -/
theorem clmulBits_of_lt {k a : Nat} (n b : Nat) (h : a < 2 ^ k) :
    clmulBits (k + n) a b = clmulBits k a b := by
  induction n with
  | zero => rfl
  | succ n ih =>
    have : a.testBit (k + n) = false :=
      Nat.testBit_lt_two_pow (lt_of_lt_of_le h (Nat.pow_le_pow_right (by norm_num) (by omega)))
    rw [← Nat.add_assoc, clmulBits_succ, ih, this]
    simp

/-- The product may be read off any number of bits that covers `a`. -/
theorem clmul_eq_clmulBits {k a : Nat} (b : Nat) (h : a < 2 ^ k) : clmul a b = clmulBits k a b := by
  have h1 : a < 2 ^ (a.log2 + 1) := Nat.lt_log2_self
  rw [clmul]
  rcases le_total k (a.log2 + 1) with hk | hk
  · obtain ⟨n, hn⟩ := Nat.exists_eq_add_of_le hk
    rw [hn, clmulBits_of_lt n b h]
  · obtain ⟨n, hn⟩ := Nat.exists_eq_add_of_le hk
    rw [hn, clmulBits_of_lt n b h1]

theorem clmulBits_xor_left (k a a' b : Nat) :
    clmulBits k (a ^^^ a') b = clmulBits k a b ^^^ clmulBits k a' b := by
  induction k with
  | zero => simp [clmulBits]
  | succ k ih =>
    rw [clmulBits_succ, clmulBits_succ, clmulBits_succ, ih, Nat.testBit_xor]
    cases a.testBit k <;> cases a'.testBit k <;>
      simp [Nat.xor_assoc, Nat.xor_comm, Nat.xor_left_comm]

theorem clmulBits_xor_right (k a b b' : Nat) :
    clmulBits k a (b ^^^ b') = clmulBits k a b ^^^ clmulBits k a b' := by
  induction k with
  | zero => simp [clmulBits]
  | succ k ih =>
    rw [clmulBits_succ, clmulBits_succ, clmulBits_succ, ih]
    cases a.testBit k <;>
      simp [Nat.shiftLeft_xor_distrib, Nat.xor_assoc, Nat.xor_comm, Nat.xor_left_comm]

theorem clmulBits_shiftLeft_right (k a b n : Nat) :
    clmulBits k a (b <<< n) = clmulBits k a b <<< n := by
  induction k with
  | zero => simp [clmulBits]
  | succ k ih =>
    rw [clmulBits_succ, clmulBits_succ, ih, Nat.shiftLeft_xor_distrib]
    cases a.testBit k <;> simp [← Nat.shiftLeft_add, Nat.add_comm]

theorem lt_pow_of_le_log2 {a k : Nat} (h : a.log2 < k) : a < 2 ^ k :=
  lt_of_lt_of_le Nat.lt_log2_self (Nat.pow_le_pow_right (by norm_num) h)

/-- R18: the product distributes over exclusive or on the left. -/
theorem clmul_xor_left (a a' b : Nat) : clmul (a ^^^ a') b = clmul a b ^^^ clmul a' b := by
  have h1 : a < 2 ^ (a.log2 + a'.log2 + 1) := lt_pow_of_le_log2 (by omega)
  have h2 : a' < 2 ^ (a.log2 + a'.log2 + 1) := lt_pow_of_le_log2 (by omega)
  rw [clmul_eq_clmulBits b h1, clmul_eq_clmulBits b h2,
    clmul_eq_clmulBits b (Nat.xor_lt_two_pow h1 h2), clmulBits_xor_left]

/-- R18: the product distributes over exclusive or on the right. -/
theorem clmul_xor_right (a b b' : Nat) : clmul a (b ^^^ b') = clmul a b ^^^ clmul a b' :=
  clmulBits_xor_right _ a b b'

theorem clmul_shiftLeft_right (a b n : Nat) : clmul a (b <<< n) = clmul a b <<< n :=
  clmulBits_shiftLeft_right _ a b n

theorem clmul_zero_left (b : Nat) : clmul 0 b = 0 := by
  rw [clmul_eq_clmulBits (k := 0) b (by norm_num)]
  rfl

theorem clmul_zero_right (a : Nat) : clmul a 0 = 0 := by
  have : ∀ k, clmulBits k a 0 = 0 := by
    intro k
    induction k with
    | zero => rfl
    | succ k ih =>
      rw [clmulBits_succ, ih]
      simp
  exact this _

/-- R18: multiplication by the monomial `x^i`. -/
theorem clmul_two_pow (i b : Nat) : clmul (2 ^ i) b = b <<< i := by
  have hlt : 2 ^ i < 2 ^ (i + 1) := Nat.pow_lt_pow_right (by norm_num) (by omega)
  rw [clmul_eq_clmulBits b hlt, clmulBits_succ, Nat.testBit_two_pow_self]
  have : ∀ k, k ≤ i → clmulBits k (2 ^ i) b = 0 := by
    intro k hk
    induction k with
    | zero => rfl
    | succ k ih =>
      rw [clmulBits_succ, ih (by omega), Nat.testBit_two_pow_of_ne (by omega)]
      simp
  rw [this i le_rfl]
  simp

/-! ### Degrees -/

theorem testBit_deg {p : Nat} (h : p ≠ 0) : p.testBit (deg p) = true := by
  apply Nat.testBit_of_two_pow_le_and_two_pow_add_one_gt
  · exact Nat.log2_self_le h
  · exact Nat.lt_log2_self

/-- Two polynomials of the same degree cancel their top terms. -/
theorem xor_lt_of_testBit {x y k : Nat} (hx : x < 2 ^ (k + 1)) (hy : y < 2 ^ (k + 1))
    (hxk : x.testBit k = true) (hyk : y.testBit k = true) : x ^^^ y < 2 ^ k := by
  apply Nat.lt_pow_two_of_testBit
  intro i hi
  rw [Nat.testBit_xor]
  rcases Nat.eq_or_lt_of_le hi with h | h
  · rw [← h, hxk, hyk]
    rfl
  · have hle : 2 ^ (k + 1) ≤ 2 ^ i := Nat.pow_le_pow_right (by norm_num) h
    rw [Nat.testBit_lt_two_pow (by omega), Nat.testBit_lt_two_pow (by omega)]
    rfl

theorem testBit_of_degree_add {m n : Nat} (h : m ≠ 0) : (m <<< n).testBit (deg m + n) = true := by
  rw [Nat.testBit_shiftLeft]
  simp [testBit_deg h]

theorem shiftLeft_lt_of_degree (m n : Nat) : m <<< n < 2 ^ (deg m + n + 1) := by
  have h : m < 2 ^ (deg m + 1) := Nat.lt_log2_self
  rw [Nat.shiftLeft_eq, show deg m + n + 1 = deg m + 1 + n by ring, Nat.pow_add 2 (deg m + 1)]
  exact Nat.mul_lt_mul_of_pos_right h (Nat.pow_pos (by norm_num))

/-- One step of the reduction loop lowers the remainder below its own top term. -/
theorem reduceStep_lt {m r : Nat} (hm : m ≠ 0) (hr : r ≠ 0) (h : deg m ≤ deg r) :
    r ^^^ (m <<< (deg r - deg m)) < 2 ^ deg r := by
  have e : deg m + (deg r - deg m) = deg r := by omega
  apply xor_lt_of_testBit
  · exact Nat.lt_log2_self
  · have := shiftLeft_lt_of_degree m (deg r - deg m)
    rwa [e] at this
  · exact testBit_deg hr
  · have := testBit_of_degree_add (n := deg r - deg m) hm
    rwa [e] at this

/-! ### The reduction loop (R274) -/

/-- What the loop takes away is a carry-less multiple of the modulus. -/
theorem reduceLoop_congruent (m fuel r : Nat) :
    ∃ q, r ^^^ reduceLoop m fuel r = clmul q m := by
  induction fuel generalizing r with
  | zero => exact ⟨0, by rw [reduceLoop, Nat.xor_self, clmul_zero_left]⟩
  | succ fuel ih =>
    rw [reduceLoop]
    split
    · obtain ⟨q, hq⟩ := ih (r ^^^ (m <<< (deg r - deg m)))
      refine ⟨2 ^ (deg r - deg m) ^^^ q, ?_⟩
      rw [clmul_xor_left, clmul_two_pow, ← hq]
      simp [Nat.xor_assoc, Nat.xor_left_comm]
    · exact ⟨0, by rw [Nat.xor_self, clmul_zero_left]⟩

/-- For a modulus of degree at least 1 the loop ends in a remainder of smaller degree. -/
theorem reduceLoop_degree {m : Nat} (hm : 2 ≤ m) (fuel r : Nat) (h : r < 2 ^ fuel) :
    deg (reduceLoop m fuel r) < deg m := by
  have hdm : 0 < deg m := (Nat.le_log2 (by omega)).2 (by omega)
  induction fuel generalizing r with
  | zero =>
    have : r = 0 := by omega
    subst this
    simpa [reduceLoop, deg] using hdm
  | succ fuel ih =>
    rw [reduceLoop]
    split
    · next hc =>
      apply ih
      have h1 := reduceStep_lt (by omega) hc.1 hc.2
      have h2 : deg r ≤ fuel := by
        have := (Nat.log2_lt hc.1).2 h
        unfold deg
        omega
      exact lt_of_lt_of_le h1 (Nat.pow_le_pow_right (by norm_num) h2)
    · next hc =>
      by_cases h0 : r = 0
      · subst h0
        simpa [deg] using hdm
      · have : ¬ deg m ≤ deg r := fun h' => hc ⟨h0, h'⟩
        omega

/-- R18, R274: `pmod` takes away a carry-less multiple of the modulus. -/
theorem pmod_congruent (a m : Nat) : ∃ q, a ^^^ pmod a m = clmul q m := reduceLoop_congruent m _ a

/-- R18, R274: the remainder has a smaller degree than the modulus. -/
theorem pmod_degree (a : Nat) {m : Nat} (hm : 2 ≤ m) : deg (pmod a m) < deg m :=
  reduceLoop_degree hm _ a Nat.lt_log2_self

/-- The remainder is smaller than the modulus as a number, so it fits where the modulus fits. -/
theorem pmod_lt (a : Nat) {m : Nat} (hm : 2 ≤ m) : pmod a m < m := by
  have h1 : pmod a m < 2 ^ deg m := lt_pow_of_le_log2 (pmod_degree a hm)
  have h2 : 2 ^ deg m ≤ m := Nat.log2_self_le (by omega)
  omega

end Sys2Proof.Machine
end

