-- ==== Sys2Proof/Laws/PerInstr.lean ====
section
/-! SUPPORT. Per command: its encoded word is a word of its own row of the opcode map
(30_encoding.md R102, R105). -/

namespace Sys2Proof.Laws.RowMatch

/-- The encoded word, under the row's mask, is the row's pattern. -/
def Statement (i : Instr) : Prop := encode i &&& i.row.mask = i.row.pattern

theorem append_and {m n : Nat} (x x' : BitVec m) (y y' : BitVec n) :
    (x ++ y) &&& (x' ++ y') = (x &&& x') ++ (y &&& y') := BitVec.and_append

theorem commandWord_and (p p' : BitVec 8) (d d' a a' b b' c c' : BitVec 4) (z z' : BitVec 8) :
    commandWord p d a b c z &&& commandWord p' d' a' b' c' z'
      = commandWord (p &&& p') (d &&& d') (a &&& a') (b &&& b') (c &&& c') (z &&& z') := by
  change ((p ++ d ++ a ++ b ++ c ++ z : BitVec (8 + 4 + 4 + 4 + 4 + 8))
    &&& (p' ++ d' ++ a' ++ b' ++ c' ++ z')) = _
  rw [append_and, append_and, append_and, append_and, append_and]
  rfl

theorem shiftWord_and (p p' : BitVec 8) (d d' a a' : BitVec 4) (n n' : BitVec 16) :
    shiftWord p d a n &&& shiftWord p' d' a' n'
      = shiftWord (p &&& p') (d &&& d') (a &&& a') (n &&& n') := by
  change ((p ++ d ++ a ++ n : BitVec (8 + 4 + 4 + 16)) &&& (p' ++ d' ++ a' ++ n')) = _
  rw [append_and, append_and, append_and]
  rfl

theorem unimplWord_and (p p' : BitVec 8) (n n' : BitVec 24) :
    unimplWord p n &&& unimplWord p' n' = unimplWord (p &&& p') (n &&& n') := by
  change ((p ++ n : BitVec (8 + 24)) &&& (p' ++ n')) = _
  rw [append_and]
  rfl

theorem and_zero_literal {n : Nat} (x : BitVec n) : x &&& 0 = 0 := BitVec.and_zero

theorem maskF0 : (0xFFFFFFFF : Word) = commandWord 0xFF 0xF 0xF 0xF 0xF 0xFF := by decide

theorem maskFDAB : (0xFF000FFF : Word) = commandWord 0xFF 0 0 0 0xF 0xFF := by decide

theorem maskFDA : (0xFF00FFFF : Word) = commandWord 0xFF 0 0 0xF 0xF 0xFF := by decide

theorem maskFDABC : (0xFF0000FF : Word) = commandWord 0xFF 0 0 0 0 0xFF := by decide

theorem maskFN : (0xFF0FFFFF : Word) = commandWord 0xFF 0 0xF 0xF 0xF 0xFF := by decide

theorem maskFAB : (0xFFF00FFF : Word) = commandWord 0xFF 0xF 0 0 0xF 0xFF := by decide

theorem maskFS : (0xFF000000 : Word) = shiftWord 0xFF 0 0 0 := by decide

theorem maskFU : (0xFF000000 : Word) = unimplWord 0xFF 0 := by decide

theorem maskFA : (0xFFF0FFFF : Word) = commandWord 0xFF 0xF 0 0xF 0xF 0xFF := by decide

theorem maskFDAC : (0xFF00F0FF : Word) = commandWord 0xFF 0 0 0xF 0 0xFF := by decide

theorem nop : Statement .nop := by
  unfold Statement
  decide

theorem wmul (d a b : Idx) : Statement (.wmul d a b) := by
  simp only [Statement, encode, Instr.row, maskFDAB, commandWord_and, and_zero_literal]
  decide

theorem wsqr (d a : Idx) : Statement (.wsqr d a) := by
  simp only [Statement, encode, Instr.row, maskFDA, commandWord_and, and_zero_literal]
  decide

theorem wdmul (d a b : Idx) : Statement (.wdmul d a b) := by
  simp only [Statement, encode, Instr.row, maskFDAB, commandWord_and, and_zero_literal]
  decide

theorem wmac (d a b c : Idx) : Statement (.wmac d a b c) := by
  simp only [Statement, encode, Instr.row, maskFDABC, commandWord_and, and_zero_literal]
  decide

theorem wmsb (d a : Idx) : Statement (.wmsb d a) := by
  simp only [Statement, encode, Instr.row, maskFDA, commandWord_and, and_zero_literal]
  decide

theorem wdiv (d a b : Idx) : Statement (.wdiv d a b) := by
  simp only [Statement, encode, Instr.row, maskFDAB, commandWord_and, and_zero_literal]
  decide

theorem wmod (d a b : Idx) : Statement (.wmod d a b) := by
  simp only [Statement, encode, Instr.row, maskFDAB, commandWord_and, and_zero_literal]
  decide

theorem norm (d : Idx) : Statement (.norm d) := by
  simp only [Statement, encode, Instr.row, maskFN, commandWord_and, and_zero_literal]
  decide

theorem acmp (a b : Idx) : Statement (.acmp a b) := by
  simp only [Statement, encode, Instr.row, maskFAB, commandWord_and, and_zero_literal]
  decide

theorem cmp (a b : Idx) : Statement (.cmp a b) := by
  simp only [Statement, encode, Instr.row, maskFAB, commandWord_and, and_zero_literal]
  decide

theorem rsh (d a : Idx) (shamt : BitVec 16) : Statement (.rsh d a shamt) := by
  simp only [Statement, encode, Instr.row, maskFS, shiftWord_and, and_zero_literal]
  decide

theorem lsh (d a : Idx) (shamt : BitVec 16) : Statement (.lsh d a shamt) := by
  simp only [Statement, encode, Instr.row, maskFS, shiftWord_and, and_zero_literal]
  decide

theorem aadd (d a b : Idx) : Statement (.aadd d a b) := by
  simp only [Statement, encode, Instr.row, maskFDAB, commandWord_and, and_zero_literal]
  decide

theorem asub (d a b : Idx) : Statement (.asub d a b) := by
  simp only [Statement, encode, Instr.row, maskFDAB, commandWord_and, and_zero_literal]
  decide

theorem add (d a b : Idx) : Statement (.add d a b) := by
  simp only [Statement, encode, Instr.row, maskFDAB, commandWord_and, and_zero_literal]
  decide

theorem sub (d a b : Idx) : Statement (.sub d a b) := by
  simp only [Statement, encode, Instr.row, maskFDAB, commandWord_and, and_zero_literal]
  decide

theorem mul (d a b : Idx) : Statement (.mul d a b) := by
  simp only [Statement, encode, Instr.row, maskFDAB, commandWord_and, and_zero_literal]
  decide

theorem kmul (d a b : Idx) : Statement (.kmul d a b) := by
  simp only [Statement, encode, Instr.row, maskFDAB, commandWord_and, and_zero_literal]
  decide

theorem sqr (d a : Idx) : Statement (.sqr d a) := by
  simp only [Statement, encode, Instr.row, maskFDA, commandWord_and, and_zero_literal]
  decide

theorem bred (d a b c : Idx) : Statement (.bred d a b c) := by
  simp only [Statement, encode, Instr.row, maskFDABC, commandWord_and, and_zero_literal]
  decide

theorem mont (ignored : BitVec 24) : Statement (.mont ignored) := by
  simp only [Statement, encode, Instr.row, maskFU, unimplWord_and, and_zero_literal]
  decide

theorem gdeg (a : Idx) : Statement (.gdeg a) := by
  simp only [Statement, encode, Instr.row, maskFA, commandWord_and, and_zero_literal]
  decide

theorem grsh (d a : Idx) (shamt : BitVec 16) : Statement (.grsh d a shamt) := by
  simp only [Statement, encode, Instr.row, maskFS, shiftWord_and, and_zero_literal]
  decide

theorem glsh (d a : Idx) (shamt : BitVec 16) : Statement (.glsh d a shamt) := by
  simp only [Statement, encode, Instr.row, maskFS, shiftWord_and, and_zero_literal]
  decide

theorem gadd (d a b : Idx) : Statement (.gadd d a b) := by
  simp only [Statement, encode, Instr.row, maskFDAB, commandWord_and, and_zero_literal]
  decide

theorem gred (d a c : Idx) : Statement (.gred d a c) := by
  simp only [Statement, encode, Instr.row, maskFDAC, commandWord_and, and_zero_literal]
  decide

theorem gmul (d a b c : Idx) : Statement (.gmul d a b c) := by
  simp only [Statement, encode, Instr.row, maskFDABC, commandWord_and, and_zero_literal]
  decide

theorem gdiv (ignored : BitVec 24) : Statement (.gdiv ignored) := by
  simp only [Statement, encode, Instr.row, maskFU, unimplWord_and, and_zero_literal]
  decide

theorem gsqr (ignored : BitVec 24) : Statement (.gsqr ignored) := by
  simp only [Statement, encode, Instr.row, maskFU, unimplWord_and, and_zero_literal]
  decide

end Sys2Proof.Laws.RowMatch
end

