-- ==== Sys2Proof/Tests/Slice0.lean ====
section
/-! SUPPORT. The model's own tests: the decoding of words written out from R101, R102 and R105, one-step
tests with the expected results of 95_test_vectors.md, bus tests, and a witness for the hypotheses of
every statement that has some. -/

namespace Sys2Proof.Tests

open Sys2Proof.Machine

set_option Elab.async false

/-! ### Small machines and reading their outcomes -/

/-- A machine of `cap`-word slots with its window at `0x40000000`, right after reset. -/
def machine (cap : Nat) : State := State.resetWith ⟨cap, 0x40000000, false, 0⟩

/-- `sl` holds the words `ws` and the sign code `sign`, zeros above. -/
def slotOf (cap : Nat) (sign : BitVec 2) (ws : List Word) : Slot :=
  { len := BitVec.ofNat 16 ws.length, sign := sign, dig := ws ++ List.replicate (cap - ws.length) 0 }

/-- The machine with the words `ws` and the sign code `sign` in slot `j`. -/
def put (j : Idx) (sign : BitVec 2) (ws : List Word) (s : State) : State :=
  s.setSlot j (slotOf s.params.cap sign ws)

/-- The machine with `v` in the scalar register `k`. -/
def putX (k : Idx) (v : Word) (s : State) : State := s.setReg k v

/-- The next state, if there is one. -/
def nextOf (r : Result) : Option State :=
  match r with
  | .next t => some t
  | .fault _ => none
  | .refused _ => none

/-- The code of a command and the words and sign of a slot after it. -/
def slotAfter (i : Instr) (d : Idx) (s : State) : Option (ErrorCode × BitVec 2 × List Word) :=
  (nextOf (exec i s)).map fun t =>
    (t.err, (t.slot d).sign, (t.slot d).dig.take (t.slot d).len.toNat)

/-- The code of a command and two scalar registers after it. -/
def regsAfter (i : Instr) (j k : Idx) (s : State) : Option (ErrorCode × Word × Word) :=
  (nextOf (exec i s)).map fun t => (t.err, t.reg j, t.reg k)

/-- The code of a command and `RESULT` after it. -/
def resultAfter (i : Instr) (s : State) : Option (ErrorCode × Word) :=
  (nextOf (exec i s)).map fun t => (t.err, t.result)

/-- What a run of `n` steps leaves. -/
def runs (n : Nat) (s : State) : Option State := nextOf (core.run n s)

/-! ### Decoding: words written out from R101, R102 and R105 -/

theorem test_decode_nop : decode 0b00000000000000000000000000000000 = .ok .nop := rfl

theorem test_decode_word_layer :
    decode 0b00010000001000000001000000000000 = .ok (.wmul 2 0 1)
      ∧ decode 0b00010001010000000000000000000000 = .ok (.wsqr 4 0)
      ∧ decode 0b00010010010100000001000000000000 = .ok (.wdmul 5 0 1)
      ∧ decode 0b00010011001000000001010000000000 = .ok (.wmac 2 0 1 4)
      ∧ decode 0b00010100000100000000000000000000 = .ok (.wmsb 1 0)
      ∧ decode 0b00010101001000000001000000000000 = .ok (.wdiv 2 0 1)
      ∧ decode 0b00010110001100000001000000000000 = .ok (.wmod 3 0 1) :=
  ⟨rfl, rfl, rfl, rfl, rfl, rfl, rfl⟩

theorem test_decode_normalize_compare_shift :
    decode 0b00100000000100000000000000000000 = .ok (.norm 1)
      ∧ decode 0b00100001000000100011000000000000 = .ok (.acmp 2 3)
      ∧ decode 0b00100010000000100011000000000000 = .ok (.cmp 2 3)
      ∧ decode 0b00100011000100101000000000000001 = .ok (.rsh 1 2 0x8001)
      ∧ decode 0b00100100000100100000111111111111 = .ok (.lsh 1 2 4095) :=
  ⟨rfl, rfl, rfl, rfl, rfl⟩

theorem test_decode_adder :
    decode 0b00110000001000000001000000000000 = .ok (.aadd 2 0 1)
      ∧ decode 0b00110001001000000001000000000000 = .ok (.asub 2 0 1)
      ∧ decode 0b00110010001000000001000000000000 = .ok (.add 2 0 1)
      ∧ decode 0b00110011001000000001000000000000 = .ok (.sub 2 0 1) :=
  ⟨rfl, rfl, rfl, rfl⟩

theorem test_decode_multiplier :
    decode 0b01000000001000000001000000000000 = .ok (.mul 2 0 1)
      ∧ decode 0b01000001111100001110000000000000 = .ok (.kmul 15 0 14)
      ∧ decode 0b01000010000110000000000000000000 = .ok (.sqr 1 8) :=
  ⟨rfl, rfl, rfl⟩

theorem test_decode_barrett :
    decode 0b01010000001100000001001000000000 = .ok (.bred 3 0 1 2)
      ∧ decode 0b01010001100000000000000000000001 = .ok (.mont 0x800001) :=
  ⟨rfl, rfl⟩

theorem test_decode_gf :
    decode 0b01100000000010010000000000000000 = .ok (.gdeg 9)
      ∧ decode 0b01100001000100000000000000000100 = .ok (.grsh 1 0 4)
      ∧ decode 0b01100010000100000000000000000001 = .ok (.glsh 1 0 1)
      ∧ decode 0b01100011001000000001000000000000 = .ok (.gadd 2 0 1)
      ∧ decode 0b01100100000100000000001000000000 = .ok (.gred 1 0 2)
      ∧ decode 0b01100101001100000001001000000000 = .ok (.gmul 3 0 1 2)
      ∧ decode 0b01100110000100100011010000000000 = .ok (.gdiv 0x123400)
      ∧ decode 0b01100111000000000000000000000000 = .ok (.gsqr 0) :=
  ⟨rfl, rfl, rfl, rfl, rfl, rfl, rfl, rfl⟩

/-- Vectors E2-E8, E13. -/
theorem test_decode_illegal :
    decode 0x00000001 = .error .fieldNotZero ∧ decode 0x01000000 = .error .unassignedOpcode
      ∧ decode 0xFF000000 = .error .unassignedOpcode ∧ decode 0x30201001 = .error .fieldNotZero
      ∧ decode 0x21101000 = .error .fieldNotZero ∧ decode 0x20110000 = .error .fieldNotZero
      ∧ decode 0x64101200 = .error .fieldNotZero ∧ decode 0x68000000 = .error .unassignedOpcode :=
  ⟨rfl, rfl, rfl, rfl, rfl, rfl, rfl, rfl⟩

/-- The byte lanes of R77, lane 0 first: `AADD s2, s0, s1`, and a word cut short. -/
theorem test_decode_bytes :
    decodeBytes [0x00, 0x10, 0x20, 0x30, 0xAA] = .ok (.aadd 2 0 1, [0xAA])
      ∧ decodeBytes [0x00, 0x10, 0x20] = .error .truncated :=
  ⟨rfl, rfl⟩

/-- No two rows of the opcode map have the same opcode. -/
theorem test_opcode_rows_apart : (opcodeRows.map fun r => r.pattern.toNat / 2 ^ 24).Nodup := by
  decide

/-! ### Well-formedness: a term that fails each check -/

theorem test_wf_refuses_mont_bits : (Instr.mont 1).wf = false := by decide

theorem test_wf_refuses_gdiv_bits : (Instr.gdiv 0x123400).wf = false := by decide

theorem test_wf_refuses_gsqr_bits : (Instr.gsqr 0xFFFFFF).wf = false := by decide

theorem test_wf_refuses_neg_in_place : (Pseudo.neg 3 3).wf = false := by decide

theorem test_wf_accepts : (Instr.mont 0).wf = true ∧ (Pseudo.neg 3 4).wf = true := by decide

/-! ### Assembler (R108, R109) -/

theorem test_assemble_hex_shamt :
    assembleLine "LSH s4, s3, 0xFFFF".toList = some [0x2443FFFF] := by decide +kernel

theorem test_assemble_neg :
    assembleLine "NEG s2, s15".toList = some [0x332FF000, 0x3322F000]
      ∧ assembleLine "NEG s2, s2".toList = none := by decide +kernel

theorem test_assemble_refuses :
    assembleLine "AADD s2, s0".toList = none ∧ assembleLine "AADD s16, s0, s1".toList = none
      ∧ assembleLine "WMUL s2, s0, s1".toList = none
      ∧ assembleLine "RSH s0, s0, 65536".toList = none := by decide +kernel

theorem test_assemble_word : assembleLine ".word 0x00000001".toList = some [0x00000001] := by
  decide +kernel

/-! ### Word layer (vectors W1-W21) -/

theorem test_wmul :
    regsAfter (.wmul 2 0 1) 2 3 (putX 0 0x12345678 (putX 1 0x9ABCDEF0 (machine 1)))
      = some (.ok, 0x242D2080, 0x0B00EA4E) := by decide +kernel

theorem test_wmul_wraps_to_x0 :
    regsAfter (.wmul 15 0 1) 15 0 (putX 0 2 (putX 1 0x80000000 (machine 1)))
      = some (.ok, 0, 1) := by decide +kernel

theorem test_wsqr :
    regsAfter (.wsqr 4 0) 4 5 (putX 0 0x0000FFFF (machine 1)) = some (.ok, 0xFFFE0001, 0) := by
  decide +kernel

theorem test_wdmul :
    regsAfter (.wdmul 5 0 1) 5 6 (putX 0 0xFFFFFFFF (putX 1 0xFFFFFFFF (machine 1)))
      = some (.ok, 0x00000002, 0xFFFFFFFC) := by decide +kernel

theorem test_wdmul_third_word :
    regsAfter (.wdmul 5 0 1) 7 8 (putX 0 0xFFFFFFFF (putX 1 0xFFFFFFFF (machine 1)))
      = some (.ok, 0x00000001, 0) := by decide +kernel

theorem test_wmac :
    regsAfter (.wmac 2 0 1 4) 2 3
        (putX 0 0x12345678 (putX 1 0x9ABCDEF0 (putX 2 1 (putX 4 0xFFFFFFFF (machine 1)))))
      = some (.ok, 0x242D2080, 0x0B00EA4F) := by decide +kernel

theorem test_wmac_addend_is_high_destination :
    regsAfter (.wmac 2 0 1 3) 2 3 (putX 0 2 (putX 1 3 (putX 2 4 (putX 3 5 (machine 1)))))
      = some (.ok, 0x0000000F, 0) := by decide +kernel

theorem test_wmsb :
    regsAfter (.wmsb 1 0) 1 0 (putX 0 0x00012345 (machine 1)) = some (.ok, 16, 0x00012345) := by
  decide +kernel

theorem test_wmsb_zero :
    regsAfter (.wmsb 1 0) 1 0 (putX 1 9 (machine 1)) = some (.zero, 9, 0) := by decide +kernel

theorem test_wdiv :
    regsAfter (.wdiv 2 0 1) 2 0 (putX 0 4095 (putX 1 32 (machine 1))) = some (.ok, 127, 4095) := by
  decide +kernel

theorem test_wdiv_by_zero :
    regsAfter (.wdiv 2 0 1) 2 0 (putX 0 5 (putX 2 9 (machine 1))) = some (.zero, 9, 5) := by
  decide +kernel

theorem test_wmod :
    regsAfter (.wmod 3 0 1) 3 0 (putX 0 4095 (putX 1 32 (machine 1))) = some (.ok, 31, 4095) := by
  decide +kernel

/-! ### No-op, normalise, compare, shift (vectors E1, N1-N7, C1-C10, H1-H12) -/

theorem test_nop : resultAfter .nop (machine 1) = some (.ok, 0) := by decide +kernel

/-- N2 and N3. -/
theorem test_norm :
    slotAfter (.norm 1) 1 (put 1 2 [0, 0, 0, 0, 0] (machine 6)) = some (.ok, 0, [])
      ∧ slotAfter (.norm 1) 1 (put 1 0 [5] (machine 6)) = some (.ok, 1, [5]) := by decide +kernel

/-- N7: the word the host left above `len` becomes 0. -/
theorem test_norm_clears_above :
    (nextOf (exec (.norm 1) ((put 1 1 [1, 2] (machine 6)).setDigit 1 5 9))).map
        (fun t => (t.slot 1).dig) = some [1, 2, 0, 0, 0, 0] := by decide +kernel

/-- C1 and C2. -/
theorem test_acmp :
    resultAfter (.acmp 0 1) (put 0 2 [5] (put 1 1 [5] (machine 4))) = some (.ok, 0x00000000)
      ∧ resultAfter (.acmp 0 1) (put 0 1 [3] (put 1 1 [7] (machine 4)))
          = some (.ok, 0xFFFFFFFF) := by decide +kernel

/-- C6 and C7. -/
theorem test_cmp :
    resultAfter (.cmp 2 3) (put 2 2 [5] (put 3 2 [3] (machine 4))) = some (.ok, 0xFFFFFFFF)
      ∧ resultAfter (.cmp 2 3) (put 3 2 [1] (machine 4)) = some (.ok, 0x00000001) := by
  decide +kernel

/-- H1. -/
theorem test_rsh :
    slotAfter (.rsh 1 0 4) 1 (put 0 1 [0xFEDCBA98, 0x89ABCDEF, 0x01234567] (machine 4))
      = some (.ok, 1, [0xFFEDCBA9, 0x789ABCDE, 0x00123456]) := by decide +kernel

/-- H5. -/
theorem test_rsh_negative :
    slotAfter (.rsh 1 0 1) 1 (put 0 2 [3] (machine 4)) = some (.ok, 2, [1]) := by decide +kernel

/-- H3. -/
theorem test_lsh :
    slotAfter (.lsh 1 0 36) 1 (put 0 1 [0xFEDCBA98, 0x89ABCDEF, 0x01234567] (machine 4))
      = some (.ok, 1, [0x00000000, 0xEDCBA980, 0x9ABCDEFF, 0x12345678]) := by decide +kernel

/-- H9 and H10, for `CAP = 4`. -/
theorem test_lsh_capacity :
    slotAfter (.lsh 2 0 128) 2 (put 0 1 [1] (put 2 1 [7] (machine 4))) = some (.capacity, 1, [7])
      ∧ slotAfter (.lsh 4 3 65535) 4 (machine 4) = some (.ok, 0, []) := by decide +kernel

/-! ### Adder (vectors A1-A21) -/

/-- A1 and A3. -/
theorem test_aadd :
    slotAfter (.aadd 2 0 1) 2 (put 0 1 [0xFFFFFFFF] (put 1 1 [1] (machine 4)))
        = some (.ok, 1, [0, 1])
      ∧ slotAfter (.aadd 2 0 1) 2 (put 0 2 [3] (put 1 1 [5] (machine 4))) = some (.ok, 1, [8]) := by
  decide +kernel

/-- A4 and A21. -/
theorem test_aadd_errors :
    slotAfter (.aadd 2 0 1) 2 (put 0 1 [5] (put 1 1 [5, 1] (machine 4))) = some (.order, 0, [])
      ∧ slotAfter (.aadd 2 0 1) 2 (put 0 1 [5, 0] (put 1 1 [1, 1, 1] (machine 4)))
          = some (.malformed, 0, []) := by decide +kernel

/-- A9. -/
theorem test_asub :
    slotAfter (.asub 2 0 1) 2 (put 0 1 [0, 1] (put 1 1 [1] (machine 4)))
      = some (.ok, 1, [0xFFFFFFFF]) := by decide +kernel

/-- A10. -/
theorem test_asub_magnitude :
    slotAfter (.asub 2 0 1) 2 (put 0 1 [1] (put 1 1 [0, 1] (machine 4)))
      = some (.magnitude, 0, []) := by decide +kernel

/-- A6 and A7. -/
theorem test_add :
    slotAfter (.add 2 0 1) 2 (put 0 1 [12345] (put 1 2 [12345] (machine 4))) = some (.ok, 0, [])
      ∧ slotAfter (.add 2 0 1) 2 (put 0 1 [0, 1] (put 1 2 [1] (machine 4)))
          = some (.ok, 1, [0xFFFFFFFF]) := by decide +kernel

/-- A12 and A14. -/
theorem test_sub :
    slotAfter (.sub 2 0 1) 2 (put 0 2 [5] (put 1 2 [3] (machine 4))) = some (.ok, 2, [2])
      ∧ slotAfter (.sub 2 0 1) 2 (put 1 2 [7] (machine 4)) = some (.ok, 1, [7]) := by
  decide +kernel

/-! ### Multiplier (vectors S2, M1-M10) -/

/-- M1. -/
theorem test_mul :
    slotAfter (.mul 2 0 1) 2
        (put 0 1 [0x0F1E2D3C, 0x76543210, 0xFEDCBA98, 0x89ABCDEF, 0x01234567]
          (put 1 2 [0x12345678, 0xCAFEBABE, 0xDEADBEEF] (machine 10)))
      = some (.ok, 2, [0xA1875C20, 0x6B673872, 0xB0750964, 0xA4249712, 0x891FF42A, 0x5C7BA373,
          0xEEB2A01E, 0x00FD5BDE]) := by decide +kernel

/-- M10: `KMUL s0, s0, s0`. -/
theorem test_kmul :
    slotAfter (.kmul 0 0 0) 0
        (put 0 1 [0xFFFFFFFF, 0xFFFFFFFF, 0xFFFFFFFF, 0xFFFFFFFF] (machine 8))
      = some (.ok, 1, [1, 0, 0, 0, 0xFFFFFFFE, 0xFFFFFFFF, 0xFFFFFFFF, 0xFFFFFFFF]) := by
  decide +kernel

/-- M4. -/
theorem test_sqr :
    slotAfter (.sqr 1 0) 1
        (put 0 2 [0x0F1E2D3C, 0x76543210, 0xFEDCBA98, 0x89ABCDEF, 0x01234567] (machine 10))
      = some (.ok, 1, [0xAA0E2610, 0xADB5A45B, 0x4EF4EBAA, 0x31F8EE8A, 0xE8F4CA02, 0x424AD884,
          0xEBE253A6, 0xDEE9D609, 0xDC33F6AC, 0x00014B66]) := by decide +kernel

/-! ### Barrett (vectors B1-B24) -/

/-- B12: the underflow is corrected. -/
theorem test_bred_underflow :
    slotAfter (.bred 3 0 1 2) 3
        (put 0 1 [0, 0, 0, 0x90000000] (put 1 1 [0x00000001, 0xC0000000]
          (put 2 1 [0x55555553, 0x55555555, 0x00000001] (machine 4))))
      = some (.ok, 1, [1]) := by decide +kernel

/-- B18: with a wrong constant the result is 4, not 2. -/
theorem test_bred_wrong_constant :
    slotAfter (.bred 3 0 1 2) 3
        (put 0 1 [100] (put 1 1 [7] (put 2 1 [0, 0, 0, 1] (machine 4))))
      = some (.ok, 1, [4]) := by decide +kernel

/-- B24. -/
theorem test_mont : resultAfter (.mont 0) (machine 1) = some (.unimpl, 0) := by decide +kernel

/-! ### GF(2^n) (vectors G1-G23) -/

/-- G2 (the degree of `I163`) and G3. -/
theorem test_gdeg :
    resultAfter (.gdeg 0) (put 0 1 [0x000000C9, 0, 0, 0, 0, 0x00000008] (machine 6))
        = some (.ok, 163)
      ∧ resultAfter (.gdeg 0) (put 0 3 [2] (machine 6)) = some (.ok, 1) := by decide +kernel

/-- G5. -/
theorem test_grsh :
    slotAfter (.grsh 1 0 4) 1 (put 0 1 [0xFEDCBA98, 0x89ABCDEF, 0x01234567] (machine 4))
      = some (.ok, 1, [0xFFEDCBA9, 0x789ABCDE, 0x00123456]) := by decide +kernel

/-- G6, the second part for `CAP = 4`. -/
theorem test_glsh :
    slotAfter (.glsh 1 0 1) 1 (put 0 1 [0x80000000] (machine 4)) = some (.ok, 1, [0, 1])
      ∧ slotAfter (.glsh 1 0 128) 1 (put 0 1 [1] (machine 4)) = some (.capacity, 0, []) := by
  decide +kernel

/-- S4 and G7. -/
theorem test_gadd :
    slotAfter (.gadd 2 0 1) 2 (put 0 1 [0xA] (put 1 1 [0x6] (machine 4))) = some (.ok, 1, [0xC])
      ∧ slotAfter (.gadd 2 0 1) 2 (put 0 1 [1, 5] (put 1 1 [0, 5] (machine 4)))
          = some (.ok, 1, [1]) := by decide +kernel

/-- G10. -/
theorem test_gred :
    slotAfter (.gred 1 0 2) 1
        (put 0 1 [1, 0, 0, 0x80000000] (put 2 1 [0x0000001B, 0, 1] (machine 4)))
      = some (.ok, 1, [0x000000AE, 0x80000000]) := by decide +kernel

/-- G21. -/
theorem test_gred_modulus :
    slotAfter (.gred 1 0 2) 1 (put 0 1 [5] (put 2 1 [1] (machine 4)))
      = some (.modulus, 0, []) := by decide +kernel

/-- G16: the fast path for one is reduced as well. -/
theorem test_gmul_one :
    slotAfter (.gmul 3 0 1 2) 3 (put 0 1 [1] (put 1 1 [0x1FF] (put 2 1 [0x11B] (machine 1))))
      = some (.ok, 1, [0xE4]) := by decide +kernel

/-- G12. -/
theorem test_gmul :
    slotAfter (.gmul 3 0 1 2) 3 (put 0 1 [0x57] (put 1 1 [0x83] (put 2 1 [0x11B] (machine 1))))
      = some (.ok, 1, [0xC1]) := by decide +kernel

/-- G23. -/
theorem test_gdiv : resultAfter (.gdiv 0) (machine 1) = some (.unimpl, 0) := by decide +kernel

/-- G23. -/
theorem test_gsqr : resultAfter (.gsqr 0) (machine 1) = some (.unimpl, 0) := by decide +kernel

/-! ### Bus protocol (vectors P-1 to P-15) -/

/-- The machine of one-word slots with the given events to come. -/
def facing (events : List Event) : State := { machine 1 with events := events }

/-- A read and a write at an offset of the window of these machines. -/
def rd (off : Nat) : Event := .host (.read (0x40000000 + off) .w32)

/-- See `rd`. -/
def wr (off : Nat) (v : Word) : Event := .host (.write (0x40000000 + off) .w32 v)

/-- P-1, P-2, for `CAP = 1`. -/
theorem test_bus_identity :
    (runs 1 (facing [rd 0x00000])).map (·.readData) = some 0x43484C42
      ∧ (runs 1 (facing [rd 0x00004])).map (·.readData) = some 0x00011020 := by decide +kernel

/-- P-4. -/
theorem test_bus_completion :
    (runs 4 (facing [wr 0x00008 1, wr 0x00010 0, .sequencer, rd 0x0000C])).map
        (fun t => (t.readData, t.irq)) = some (0x00000002, true) := by decide +kernel

/-- P-6. -/
theorem test_bus_illegal :
    (runs 3 (facing [wr 0x00010 0x01000000, .sequencer, rd 0x0000C])).map
        (fun t => (t.readData, t.lastCmd)) = some (0x00000012, 0x01000000) := by decide +kernel

/-- P-7. -/
theorem test_bus_overrun :
    (runs 5 (facing [wr 0x00010 0x30201000, wr 0x00010 0x40201000, wr 0x01000 7, .sequencer,
        rd 0x0000C])).map (fun t => (t.readData, t.lastCmd, t.slot 0))
      = some (0x00000006, 0x30201000, slotOf 1 0 []) := by decide +kernel

/-- P-10: the reset wins over the command in flight. -/
theorem test_bus_soft_reset :
    (runs 3 (facing [wr 0x00010 0x33333000, wr 0x00008 3])).map
        (fun t => (t.busy, t.done, t.ie, t.lastCmd)) = some (false, false, false, 0) := by
  decide +kernel

/-- P-12, and an access outside the window. -/
theorem test_bus_refused :
    step (facing [.host (.read 0x4000000C .w16)]) = .refused .accessWidth
      ∧ step (facing [rd 0x0000E]) = .refused .accessMisaligned
      ∧ step (facing [rd 0x100000]) = .refused .accessOutsideWindow := by
  refine ⟨?_, ?_, ?_⟩ <;> rfl

/-- P-13, P-14, P-15. -/
theorem test_bus_fields :
    (runs 3 (facing [wr 0x00010 0, wr 0x00000 9, rd 0x0001C])).map
        (fun t => (t.readData, t.ovr)) = some (0, false)
      ∧ (runs 2 (facing [wr 0x00204 0xFFFFFFFD, rd 0x00204])).map (·.readData) = some 1
      ∧ (runs 2 (facing [wr 0x00200 0x00012345, rd 0x00200])).map (·.readData) = some 0x2345 := by
  decide +kernel

/-- A word placed by `withFetchWord` is what the next step runs. -/
theorem test_fetch_word :
    (nextOf (step ((putX 0 3 (putX 1 5 (machine 1))).withFetchWord 32 0x10201000))).map
        (fun t => (t.err, t.reg 2, t.busy, t.done)) = some (.ok, 15, false, true) := by
  decide +kernel

/-! ### Witnesses: states and operands that meet the hypotheses of each statement, clause by clause

Named after the statement.  Where the hypotheses name a next state, the witness gives one. -/

/-- Two-word slots: s0 = `W^2 - 1`, s1 = 1, s2 = -3, s3 = 0, s4 malformed (its top word is 0), s5 with the
sign code 3, s6 = `2 W + 1`, s7 longer than `CAP`, s8 = `W`. -/
def loaded : State :=
  put 0 1 [0xFFFFFFFF, 0xFFFFFFFF] (put 1 1 [1] (put 2 2 [3] (put 4 1 [5, 0] (put 5 3 [2]
    (put 6 1 [1, 2] (put 7 1 [1, 1, 1] (put 8 1 [0, 1] (putX 0 0xFFFFFFFF (machine 2)))))))))

/-- A command in flight, with events to come. -/
def busyWith (c : Word) (events : List Event) : State :=
  { machine 1 with busy := true, lastCmd := c, events := events }

theorem witness_EncodeOfDecodeIsTheWord :
    decode 0x2312FFFF = .ok (.rsh 1 2 0xFFFF) ∧ decode 0x66FFFFFF = .ok (.gdiv 0xFFFFFF)
      ∧ decode 0x65FFFF00 = .ok (.gmul 15 15 15 15) :=
  ⟨rfl, rfl, rfl⟩

/-- A busy block at the sequencer's turn, queued or with no event left, with an illegal word or one of each
rejected opcode; the ends of the reserved ranges. -/
theorem witness_DecodeFollowsTheOpcodeMap :
    ((busyWith 0x30201001 []).busy = true ∧ (busyWith 0x30201001 []).TurnNext []
        ∧ (busyWith 0x30201001 [.sequencer, rd 0xC]).TurnNext [rd 0xC]
        ∧ decode (busyWith 0x30201001 []).lastCmd = .error .fieldNotZero)
      ∧ (fieldOpc (busyWith 0x51FFFFFF []).lastCmd).toNat = 0x51
      ∧ (fieldOpc (busyWith 0x66123400 []).lastCmd).toNat = 0x66
      ∧ (fieldOpc (busyWith 0x67000000 []).lastCmd).toNat = 0x67
      ∧ (fieldOpc 0x01000000).toNat = 0x01 ∧ (fieldOpc 0x0F000000).toNat = 0x0F
      ∧ (fieldOpc 0x17000000).toNat = 0x17 ∧ (fieldOpc 0x1FFFFFFF).toNat = 0x1F
      ∧ (fieldOpc 0x25000000).toNat = 0x25 ∧ (fieldOpc 0x2F000000).toNat = 0x2F
      ∧ (fieldOpc 0x34000000).toNat = 0x34 ∧ (fieldOpc 0x3F000000).toNat = 0x3F
      ∧ (fieldOpc 0x43000000).toNat = 0x43 ∧ (fieldOpc 0x4F000000).toNat = 0x4F
      ∧ (fieldOpc 0x52000000).toNat = 0x52 ∧ (fieldOpc 0x5F000000).toNat = 0x5F
      ∧ 0x68 ≤ (fieldOpc 0x68000000).toNat ∧ 0x68 ≤ (fieldOpc 0xFF000000).toNat := by
  refine ⟨⟨rfl, .inr ⟨rfl, rfl⟩, .inl rfl, rfl⟩, ?_⟩
  decide

theorem witness_PowerOnResetGivesTheResetValues :
    (busyWith 0x30201000 [.powerOn]).events = .powerOn :: []
      ∧ (busyWith 0x30201000 [.powerOn, rd 0]).events = .powerOn :: [rd 0] := ⟨rfl, rfl⟩

/-- `SRST` with and without `IE`, a plain write of each value, and a read. -/
theorem witness_ControlRegisterStoresEnableOrResets :
    (busyWith 0 [wr 8 2]).events = (busyWith 0 [wr 8 2]).writeAt 0x00008 2 :: []
      ∧ BitVec.getLsbD (2 : Word) 1 = true ∧ BitVec.getLsbD (0xFFFFFFFF : Word) 1 = true
      ∧ BitVec.getLsbD (0xFFFFFFFD : Word) 1 = false ∧ BitVec.getLsbD (0 : Word) 1 = false
      ∧ (facing [rd 8]).events = (facing [rd 8]).readAt 0x00008 :: [] := by
  refine ⟨rfl, ?_, ?_, ?_, ?_, rfl⟩ <;> decide

/-- The step that completes a NOP in flight: a state with the invariant and its next state. -/
theorem witness_StepKeepsTheInvariant :
    (busyWith 0 []).Inv
      ∧ step (busyWith 0 []) = .next ((busyWith 0 []).complete .ok) := by
  refine ⟨⟨by decide, by decide, fun _ => ⟨rfl, rfl⟩⟩, rfl⟩

/-- The smallest and the largest `CAP`, the last digit word of the last slot, and the ends of the reserved
ranges. -/
theorem witness_RegisterMapIsOneToOne :
    (1 ≤ 1 ∧ 1 ≤ 4096 ∧ 4096 ≤ 4096)
      ∧ regAt 1 (0x01000 + 4 * 1 * 15 + 4 * 0) = .dig 15 0
      ∧ regAt 4096 (0x01000 + 4 * 4096 * 15 + 4 * 4095) = .dig 15 4095
      ∧ regAt 4096 0x0001C = .reserved ∧ regAt 4096 0x000FC = .reserved
      ∧ regAt 4096 0x00140 = .reserved ∧ regAt 4096 0x001FC = .reserved
      ∧ regAt 4096 0x00280 = .reserved ∧ regAt 4096 0x00FFC = .reserved
      ∧ regAt 4096 (0x01000 + 64 * 4096) = .reserved ∧ regAt 1 0xFFFFC = .reserved := by decide

/-- The last offset of the window, each refused width, a misaligned offset, an accepted access. -/
theorem witness_OnlyWrongWidthOrMisalignedAccessesAreRefused :
    (∀ w ∈ [Width.w8, Width.w16, Width.w64], w ≠ .w32)
      ∧ (facing [rd 0xFFFFF]).events = .host (.read (0x40000000 + 0xFFFFF) .w32) :: []
      ∧ 0xFFFFF < 2 ^ 20 ∧ 0xFFFFF % 4 ≠ 0 ∧ 0xFFFFC % 4 = 0
      ∧ (facing []).params.base = 0x40000000 := by decide

theorem witness_ReadOnlyAndReservedOffsets :
    (busyWith 0 []).params.wf = true
      ∧ ReservedOffset 1 0x0001C ∧ ReservedOffset 1 0x000FC ∧ ReservedOffset 1 0x01040
      ∧ ReservedOffset 4096 0x41000 ∧ ReservedOffset 1 0xFFFFC
      ∧ (busyWith 0 [wr 0x18 5]).events = (busyWith 0 [wr 0x18 5]).writeAt 0x00018 5 :: []
      ∧ (facing [rd 0x18]).events = (facing [rd 0x18]).readAt 0x00018 :: []
      ∧ (facing []).busy = false := by
  unfold ReservedOffset
  decide

/-- The last register of each kind. -/
theorem witness_OperandWriteThenRead :
    ∀ off ∈ [0x0013C, 0x00278, 0x0027C, 0x0103C],
      let s := facing [wr off 0x89ABCDEF, rd off]
      s.params.wf = true ∧ s.busy = false ∧ (∀ j, (s.slot j).dig.length = s.params.cap)
        ∧ s.events = s.writeAt off 0x89ABCDEF :: s.readAt off :: []
        ∧ (off = 0x00100 + 4 * 15 ∨ off = 0x00200 + 8 * 15 ∨ off = 0x00204 + 8 * 15
          ∨ off = 0x01000 + 4 * 1 * 15 + 4 * 0) := by decide

/-- The last digit word and `RESULT` while busy, the same register while idle, `STATUS` while busy. -/
theorem witness_ReadsWhileBusyAreUnspecified :
    (busyWith 0 []).params.wf = true ∧ 0 < (busyWith 0 []).params.cap
      ∧ (Reg.dig 15 0).offset 1 = some 0x0103C ∧ Reg.result.offset 1 = some 0x00018
      ∧ Reg.status.offset 1 = some 0x0000C
      ∧ (busyWith 0 [rd 0x103C]).events = (busyWith 0 [rd 0x103C]).readAt 0x0103C :: []
      ∧ (busyWith 0 []).busy = true ∧ (facing []).busy = false
      ∧ (Reg.dig 15 0).isOperand = true ∧ Reg.status.isOperand = false := by decide

theorem witness_StatusReadsAndClears :
    (facing [rd 0xC]).events = (facing [rd 0xC]).readAt 0x0000C :: []
      ∧ (facing [wr 0xC 6]).events = (facing [wr 0xC 6]).writeAt 0x0000C 6 :: [] := by decide

theorem witness_CommandIssue :
    ((facing [wr 0x10 7]).events = (facing [wr 0x10 7]).writeAt 0x00010 7 :: []
        ∧ (facing [wr 0x10 7]).busy = false)
      ∧ ((busyWith 0 [wr 0x10 7]).events = (busyWith 0 [wr 0x10 7]).writeAt 0x00010 7 :: []
        ∧ (busyWith 0 [wr 0x10 7]).busy = true)
      ∧ (facing [rd 0x10]).events = (facing [rd 0x10]).readAt 0x00010 :: [] := by decide

/-- A busy block facing a write to a digit word, to `CMD`, to `CTRL`, to `STATUS`, to a reserved offset. -/
theorem witness_WritesWhileBusy :
    ∀ off ∈ [0x0103C, 0x00010, 0x00008, 0x0000C, 0xFFFFC],
      let s := busyWith 0 [wr off 3]
      s.params.wf = true ∧ s.busy = true ∧ off < 2 ^ 20 ∧ off % 4 = 0
        ∧ s.events = s.writeAt off 3 :: []
        ∧ (Reg.dig 15 0).offset s.params.cap = some 0x0103C ∧ (Reg.dig 15 0).isOperand = true
        ∧ Reg.cmd.offset s.params.cap = some 0x00010 := by decide

/-- A dropped write to `x[0]` and its next state; the access is no reset. -/
theorem witness_InFlightOperandsAreFixed :
    (busyWith 0 [wr 0x100 9]).busy = true
      ∧ ¬ (busyWith 0 [wr 0x100 9]).IsReset (.host (.write 0x40000100 .w32 9))
      ∧ step (busyWith 0 [wr 0x100 9])
        = .next { busyWith 0 [] with ovr := true } := by
  refine ⟨rfl, ?_, rfl⟩
  rintro (h | ⟨v, hv, h⟩)
  · cases h
  · simp [State.writeAt, busyWith, machine, State.resetWith] at h

/-- `OVR` set, and its next state after a completion and after a write that clears it. -/
theorem witness_OverrunIsSticky :
    step { busyWith 0 [] with ovr := true }
        = .next { machine 1 with ovr := true, done := true }
      ∧ step { facing [wr 0xC 4] with ovr := true } = .next (machine 1) := ⟨rfl, rfl⟩

theorem witness_StepRunsTheDecodedCommand :
    (busyWith 0x30201000 []).busy = true
      ∧ decode (busyWith 0x30201000 []).lastCmd = .ok (.aadd 2 0 1)
      ∧ (busyWith 0x30201000 []).events = []
      ∧ (busyWith 0x30201000 [.sequencer]).events = .sequencer :: []
      ∧ (facing []).busy = false ∧ (facing [.sequencer]).events = .sequencer :: []
      ∧ decodeTableWord 32 0x30201000 = some (.aadd 2 0 1)
      ∧ decodeTableWord 8 0 = some .nop := ⟨rfl, rfl, rfl, rfl, rfl, rfl, rfl, rfl⟩

/-- An illegal word with no event left and at a queued turn (vector P-6), and a state with an error. -/
theorem witness_EveryCommandCompletes :
    (busyWith 0x01000000 []).busy = true ∧ (busyWith 0x01000000 []).TurnNext []
      ∧ (busyWith 0x01000000 [.sequencer, rd 0xC]).busy = true
      ∧ (busyWith 0x01000000 [.sequencer, rd 0xC]).TurnNext [rd 0xC]
      ∧ ((machine 1).complete .unimpl).err ≠ .ok :=
  ⟨rfl, .inr ⟨rfl, rfl⟩, rfl, .inl rfl, by decide⟩

theorem witness_CodesOfEachCommand :
    exec (.wmsb 1 0) (machine 1) = .next ((machine 1).complete .zero) := rfl

/-- A completion: `DONE` rises and `BUSY` falls. -/
theorem witness_OnlyCompletionSetsDone :
    step (busyWith 0 [.sequencer]) = .next ((busyWith 0 []).complete .ok)
      ∧ (busyWith 0 [.sequencer]).done = false ∧ ((busyWith 0 []).complete .ok).done = true
      ∧ (busyWith 0 [.sequencer]).busy = true ∧ ((busyWith 0 []).complete .ok).busy = false :=
  ⟨rfl, rfl, rfl, rfl, rfl⟩

/-- A busy block with an accepted read still to come. -/
theorem witness_CommandInFlightEndsInBoundedSteps :
    (busyWith 0 [rd 0xC]).busy = true
      ∧ ∀ e ∈ (busyWith 0 [rd 0xC]).events, (busyWith 0 [rd 0xC]).Accepts e := by
  refine ⟨rfl, ?_⟩
  intro e he
  have : e = rd 0xC := by simpa [busyWith] using he
  subst this
  exact ⟨rfl, 0xC, by decide, by decide, rfl⟩

/-- Every clause: a completion, with no event left and at a queued turn; `CTRL` set and cleared with `DONE` set; `STATUS` cleared; `CMD` accepted; a
reset. -/
theorem witness_InterruptLevel :
    ((busyWith 0 []).busy = true ∧ (busyWith 0 []).TurnNext []
        ∧ (busyWith 0x01000000 [.sequencer]).TurnNext [])
      ∧ BitVec.getLsbD (1 : Word) 1 = false ∧ BitVec.getLsbD (1 : Word) 0 = true
      ∧ BitVec.getLsbD (0 : Word) 0 = false ∧ BitVec.getLsbD (2 : Word) 1 = true
      ∧ ({ facing [wr 8 1] with done := true }).events = (facing []).writeAt 0x00008 1 :: []
      ∧ (facing [wr 0xC 2]).events = (facing []).writeAt 0x0000C 2 :: []
      ∧ ((facing [wr 0x10 0]).events = (facing []).writeAt 0x00010 0 :: []
        ∧ (facing [wr 0x10 0]).busy = false)
      ∧ (facing [.powerOn]).events = .powerOn :: [] := by
  refine ⟨⟨rfl, .inr ⟨rfl, rfl⟩, .inl rfl⟩, ?_⟩
  decide

theorem witness_reset_event : (facing []).IsReset .powerOn
    ∧ (facing []).IsReset ((facing []).writeAt 0x00008 2) :=
  ⟨.inl rfl, .inr ⟨2, by decide, rfl⟩⟩

/-- An offset of another slot's field, which `SQR s1, s0` may not change. -/
theorem witness_CommandsChangeOnlyTheirDestinations :
    exec .nop loaded = .next (loaded.complete .ok)
      ∧ (Instr.sqr 1 0).mayChange (regAt 2 (0x00203 - 0x00203 % 4)) = false
      ∧ (Instr.sqr 1 0).mayChange (regAt 2 0x00208) = true
      ∧ 0 ∈ (Instr.wmul 15 3 4).destRegs ∧ 1 ∉ (Instr.wmul 15 3 4).destRegs
      ∧ (Instr.sqr 1 0).destSlot ≠ some 0 ∧ (Instr.sqr 1 0).writesResult = false :=
  ⟨rfl, by decide, by decide, by decide, by decide, by decide, rfl⟩

/-- Two states that differ in their flags. -/
theorem witness_FlagsNeverInfluenceACommand :
    let s' : State := { loaded with err := .order, ovr := true, done := true, result := 7, ie := true }
    s'.params = loaded.params ∧ s'.x = loaded.x ∧ s'.slots = loaded.slots
      ∧ (Instr.cmp 0 1).writesResult = true := ⟨rfl, rfl, rfl, rfl⟩

/-- Two states that differ in the sign of a slot. -/
theorem witness_PolynomialCommandsNeverReadTheSign :
    let s' := put 0 3 [0xFFFFFFFF, 0xFFFFFFFF] loaded
    (Instr.gdeg 0).isGf = true ∧ s'.params = loaded.params
      ∧ (∀ j, (s'.slot j).len = (loaded.slot j).len ∧ (s'.slot j).dig = (loaded.slot j).dig)
      ∧ (s'.slot 0).sign ≠ (loaded.slot 0).sign
      ∧ (Instr.gdeg 0).writesResult = true ∧ (Instr.gadd 2 0 1).destSlot = some 2 := by
  decide +kernel

/-- Two states that differ in a digit word above `len`. -/
theorem witness_DigitsAboveLengthAreNeverRead :
    let s' := loaded.setDigit 1 1 0xDEADBEEF
    s'.params = loaded.params ∧ s'.x = loaded.x
      ∧ (∀ j, (s'.slot j).len = (loaded.slot j).len ∧ (s'.slot j).sign = (loaded.slot j).sign
        ∧ (s'.slot j).dig.take (loaded.slot j).len.toNat
          = (loaded.slot j).dig.take (loaded.slot j).len.toNat)
      ∧ (s'.slot 1).dig ≠ (loaded.slot 1).dig := by decide +kernel

/-- A write of `LEN[0]`, of `SIGN[15]` and of the last digit word of slot 15, each denormalising its slot. -/
theorem witness_OnlyTheHostDenormalisesASlot :
    (facing [wr 0x200 1]).params.wf = true ∧ (facing [wr 0x200 1]).wf 0 = true
      ∧ (runs 1 (facing [wr 0x200 1])).map (fun t => t.wf 0) = some false
      ∧ ∀ off ∈ [0x0027C, 0x0103C],
        let s : State := { put 15 1 [5] (machine 1) with events := [wr off 0] }
        s.params.wf = true ∧ s.wf 15 = true ∧ (runs 1 s).map (fun t => t.wf 15) = some false := by
  decide +kernel

/-- The largest magnitude of either sign, at the smallest `CAP`, and a slot that holds it. -/
theorem witness_WriteIntNormalises :
    (-(2 ^ 32 - 1) : Int).natAbs < 2 ^ (32 * 1)
      ∧ (slotOf 1 2 [0xFFFFFFFF]).wf 1 = true ∧ (slotOf 1 2 [0xFFFFFFFF]).sval = -(2 ^ 32 - 1)
      ∧ (slotOf 1 2 [0xFFFFFFFF]).dig.length = 1 ∧ loaded.params.cap = 2 :=
  ⟨by decide, by decide +kernel, by decide +kernel, by decide, rfl⟩

theorem witness_MostSignificantBit :
    (machine 1).reg 0 = 0 ∧ (putX 0 1 (machine 1)).reg 0 ≠ 0
      ∧ (putX 0 0xFFFFFFFF (machine 1)).reg 0 ≠ 0 := by decide +kernel

theorem witness_WordQuotientAndRemainder :
    (machine 1).reg 1 = 0 ∧ (putX 1 1 (machine 1)).reg 1 ≠ 0 := by decide +kernel

theorem witness_NopOnlyCompletes : fieldOpc 0x00000001 = 0 ∧ (0x00000001 : Word) ≠ 0 := by decide

/-- MALFORMED for the length and for the sign code; a slot whose top word is zero; one with a nonzero value
and the sign ZERO, and one with the sign NEG. -/
theorem witness_NormaliseKeepsTheValue :
    let s := put 9 0 [5] loaded
    s.params.wf = true ∧ (s.slot 4).dig.length = s.params.cap
      ∧ s.params.cap < (s.slot 7).len.toNat ∧ (s.slot 5).sign = 3
      ∧ ((s.slot 4).len.toNat ≤ s.params.cap ∧ (s.slot 4).sign ≠ 3)
      ∧ ((s.slot 9).mag ≠ 0 ∧ (s.slot 9).sign = 0) ∧ ((s.slot 2).mag ≠ 0 ∧ (s.slot 2).sign ≠ 0) := by
  decide +kernel

theorem witness_CompareMagnitudes :
    loaded.wf 4 = false ∧ loaded.wf 0 = true ∧ loaded.wf 1 = true ∧ loaded.wf 2 = true
      ∧ (loaded.slot 1).mag < (loaded.slot 2).mag ∧ (loaded.slot 1).mag = (loaded.slot 1).mag
      ∧ (loaded.slot 2).mag < (loaded.slot 0).mag := by decide +kernel

theorem witness_CompareSignedValues :
    loaded.wf 5 = false ∧ loaded.wf 1 = true ∧ loaded.wf 2 = true ∧ loaded.wf 3 = true
      ∧ (loaded.slot 2).sval < (loaded.slot 3).sval ∧ (loaded.slot 3).sval < (loaded.slot 1).sval
      ∧ (loaded.slot 3).sval = (loaded.slot 3).sval := by decide +kernel

theorem witness_RightShift :
    loaded.wf 7 = false ∧ loaded.params.wf = true ∧ loaded.wf 0 = true ∧ 1 < loaded.params.cap := by
  decide +kernel

/-- The largest shift that fits and the smallest that does not. -/
theorem witness_LeftShift :
    loaded.wf 4 = false ∧ loaded.wf 1 = true ∧ loaded.params.wf = true
      ∧ 2 ^ (32 * loaded.params.cap) ≤ (loaded.slot 1).mag * 2 ^ (64#16).toNat
      ∧ (loaded.slot 1).mag * 2 ^ (63#16).toNat < 2 ^ (32 * loaded.params.cap) := by decide +kernel

/-- LSH and then RSH by 63, and the same for GLSH and GRSH. -/
theorem witness_ShiftRoundTrip :
    loaded.params.wf = true
      ∧ ((nextOf (exec (.lsh 9 1 63) loaded)).bind fun t =>
          (nextOf (exec (.rsh 10 9 63) t)).map fun u => (t.err, u.err, (u.slot 10).sval))
        = some (.ok, .ok, 1)
      ∧ ((nextOf (exec (.glsh 9 1 63) loaded)).bind fun t =>
          (nextOf (exec (.grsh 10 9 63) t)).map fun u => (t.err, u.err, (u.slot 10).mag))
        = some (.ok, .ok, 1) := by decide +kernel

/-- MALFORMED; ORDER; the smallest sum that does not fit and the largest that does; MAGNITUDE; a
difference of zero. -/
theorem witness_AddAndSubtractMagnitudes :
    loaded.wf 4 = false ∧ loaded.params.wf = true
      ∧ loaded.wf 0 = true ∧ loaded.wf 1 = true ∧ loaded.wf 3 = true
      ∧ (loaded.slot 1).len.toNat < (loaded.slot 0).len.toNat
      ∧ ((loaded.slot 1).len.toNat ≤ (loaded.slot 0).len.toNat
        ∧ 2 ^ (32 * loaded.params.cap) ≤ (loaded.slot 0).mag + (loaded.slot 1).mag)
      ∧ ((loaded.slot 3).len.toNat ≤ (loaded.slot 0).len.toNat
        ∧ (loaded.slot 0).mag + (loaded.slot 3).mag < 2 ^ (32 * loaded.params.cap))
      ∧ (loaded.slot 1).mag < (loaded.slot 0).mag ∧ (loaded.slot 1).mag ≤ (loaded.slot 1).mag := by
  decide +kernel

/-- MALFORMED; a sum and a difference that do not fit; the largest that do. -/
theorem witness_AddAndSubtractSigned :
    loaded.wf 5 = false ∧ loaded.params.wf = true
      ∧ loaded.wf 0 = true ∧ loaded.wf 1 = true ∧ loaded.wf 2 = true ∧ loaded.wf 3 = true
      ∧ 2 ^ (32 * loaded.params.cap) ≤ ((loaded.slot 0).sval + (loaded.slot 1).sval).natAbs
      ∧ 2 ^ (32 * loaded.params.cap) ≤ ((loaded.slot 0).sval - (loaded.slot 2).sval).natAbs
      ∧ ((loaded.slot 0).sval + (loaded.slot 3).sval).natAbs < 2 ^ (32 * loaded.params.cap)
      ∧ ((loaded.slot 3).sval - (loaded.slot 0).sval).natAbs < 2 ^ (32 * loaded.params.cap) := by
  decide +kernel

theorem witness_CarryAndBorrowChains :
    let as : List Word := [0, 0, 1]
    let bs : List Word := [1]
    bs.length ≤ as.length ∧ natOfWords bs ≤ natOfWords as := by decide +kernel

/-- MALFORMED; a product of three words; the product of one word by one word. -/
theorem witness_SignedProduct :
    loaded.wf 4 = false ∧ loaded.params.wf = true
      ∧ loaded.wf 0 = true ∧ loaded.wf 1 = true ∧ loaded.wf 8 = true
      ∧ 2 ^ (32 * loaded.params.cap) ≤ (loaded.slot 8).mag * (loaded.slot 8).mag
      ∧ (loaded.slot 0).mag * (loaded.slot 1).mag < 2 ^ (32 * loaded.params.cap) := by
  decide +kernel

theorem witness_SquareIsTheProductWithItself :
    loaded.wf 4 = false ∧ loaded.params.wf = true ∧ loaded.wf 2 = true ∧ loaded.wf 8 = true
      ∧ 2 ^ (32 * loaded.params.cap) ≤ (loaded.slot 8).mag * (loaded.slot 8).mag
      ∧ (loaded.slot 2).mag * (loaded.slot 2).mag < 2 ^ (32 * loaded.params.cap) := by
  decide +kernel

/-- MALFORMED; a negative value; a zero modulus; a negative constant; a value of three words by a modulus of
one; a value of `2 n` words; the loop's divisor. -/
theorem witness_BarrettClosedForm :
    let s := put 9 1 [1, 1, 1] (put 10 1 [7] (machine 3))
    loaded.wf 4 = false ∧ loaded.wf 0 = true ∧ loaded.wf 1 = true ∧ loaded.wf 2 = true
      ∧ loaded.wf 3 = true ∧ (loaded.slot 2).sign = 2 ∧ (loaded.slot 3).sign ≠ 1
      ∧ (s.wf 9 = true ∧ s.wf 10 = true ∧ 2 * (s.slot 10).len.toNat < (s.slot 9).len.toNat)
      ∧ (loaded.params.wf = true ∧ (loaded.slot 0).sign ≠ 2 ∧ (loaded.slot 1).sign = 1
        ∧ (loaded.slot 8).sign ≠ 2 ∧ loaded.wf 8 = true
        ∧ (loaded.slot 0).len.toNat ≤ 2 * (loaded.slot 1).len.toNat)
      ∧ 0 < 1 := by decide +kernel

/-- Vector B7. -/
theorem witness_BarrettReducesWithTheRightConstant :
    let s := put 0 1 [0x9ABCDEF0, 0x12345678] (put 1 1 [0xFFFFFFFB]
      (put 2 1 [0x00000005, 0x00000001] (machine 2)))
    1 = (s.slot 1).len.toNat ∧ s.params.wf = true ∧ s.wf 0 = true ∧ s.wf 1 = true ∧ s.wf 2 = true
      ∧ (s.slot 0).sign ≠ 2 ∧ (s.slot 1).sign = 1 ∧ (s.slot 0).len.toNat ≤ 2 * 1
      ∧ (s.slot 2).mag = 2 ^ (32 * (2 * 1)) / (s.slot 1).mag ∧ (s.slot 2).sign ≠ 2 := by
  decide +kernel

theorem witness_PolynomialDegree :
    loaded.wfg 4 = false ∧ loaded.wfg 0 = true ∧ loaded.wfg 3 = true ∧ loaded.wfg 5 = true
      ∧ (loaded.slot 0).mag ≠ 0 ∧ (loaded.slot 3).mag = 0 := by decide +kernel

theorem witness_PolynomialShifts :
    loaded.wfg 7 = false ∧ loaded.params.wf = true ∧ loaded.wfg 1 = true
      ∧ 2 ^ (32 * loaded.params.cap) ≤ (loaded.slot 1).mag * 2 ^ (64#16).toNat
      ∧ (loaded.slot 1).mag * 2 ^ (63#16).toNat < 2 ^ (32 * loaded.params.cap) := by decide +kernel

theorem witness_PolynomialSum :
    loaded.wfg 4 = false ∧ loaded.params.wf = true ∧ loaded.wfg 0 = true ∧ loaded.wfg 5 = true := by
  decide +kernel

/-- `x^8` by the polynomial of vector G8, and by the smallest modulus. -/
theorem witness_PolynomialRemainderIsUnique :
    2 ≤ 0x11B ∧ 2 ≤ 2 ∧ deg 0x1B < deg 0x11B ∧ 0x100 ^^^ 0x1B = clmul 1 0x11B := by decide +kernel

/-- MALFORMED; the largest modulus that is refused and the smallest that is not. -/
theorem witness_PolynomialReduction :
    loaded.wfg 4 = false ∧ loaded.params.wf = true ∧ loaded.wfg 0 = true ∧ loaded.wfg 1 = true
      ∧ loaded.wfg 5 = true ∧ (loaded.slot 1).mag < 2 ∧ 2 ≤ (loaded.slot 5).mag := by decide +kernel

theorem witness_PolynomialProductIsReduced :
    loaded.wfg 7 = false ∧ loaded.params.wf = true ∧ loaded.wfg 0 = true ∧ loaded.wfg 8 = true
      ∧ loaded.wfg 1 = true ∧ loaded.wfg 5 = true ∧ (loaded.slot 1).mag < 2
      ∧ 2 ≤ (loaded.slot 5).mag := by decide +kernel

/-- A well-formed and a malformed slot; two different slots for NEG. -/
theorem witness_PseudoCommandsHaveTheirEffects :
    loaded.params.wf = true ∧ loaded.wf 2 = true ∧ loaded.wfg 5 = true ∧ loaded.wf 5 = false
      ∧ (1 : Idx) ≠ 2 := by decide +kernel

end Sys2Proof.Tests
end

section
/-! SUPPORT. The effect of a command: the one form every command's outcome has (60_exceptions.md R311,
R315), and that two states with the same operands give a command the same effect. -/

namespace Sys2Proof.Machine

/-! ### Effects -/

/-- The command may complete without error, and its destinations are the scalar registers `ks`, `RESULT`
if `writesResult`, and the slot `slot`. -/
structure Succeeds (i : Instr) (ks : List Idx) (writesResult : Bool) (slot : Option Idx) : Prop where
  code : .ok ∈ i.possibleCodes
  regs : i.destRegs = ks
  result : i.writesResult = writesResult
  slot : i.destSlot = slot

/-- What a command does in its completion step: the code it records, the scalar registers it writes (in
this order), the value it leaves in `RESULT` and the slot it writes. -/
structure Effect where
  code : ErrorCode := .ok
  regs : List (Idx × Word) := []
  result : Option Word := none
  slot : Option (Idx × Slot) := none

namespace Effect

/-- The scalar registers after the effect. -/
def xAfter (e : Effect) (x : Vector Word 16) : Vector Word 16 :=
  e.regs.foldl (fun x w => x.set w.1 w.2) x

/-- The slots after the effect. -/
def slotsAfter (e : Effect) (slots : Vector Slot 16) : Vector Slot 16 :=
  e.slot.elim slots fun w => slots.set w.1 w.2

/-- The state after the effect. -/
def run (e : Effect) (s : State) : State :=
  { s with
    x := e.xAfter s.x
    slots := e.slotsAfter s.slots
    result := e.result.getD s.result
    err := e.code
    busy := false
    done := true }

/-- The effects a command can have: an error of its own row of R312 and no write (R315), or the writes
of all its destinations, a written slot holding `cap` digit words (R15). -/
def OfCommand (i : Instr) (cap : Nat) (e : Effect) : Prop :=
  (e.code ≠ .ok ∧ e.code ∈ i.possibleCodes ∧ e.regs = [] ∧ e.result = none ∧ e.slot = none)
    ∨ (e.code = .ok ∧ Succeeds i (e.regs.map Prod.fst) e.result.isSome (e.slot.map Prod.fst)
      ∧ ∀ w, e.slot = some w → w.2.dig.length = cap)

variable (e : Effect) (s : State)

@[simp] theorem run_params : (e.run s).params = s.params := rfl
@[simp] theorem run_x : (e.run s).x = e.xAfter s.x := rfl
@[simp] theorem run_slots : (e.run s).slots = e.slotsAfter s.slots := rfl
@[simp] theorem run_result : (e.run s).result = e.result.getD s.result := rfl
@[simp] theorem run_err : (e.run s).err = e.code := rfl
@[simp] theorem run_busy : (e.run s).busy = false := rfl
@[simp] theorem run_done : (e.run s).done = true := rfl

variable {e}

theorem slot_run_of_writes {d : Idx} {sl : Slot} (h : e.slot = some (d, sl)) :
    (e.run s).slot d = sl := by
  have hset : (e.run s).slots = (s.setSlot d sl).slots := by
    rw [run_slots, slotsAfter, h, Option.elim_some, State.setSlot_slots]
  rw [State.slot_congr hset, State.slot_setSlot, if_pos rfl]

theorem slot_run_of_not_writes {j : Idx} (h : ∀ sl, e.slot ≠ some (j, sl)) :
    (e.run s).slot j = s.slot j := by
  cases he : e.slot with
  | none =>
    refine State.slot_congr ?_ j
    rw [run_slots, slotsAfter, he, Option.elim_none]
  | some w =>
    have hset : (e.run s).slots = (s.setSlot w.1 w.2).slots := by
      rw [run_slots, slotsAfter, he, Option.elim_some, State.setSlot_slots]
    have hj : j ≠ w.1 := by
      rintro rfl
      exact h w.2 he
    rw [State.slot_congr hset, State.slot_setSlot, if_neg hj]

variable {i : Instr} {cap : Nat}

/-- R312: the code is one of the command's row. -/
theorem OfCommand.code_mem (h : e.OfCommand i cap) : e.code ∈ i.possibleCodes := by
  obtain ⟨-, hmem, -⟩ | ⟨hok, hdest, -⟩ := h
  · exact hmem
  · rw [hok]
    exact hdest.code

theorem OfCommand.slot_length (h : e.OfCommand i cap) {d : Idx} {sl : Slot}
    (hs : e.slot = some (d, sl)) : sl.dig.length = cap := by
  obtain ⟨-, -, -, -, hnone⟩ | ⟨-, -, hlen⟩ := h
  · simp [hnone] at hs
  · exact hlen _ hs

theorem OfCommand.writes_result (h : e.OfCommand i cap) (hok : e.code = .ok)
    (hw : i.writesResult = true) : ∃ v, e.result = some v := by
  obtain ⟨herr, -⟩ | ⟨-, hdest, -⟩ := h
  · exact absurd hok herr
  · exact Option.isSome_iff_exists.1 (hdest.result.symm.trans hw)

theorem OfCommand.writes_slot (h : e.OfCommand i cap) (hok : e.code = .ok) {d : Idx}
    (hd : i.destSlot = some d) : ∃ sl, e.slot = some (d, sl) := by
  obtain ⟨herr, -⟩ | ⟨-, hdest, -⟩ := h
  · exact absurd hok herr
  · obtain ⟨⟨d', sl⟩, hw, rfl⟩ := Option.map_eq_some_iff.1 (hdest.slot.symm.trans hd)
    exact ⟨sl, hw⟩

end Effect

/-! ### The same effect in two states -/

/-- Two outcomes, of a command run in `s` and in `s'`, come from one effect of the command. -/
def SameEffect (i : Instr) (s s' : State) (r r' : Result) : Prop :=
  ∃ e : Effect, e.OfCommand i s.params.cap ∧ r = .next (e.run s) ∧ r' = .next (e.run s')

/-! One rule per shared operation.  The side conditions are about the command alone and hold by its rows in
`Instr.possibleCodes`, `destRegs`, `writesResult` and `destSlot`. -/

namespace SameEffect

variable {i : Instr} {s s' : State} {d : Idx}

theorem raise {c : ErrorCode} (hc : c ≠ .ok := by decide)
    (hmem : c ∈ i.possibleCodes := by simp [Instr.possibleCodes]) :
    SameEffect i s s' (raise c s) (raise c s') :=
  ⟨{ code := c }, .inl ⟨hc, hmem, rfl, rfl, rfl⟩, rfl, rfl⟩

/-- A check that both states answer alike and that raises where it fails. -/
theorem check {p : Prop} [Decidable p] {c : ErrorCode} {r r' : Result}
    (hpass : ¬ p → SameEffect i s s' r r') (hc : c ≠ .ok := by decide)
    (hmem : c ∈ i.possibleCodes := by simp [Instr.possibleCodes]) :
    SameEffect i s s' (if p then Machine.raise c s else r)
      (if p then Machine.raise c s' else r') := by
  by_cases h : p
  · rw [if_pos h, if_pos h]
    exact raise hc hmem
  · rw [if_neg h, if_neg h]
    exact hpass h

/-- R314: the operand check that comes before any other. -/
theorem operandCheck {b : Bool} {r r' : Result} (hpass : SameEffect i s s' r r')
    (hmem : .malformed ∈ i.possibleCodes := by simp [Instr.possibleCodes]) :
    SameEffect i s s' (if !b then Machine.raise .malformed s else r)
      (if !b then Machine.raise .malformed s' else r') :=
  check (fun _ => hpass) (by decide) hmem

theorem writesNothing
    (hdest : Succeeds i [] false none := by exact ⟨by simp [Instr.possibleCodes], rfl, rfl, rfl⟩) :
    SameEffect i s s' (succeed s) (succeed s') :=
  ⟨{}, .inr ⟨rfl, hdest, by simp⟩, rfl, rfl⟩

theorem setReg (v : Word)
    (hdest : Succeeds i [d] false none := by exact ⟨by simp [Instr.possibleCodes], rfl, rfl, rfl⟩) :
    SameEffect i s s' (succeed (s.setReg d v)) (succeed (s'.setReg d v)) :=
  ⟨{ regs := [(d, v)] }, .inr ⟨rfl, hdest, by simp⟩, rfl, rfl⟩

theorem writePair (p : Nat)
    (hdest : Succeeds i [d, d + 1] false none :=
      by exact ⟨by simp [Instr.possibleCodes], rfl, rfl, rfl⟩) :
    SameEffect i s s' (succeed (s.writePair d p)) (succeed (s'.writePair d p)) :=
  ⟨{ regs := [(d, BitVec.ofNat 32 p), (d + 1, BitVec.ofNat 32 (p / 2 ^ 32))] },
    .inr ⟨rfl, hdest, by simp⟩, rfl, rfl⟩

theorem writeTriple (p : Nat)
    (hdest : Succeeds i [d, d + 1, d + 2] false none :=
      by exact ⟨by simp [Instr.possibleCodes], rfl, rfl, rfl⟩) :
    SameEffect i s s' (succeed (s.writeTriple d p)) (succeed (s'.writeTriple d p)) :=
  ⟨{ regs := [(d, BitVec.ofNat 32 p), (d + 1, BitVec.ofNat 32 (p / 2 ^ 32)),
      (d + 2, BitVec.ofNat 32 (p / 2 ^ 64))] }, .inr ⟨rfl, hdest, by simp⟩, rfl, rfl⟩

theorem setResult (v : Word)
    (hdest : Succeeds i [] true none := by exact ⟨by simp [Instr.possibleCodes], rfl, rfl, rfl⟩) :
    SameEffect i s s' (succeed (s.setResult v)) (succeed (s'.setResult v)) :=
  ⟨{ result := some v }, .inr ⟨rfl, hdest, by simp⟩, rfl, rfl⟩

theorem setSlot {sl : Slot} (hlen : sl.dig.length = s.params.cap)
    (hdest : Succeeds i [] false (some d) :=
      by exact ⟨by simp [Instr.possibleCodes], rfl, rfl, rfl⟩) :
    SameEffect i s s' (succeed (s.setSlot d sl)) (succeed (s'.setSlot d sl)) :=
  ⟨{ slot := some (d, sl) },
    .inr ⟨rfl, hdest, fun _ hw => Option.some.inj hw ▸ hlen⟩, rfl, rfl⟩

theorem writeInt (v : Int) (hp : s'.params = s.params)
    (hdest : Succeeds i [] false (some d) :=
      by exact ⟨by simp [Instr.possibleCodes], rfl, rfl, rfl⟩) :
    SameEffect i s s' (succeed (s.writeInt d v)) (succeed (s'.writeInt d v)) := by
  rw [State.writeInt, State.writeInt, hp]
  exact setSlot (intSlot_dig_length _ v) hdest

theorem storeInt (v : Int) (hp : s'.params = s.params)
    (hdest : Succeeds i [] false (some d) :=
      by exact ⟨by simp [Instr.possibleCodes], rfl, rfl, rfl⟩)
    (hmem : .capacity ∈ i.possibleCodes := by simp [Instr.possibleCodes]) :
    SameEffect i s s' (storeInt d v s) (storeInt d v s') := by
  rw [Machine.storeInt, Machine.storeInt, hp]
  exact check (fun _ => writeInt v hp hdest) (by decide) hmem

theorem writePoly (p : Nat) (hp : s'.params = s.params)
    (hdest : Succeeds i [] false (some d) :=
      by exact ⟨by simp [Instr.possibleCodes], rfl, rfl, rfl⟩) :
    SameEffect i s s' (succeed (s.writePoly d p)) (succeed (s'.writePoly d p)) :=
  writeInt (p : Int) hp hdest

theorem storePoly (p : Nat) (hp : s'.params = s.params)
    (hdest : Succeeds i [] false (some d) :=
      by exact ⟨by simp [Instr.possibleCodes], rfl, rfl, rfl⟩)
    (hmem : .capacity ∈ i.possibleCodes := by simp [Instr.possibleCodes]) :
    SameEffect i s s' (storePoly d p s) (storePoly d p s') :=
  storeInt (p : Int) hp hdest hmem

end SameEffect

/-! ### The same operands (R14, R17) -/

/-- Two slots that differ at most in the digit words at indices at or above `len`. -/
structure Slot.SameOperand (sl sl' : Slot) : Prop where
  len : sl'.len = sl.len
  sign : sl'.sign = sl.sign
  words : sl'.dig.take sl.len.toNat = sl.dig.take sl.len.toNat

namespace Slot.SameOperand

variable {p p' q q' sl sl' : Slot}

theorem digit (h : sl.SameOperand sl') {i : Nat} (hi : i < sl.len.toNat) :
    sl'.digit i = sl.digit i := by
  have e := congrArg (·[i]?) h.words
  simp only [List.getElem?_take, if_pos hi] at e
  rw [Slot.digit, Slot.digit, List.getD_eq_getElem?_getD, List.getD_eq_getElem?_getD, e]

theorem mag (h : sl.SameOperand sl') : sl'.mag = sl.mag := by
  rw [Slot.mag, Slot.mag, h.len, h.words]

theorem sval (h : sl.SameOperand sl') : sl'.sval = sl.sval := by
  rw [Slot.sval, Slot.sval, h.sign, h.mag]

theorem topNonzero (h : sl.SameOperand sl') : sl'.topNonzero = sl.topNonzero := by
  rw [Bool.eq_iff_iff, Slot.topNonzero_iff, Slot.topNonzero_iff, h.len]
  refine forall_congr' fun h0 => ?_
  have := (Slot.len_toNat_eq_zero sl).not.2 h0
  rw [h.digit (by omega)]

theorem wf (h : sl.SameOperand sl') (cap : Nat) : sl'.wf cap = sl.wf cap := by
  rw [Slot.wf, Slot.wf, h.len, h.sign, h.topNonzero]

theorem wfg (h : sl.SameOperand sl') (cap : Nat) : sl'.wfg cap = sl.wfg cap := by
  rw [Slot.wfg, Slot.wfg, h.len, h.topNonzero]

theorem degree (h : sl.SameOperand sl') : sl'.degree = sl.degree := by
  rw [Slot.degree, Slot.degree, h.len]
  split
  · rfl
  · rw [h.digit (by omega)]

theorem magOrder (hp : p.SameOperand p') (hq : q.SameOperand q') :
    p'.magOrder q' = p.magOrder q := by
  rw [Slot.magOrder, Slot.magOrder, hp.len, hq.len, hp.words, hq.words]

theorem signedOrder (hp : p.SameOperand p') (hq : q.SameOperand q') :
    p'.signedOrder q' = p.signedOrder q := by
  rw [Slot.signedOrder, Slot.signedOrder, hp.sign, hq.sign, hp.magOrder hq, hq.magOrder hp]

theorem withSignOf (h : sl.SameOperand sl') (v : Nat) : withSignOf sl' v = withSignOf sl v := by
  rw [Machine.withSignOf, Machine.withSignOf, h.sign]

theorem stripZeros (h : sl.SameOperand sl') {n : Nat} (hn : n ≤ sl.len.toNat) :
    stripZeros sl' n = stripZeros sl n := by
  induction n with
  | zero => rfl
  | succ n ih => rw [Machine.stripZeros, Machine.stripZeros, h.digit (by omega), ih (by omega)]

theorem normalised (h : sl.SameOperand sl') (cap : Nat) :
    sl'.normalised cap = sl.normalised cap := by
  have hwords : ∀ n ≤ sl.len.toNat, sl'.dig.take n = sl.dig.take n := fun n hn => by
    simpa [List.take_take, Nat.min_eq_left hn] using congrArg (List.take n) h.words
  rw [Slot.normalised, Slot.normalised, h.len, h.stripZeros le_rfl, h.sign,
    hwords _ (stripZeros_le sl _)]

end Slot.SameOperand

/-- Two states that a command cannot tell apart: the same parameters and scalar registers, and slots
that differ at most in the digit words at indices at or above `len`. -/
structure State.SameOperands (s s' : State) : Prop where
  params : s'.params = s.params
  x : s'.x = s.x
  slot : ∀ j, (s.slot j).SameOperand (s'.slot j)

namespace State.SameOperands

variable {s s' : State}

theorem refl (s : State) : s.SameOperands s := ⟨rfl, rfl, fun _ => ⟨rfl, rfl, rfl⟩⟩

theorem reg (h : s.SameOperands s') (k : Idx) : s'.reg k = s.reg k := reg_congr h.x k

theorem wf (h : s.SameOperands s') (j : Idx) : s'.wf j = s.wf j := by
  rw [State.wf, State.wf, h.params, (h.slot j).wf]

theorem wfg (h : s.SameOperands s') (j : Idx) : s'.wfg j = s.wfg j := by
  rw [State.wfg, State.wfg, h.params, (h.slot j).wfg]

end State.SameOperands

/-! ### Every command has one effect on states with the same operands (R14, R36) -/

theorem exec_sameEffect (i : Instr) {s s' : State} (h : s.SameOperands s') :
    SameEffect i s s' (exec i s) (exec i s') := by
  cases i with
  | nop => exact .writesNothing
  | wmul d a b =>
    simp only [exec, execWmul, h.reg]
    exact .writePair _
  | wsqr d a =>
    simp only [exec, execWsqr, h.reg]
    exact .writePair _
  | wdmul d a b =>
    simp only [exec, execWdmul, h.reg]
    exact .writeTriple _
  | wmac d a b c =>
    simp only [exec, execWmac, h.reg]
    exact .writePair _
  | wmsb d a =>
    simp only [exec, execWmsb, h.reg]
    exact .check fun _ => .setReg _
  | wdiv d a b =>
    simp only [exec, execWdiv, h.reg]
    exact .check fun _ => .setReg _
  | wmod d a b =>
    simp only [exec, execWmod, h.reg]
    exact .check fun _ => .setReg _
  | norm d =>
    simp only [exec, execNorm, h.params, (h.slot d).len, (h.slot d).sign, (h.slot d).normalised]
    refine .check fun hok => .setSlot (normalised_dig_length ?_)
    rw [not_or] at hok
    exact not_lt.1 hok.1
  | acmp a b =>
    simp only [exec, execAcmp, h.wf, (h.slot a).magOrder (h.slot b)]
    exact .operandCheck <| .operandCheck <| .setResult _
  | cmp a b =>
    simp only [exec, execCmp, h.wf, (h.slot a).signedOrder (h.slot b)]
    exact .operandCheck <| .operandCheck <| .setResult _
  | rsh d a shamt =>
    simp only [exec, execRsh, h.wf, (h.slot a).mag, (h.slot a).withSignOf]
    exact .operandCheck <| .writeInt _ h.params
  | lsh d a shamt =>
    simp only [exec, execLsh, h.wf, (h.slot a).mag, (h.slot a).withSignOf]
    exact .operandCheck <| .storeInt _ h.params
  | aadd d a b =>
    simp only [exec, execAadd, h.wf, (h.slot a).len, (h.slot b).len, (h.slot a).mag, (h.slot b).mag]
    exact .operandCheck <| .operandCheck <| .check fun _ => .storeInt _ h.params
  | asub d a b =>
    simp only [exec, execAsub, h.wf, (h.slot a).mag, (h.slot b).mag]
    exact .operandCheck <| .operandCheck <| .check fun _ => .writeInt _ h.params
  | add d a b =>
    simp only [exec, execAdd, h.wf, (h.slot a).sval, (h.slot b).sval]
    exact .operandCheck <| .operandCheck <| .storeInt _ h.params
  | sub d a b =>
    simp only [exec, execSub, h.wf, (h.slot a).sval, (h.slot b).sval]
    exact .operandCheck <| .operandCheck <| .storeInt _ h.params
  | mul d a b =>
    simp only [exec, execMul, multiplySlots, h.wf, (h.slot a).sval, (h.slot b).sval]
    exact .operandCheck <| .operandCheck <| .storeInt _ h.params
  | kmul d a b =>
    simp only [exec, execKmul, multiplySlots, h.wf, (h.slot a).sval, (h.slot b).sval]
    exact .operandCheck <| .operandCheck <| .storeInt _ h.params
  | sqr d a =>
    simp only [exec, execSqr, h.wf, (h.slot a).mag]
    exact .operandCheck <| .storeInt _ h.params
  | bred d a b c =>
    simp only [exec, execBred, h.wf, (h.slot a).sign, (h.slot b).sign, (h.slot c).sign,
      (h.slot a).len, (h.slot b).len, (h.slot a).mag, (h.slot b).mag, (h.slot c).mag]
    exact .operandCheck <| .operandCheck <| .operandCheck <| .check fun _ =>
      .check fun _ => .writeInt _ h.params
  | mont ignored => exact .raise
  | gdeg a =>
    simp only [exec, execGdeg, h.wfg, (h.slot a).degree]
    exact .operandCheck <| .setResult _
  | grsh d a shamt =>
    simp only [exec, execGrsh, h.wfg, (h.slot a).mag]
    exact .operandCheck <| .writePoly _ h.params
  | glsh d a shamt =>
    simp only [exec, execGlsh, h.wfg, (h.slot a).mag]
    exact .operandCheck <| .storePoly _ h.params
  | gadd d a b =>
    simp only [exec, execGadd, h.wfg, (h.slot a).mag, (h.slot b).mag]
    exact .operandCheck <| .operandCheck <| .writePoly _ h.params
  | gred d a c =>
    simp only [exec, execGred, h.wfg, (h.slot a).mag, (h.slot c).mag]
    exact .operandCheck <| .operandCheck <| .check fun _ => .writePoly _ h.params
  | gmul d a b c =>
    simp only [exec, execGmul, h.wfg, (h.slot a).len, (h.slot a).mag, (h.slot b).mag,
      (h.slot c).mag]
    exact .operandCheck <| .operandCheck <| .operandCheck <| .check fun _ =>
      .writePoly _ h.params
  | gdiv ignored => exact .raise
  | gsqr ignored => exact .raise

/-- R310: what any command can do in any state is one of its effects. -/
theorem exec_effect (i : Instr) (s : State) :
    ∃ e : Effect, e.OfCommand i s.params.cap ∧ exec i s = .next (e.run s) := by
  obtain ⟨e, he, hs, -⟩ := exec_sameEffect i (.refl s)
  exact ⟨e, he, hs⟩

theorem exec_next {i : Instr} {s t : State} (h : exec i s = .next t) :
    ∃ e : Effect, e.OfCommand i s.params.cap ∧ t = e.run s := by
  obtain ⟨e, he, hs⟩ := exec_effect i s
  exact ⟨e, he, Host.Outcome.next.inj (h.symm.trans hs)⟩

end Sys2Proof.Machine
end

section
/-! SUPPORT. What keeps the invariant of the machine: reset, commands, host accesses
(10_state.md R36, R42; 60_exceptions.md R311; 70_reset_and_hazards.md R350, R356). -/

namespace Sys2Proof.Machine.State.Inv

variable {s t : State}

/-- The invariant reads the parameters, the slots, `BUSY`, `DONE` and `ERR` only. -/
theorem congr (h : s.Inv) (hp : t.params = s.params) (hs : t.slots = s.slots)
    (hb : t.busy = s.busy) (hd : t.done = s.done) (he : t.err = s.err) : t.Inv := by
  obtain ⟨hcap, hlen, hflags⟩ := h
  refine ⟨by rwa [hp], fun j => ?_, fun hbusy => ?_⟩
  · rw [slot_congr hs, hp, hlen]
  · rw [hd, he]
    exact hflags (hb ▸ hbusy)

theorem setReg (h : s.Inv) (k : Idx) (v : Word) : (s.setReg k v).Inv := h.congr rfl rfl rfl rfl rfl

theorem overrun (h : s.Inv) : s.overrun.Inv := h.congr rfl rfl rfl rfl rfl

theorem setSlot (h : s.Inv) (j : Idx) {sl : Slot} (hsl : sl.dig.length = s.params.cap) :
    (s.setSlot j sl).Inv := by
  obtain ⟨hcap, hlen, hflags⟩ := h
  refine ⟨hcap, fun i => ?_, hflags⟩
  rw [slot_setSlot]
  split
  · exact hsl
  · exact hlen i

/-- R42: acceptance clears `DONE` and `ERR`. -/
theorem accept (h : s.Inv) (v : Word) : (s.accept v).Inv := by
  obtain ⟨hcap, hlen, -⟩ := h
  exact ⟨hcap, hlen, fun _ => ⟨rfl, rfl⟩⟩

/-- R49, R350: reset gives every slot its `CAP` digit words again. -/
theorem applyReset (h : s.Inv) : s.applyReset.Inv := by
  obtain ⟨hcap, -, -⟩ := h
  refine ⟨hcap, fun j => ?_, fun hbusy => nomatch hbusy⟩
  rw [slot_applyReset]
  exact List.length_replicate

/-! ### Commands -/

/-- R310, R311: an effect leaves the block idle, and a slot it writes has its `CAP` digit words. -/
theorem run (h : s.Inv) {i : Instr} {e : Effect} (he : e.OfCommand i s.params.cap) :
    (e.run s).Inv := by
  obtain ⟨hcap, hlen, -⟩ := h
  refine ⟨hcap, fun j => ?_, fun hbusy => nomatch hbusy⟩
  by_cases hw : ∃ sl, e.slot = some (j, sl)
  · obtain ⟨sl, hsl⟩ := hw
    rw [Effect.slot_run_of_writes s hsl]
    exact he.slot_length hsl
  · rw [Effect.slot_run_of_not_writes s (not_exists.1 hw)]
    exact hlen j

theorem exec (h : s.Inv) {i : Instr} (ht : exec i s = .next t) : t.Inv := by
  obtain ⟨e, he, rfl⟩ := exec_next ht
  exact h.run he

/-- R106, R311: an illegal word completes and writes nothing. -/
theorem complete (h : s.Inv) (c : ErrorCode) : (s.complete c).Inv := by
  obtain ⟨hcap, hlen, -⟩ := h
  exact ⟨hcap, hlen, fun hbusy => nomatch hbusy⟩

theorem runCommand (h : s.Inv) (ht : runCommand s = .next t) : t.Inv := by
  unfold Machine.runCommand at ht
  split at ht
  · exact h.exec ht
  · rw [raise_next_iff] at ht
    exact ht ▸ h.complete .illegal

theorem sequencerTurn (h : s.Inv) (ht : sequencerTurn s = .next t) : t.Inv := by
  unfold Machine.sequencerTurn at ht
  split at ht
  · exact h.runCommand ht
  · exact Host.Outcome.next.inj ht ▸ h

/-! ### Host accesses -/

theorem hostRead (h : s.Inv) (r : Reg) : (hostRead r s).Inv := by
  obtain ⟨hp, -, hs, -, hb, hd, -, he, -⟩ := hostRead_frame r s
  exact h.congr hp hs hb hd he

theorem writeCtrl (h : s.Inv) (v : Word) : (s.writeCtrl v).Inv := by
  unfold State.writeCtrl
  split
  · exact h.applyReset
  · exact h.congr rfl rfl rfl rfl rfl

/-- R41: a `STATUS` write only clears, and `DONE` is clear already while the block is busy. -/
theorem writeStatus (h : s.Inv) (v : Word) : (s.writeStatus v).Inv := by
  obtain ⟨hcap, hlen, hflags⟩ := h
  refine ⟨hcap, hlen, fun hbusy => ?_⟩
  obtain ⟨hdone, herr⟩ := hflags hbusy
  exact ⟨by simp [State.writeStatus, hdone], herr⟩

theorem writeCmd (h : s.Inv) (v : Word) : (s.writeCmd v).Inv := by
  unfold State.writeCmd
  split
  · exact h.overrun
  · exact h.accept v

/-- R356: an operand write is stored or dropped. -/
theorem writeOperand (h : s.Inv) (ht : t.Inv) : (s.writeOperand t).Inv := by
  unfold State.writeOperand
  split
  · exact h.overrun
  · exact ht

theorem hostWrite (h : s.Inv) (r : Reg) (v : Word) : (hostWrite r v s).Inv := by
  have ⟨_, hlen, _⟩ := h
  cases r with
  | id | config | lastCmd | result | reserved => exact h
  | ctrl => exact h.writeCtrl v
  | status => exact h.writeStatus v
  | cmd => exact h.writeCmd v
  | x k => exact h.writeOperand (h.setReg k v)
  | len j => exact h.writeOperand (h.setSlot j (hlen j))
  | sign j => exact h.writeOperand (h.setSlot j (hlen j))
  | dig j i => exact h.writeOperand (h.setSlot j (List.length_set.trans (hlen j)))

theorem hostAccess (h : s.Inv) {a : Access} (ht : hostAccess a s = .next t) : t.Inv := by
  obtain ⟨off, -, -, -, rfl⟩ := hostAccess_next ht
  cases a with
  | read addr width => exact h.hostRead _
  | write addr width v => exact h.hostWrite _ v

/-! ### Steps -/

theorem handleEvent (h : s.Inv) {e : Event} (ht : handleEvent e s = .next t) : t.Inv := by
  cases e with
  | host a => exact h.hostAccess ht
  | sequencer => exact h.sequencerTurn ht
  | powerOn => exact Host.Outcome.next.inj ht ▸ h.applyReset

theorem step (h : s.Inv) (ht : step s = .next t) : t.Inv := by
  cases hev : s.events with
  | nil => exact h.sequencerTurn (step_nil hev ▸ ht)
  | cons e rest =>
    have hrest : ({ s with events := rest } : State).Inv := h.congr rfl rfl rfl rfl rfl
    exact hrest.handleEvent (step_cons hev ▸ ht)

end Sys2Proof.Machine.State.Inv
end

section
/-! SUPPORT. A slot that holds a value is determined by it (00_scope.md R15). -/

namespace Sys2Proof.Machine

theorem natOfWords_eq_zero {ws : List Word} (h : ∀ w ∈ ws, w = 0) : natOfWords ws = 0 := by
  rw [List.eq_replicate_of_mem h]
  exact natOfWords_replicate_zero _

/-- A slot with zeros at and above `len` stands for its magnitude with all its words. -/
theorem Slot.natOfWords_dig {sl : Slot} (hlen : sl.len.toNat ≤ sl.dig.length)
    (hzero : ∀ i, sl.len.toNat ≤ i → sl.digit i = 0) : natOfWords sl.dig = sl.mag := by
  have hdrop : natOfWords (sl.dig.drop sl.len.toNat) = 0 := by
    refine natOfWords_eq_zero fun w hw => ?_
    obtain ⟨i, hi, rfl⟩ := List.mem_iff_getElem.1 hw
    rw [List.length_drop] at hi
    rw [List.getElem_drop, ← List.getD_eq_getElem _ 0]
    exact hzero _ (by omega)
  rw [natOfWords_take_add_drop sl.dig _ hlen, hdrop, Slot.mag, Nat.mul_zero, Nat.add_zero]

theorem signOfInt_of_pos {v : Int} (h : 0 < v) : signOfInt v = signPos := by
  rw [signOfInt, if_neg h.ne', if_pos h]

theorem signOfInt_of_neg {v : Int} (h : v < 0) : signOfInt v = signNeg := by
  rw [signOfInt, if_neg h.ne, if_neg h.not_gt]

/-- R17: the sign of a well-formed operand is the sign of its value. -/
theorem Slot.signOfInt_sval {cap : Nat} {sl : Slot} (hwf : sl.wf cap = true) :
    signOfInt sl.sval = sl.sign := by
  obtain ⟨-, hvalid, hzero, -⟩ := (Slot.wf_iff cap sl).1 hwf
  have hmag : sl.sign ≠ signZero → 0 < sl.mag := fun h =>
    Nat.pos_of_ne_zero fun e => h (hzero.1 ((Slot.mag_eq_zero_iff (Slot.wfg_of_wf hwf)).1 e))
  rcases sl.sign_cases with hs | hs | hs | hs
  · rw [Slot.sval, hs, if_neg (by decide), if_neg (by decide), signOfInt_eq_zero]
  · have : 0 < sl.mag := hmag (by rw [hs]; decide)
    rw [Slot.sval, if_pos hs, hs, signOfInt_of_pos (by omega)]
  · have : 0 < sl.mag := hmag (by rw [hs]; decide)
    rw [Slot.sval, if_neg (by rw [hs]; decide), if_pos hs, hs, signOfInt_of_neg (by omega)]
  · exact absurd hs hvalid

/-- R15: the only slot that holds `v` with zeros above is the one `WriteInt` leaves. -/
theorem Slot.HoldsInt.eq_intSlot {cap : Nat} {sl : Slot} {v : Int} (h : sl.HoldsInt cap v) :
    sl = intSlot cap v := by
  obtain ⟨hwf, rfl, hlength, hzero⟩ := h
  have hwfg := Slot.wfg_of_wf hwf
  have hle : sl.len.toNat ≤ sl.dig.length := hlength ▸ ((Slot.wfg_iff cap sl).1 hwfg).1
  have hlen : sl.len = BitVec.ofNat 16 (nwords sl.sval.natAbs) := by
    rw [Slot.natAbs_sval hwf, Slot.nwords_mag hwfg, BitVec.ofNat_toNat, BitVec.setWidth_eq]
  have hdig : sl.dig = wordsOfNat cap sl.sval.natAbs := by
    rw [Slot.natAbs_sval hwf, ← Slot.natOfWords_dig hle hzero, ← hlength, wordsOfNat_natOfWords]
  calc sl = ⟨sl.len, sl.sign, sl.dig⟩ := rfl
    _ = intSlot cap sl.sval := by rw [intSlot, ← hlen, Slot.signOfInt_sval hwf, ← hdig]

theorem intSlot_digit_toNat {cap i : Nat} (v : Int) (hi : i < cap) :
    ((intSlot cap v).digit i).toNat = v.natAbs / 2 ^ (32 * i) % 2 ^ 32 := by
  rw [intSlot_digit, if_pos hi, BitVec.toNat_ofNat]

theorem slot_writeInt (s : State) (j k : Idx) (v : Int) :
    (s.writeInt j v).slot k = if k = j then intSlot s.params.cap v else s.slot k :=
  s.slot_setSlot j k _

theorem writePoly_toNat (s : State) (j : Idx) {v : Int} (h : 0 ≤ v) :
    s.writePoly j v.toNat = s.writeInt j v := by
  rw [State.writePoly, polySlot, Int.toNat_of_nonneg h, State.writeInt]

end Sys2Proof.Machine
end

section
/-! SUPPORT. The degree of a carry-less product, and the remainder as the only small representative
(00_scope.md R18; 45_gf2n.md R274). -/

namespace Sys2Proof.Machine

theorem clmulBits_lt (k a b : Nat) : clmulBits k a b < 2 ^ (deg b + k) := by
  induction k with
  | zero => exact Nat.pow_pos (by norm_num)
  | succ k ih =>
    have hprev : clmulBits k a b < 2 ^ (deg b + (k + 1)) :=
      lt_of_lt_of_le ih (Nat.pow_le_pow_right (by norm_num) (by omega))
    rw [clmulBits_succ]
    refine Nat.xor_lt_two_pow hprev ?_
    split
    · exact shiftLeft_lt_of_degree b k
    · exact Nat.pow_pos (by norm_num)

/-- R18: the top term of a product of nonzero polynomials is the product of their top terms. -/
theorem testBit_clmul_degree {a b : Nat} (ha : a ≠ 0) (hb : b ≠ 0) :
    (clmul a b).testBit (deg b + deg a) = true := by
  have htop : clmul a b = clmulBits (deg a) a b ^^^ b <<< deg a := by
    rw [clmul, ← deg, clmulBits_succ, if_pos (testBit_deg ha)]
  rw [htop, Nat.testBit_xor, Nat.testBit_lt_two_pow (clmulBits_lt (deg a) a b),
    testBit_of_degree_add hb, Bool.false_xor]

/-- A carry-less multiple of `m` of smaller degree than `m` is zero. -/
theorem clmul_eq_zero_of_lt {q m : Nat} (hm : m ≠ 0) (h : clmul q m < 2 ^ deg m) :
    clmul q m = 0 := by
  by_contra hne
  have hq : q ≠ 0 := by
    rintro rfl
    exact hne (clmul_zero_left m)
  have hle : 2 ^ deg m ≤ 2 ^ (deg m + deg q) := Nat.pow_le_pow_right (by norm_num) (by omega)
  have hbit := testBit_clmul_degree hq hm
  rw [Nat.testBit_lt_two_pow (lt_of_lt_of_le h hle)] at hbit
  cases hbit

theorem lt_pow_deg {r m : Nat} (h : r = 0 ∨ deg r < deg m) : r < 2 ^ deg m := by
  obtain rfl | h := h
  · exact Nat.pow_pos (by norm_num)
  · exact lt_pow_of_le_log2 h

/-- R18: two polynomials below the modulus that differ from `a` by multiples of it are the same. -/
theorem remainder_unique {a m r r' : Nat} (hm : m ≠ 0) (hr : r < 2 ^ deg m) (hr' : r' < 2 ^ deg m)
    (h : ∃ q, a ^^^ r = clmul q m) (h' : ∃ q, a ^^^ r' = clmul q m) : r = r' := by
  obtain ⟨q, hq⟩ := h
  obtain ⟨q', hq'⟩ := h'
  have hxor : r ^^^ r' = clmul (q ^^^ q') m := by
    rw [clmul_xor_left, ← hq, ← hq']
    simp [Nat.xor_assoc, Nat.xor_left_comm]
  have hzero : r ^^^ r' = 0 := by
    rw [hxor]
    exact clmul_eq_zero_of_lt hm (hxor ▸ Nat.xor_lt_two_pow hr hr')
  exact Nat.xor_eq_zero_iff.1 hzero

end Sys2Proof.Machine
end

section
/-! CLAIMS. The statements of 00_scope.md. -/

namespace Sys2Proof.Machine

/-- Settles O8: each event, and the sequencer's turn, keeps the invariant. -/
theorem stepKeepsTheInvariant : Obligations.StepKeepsTheInvariant :=
  fun _ _ hinv ht => hinv.step ht

/-- Settles O29: the two states give the command one and the same effect, so what it writes is equal. -/
theorem digitsAboveLengthAreNeverRead : Obligations.DigitsAboveLengthAreNeverRead := by
  intro i s s' hp hx hslots
  have hsame : s.SameOperands s' := ⟨hp, hx, fun j => by
    obtain ⟨hlen, hsign, hwords⟩ := hslots j
    exact ⟨hlen, hsign, hwords⟩⟩
  obtain ⟨e, he, hs, hs'⟩ := exec_sameEffect i hsame
  refine ⟨e.run s, e.run s', hs, hs', rfl, ?_, fun hw hok => ?_, fun d hd hok => ?_⟩
  · rw [Effect.run_x, Effect.run_x, hx]
  · obtain ⟨v, hv⟩ := he.writes_result hok hw
    rw [Effect.run_result, Effect.run_result, hv, Option.getD_some, Option.getD_some]
  · obtain ⟨sl, hsl⟩ := he.writes_slot hok hd
    rw [Effect.slot_run_of_writes s hsl, Effect.slot_run_of_writes s' hsl]

/-- Settles O31: the words and the sign are those of R15's definition, and a slot that holds the value
has no choice left. -/
theorem writeIntNormalises : Obligations.WriteIntNormalises := by
  intro cap v hcap hv
  have hcap' : cap < 2 ^ 16 := by omega
  refine ⟨fun k => ?_, fun i hi => intSlot_digit_toNat v hi,
    ⟨signOfInt_eq_zero.2, signOfInt_of_pos, signOfInt_of_neg⟩, intSlot_holdsInt hcap' hv,
    fun _ hsl => hsl.eq_intSlot, ?_⟩
  · rw [intSlot_len_toNat hcap' hv, nwords_le_iff]
  · rintro s j k rfl
    exact ⟨slot_writeInt s j k v, writePoly_toNat s j⟩

/-- Settles O56: the loop finds a remainder (`pmod_degree`, `pmod_congruent`), and there is only one. -/
theorem polynomialRemainderIsUnique : Obligations.PolynomialRemainderIsUnique := by
  intro a m hm
  have hsmall : pmod a m = 0 ∨ deg (pmod a m) < deg m := .inr (pmod_degree a hm)
  refine ⟨hsmall, pmod_congruent a m, fun r hr hq => ?_⟩
  exact remainder_unique (by omega) (lt_pow_deg hr) (lt_pow_deg hsmall) hq (pmod_congruent a m)

end Sys2Proof.Machine
end

section
/-! SUPPORT. What a step does at a read, at a write of `CTRL`, `STATUS` or `CMD`, and at a reset
(10_state.md R38-R43, R49; 20_memory.md R72, R76; 70_reset_and_hazards.md R350-R357). -/

namespace Sys2Proof.Machine

/-! ### The map at the offsets without an operand (R72) -/

theorem regAt_of_reservedOffset {cap off : Nat} (h : ReservedOffset cap off) :
    regAt cap off = .reserved := by
  unfold ReservedOffset at h
  unfold regAt
  iterate 10 rw [if_neg (by omega)]

theorem eq_ctrl_offset {cap off : Nat} (hal : off % 4 = 0) (h : regAt cap off = .ctrl) :
    off = 0x00008 := by
  have hoff := (offset_regAt hal (h.trans_ne (by decide))).2
  rw [h, Reg.offset, Option.some.injEq] at hoff
  exact hoff.symm

/-! ### Reads (R76, R357) -/

/-- The value of a register does not depend on the events to come. -/
theorem regValue_events (s : State) (rest : List Event) (r : Reg) :
    ({ s with events := rest } : State).regValue r = s.regValue r := by
  cases r <;> rfl

/-- R357: only a read of an operand register or `RESULT` while the block is busy hides the value. -/
theorem hostRead_visible {s : State} {r : Reg} (h : s.busy = false ∨ r.hiddenWhileBusy = false) :
    hostRead r s = { s with readData := s.regValue r } := by
  refine if_neg ?_
  obtain h | h := h <;> simp [h]

theorem step_read_visible {s : State} {off : Nat} {rest : List Event} {r : Reg} (hoff : off < 2 ^ 20)
    (hal : off % 4 = 0) (hr : regAt s.params.cap off = r)
    (hvis : s.busy = false ∨ r.hiddenWhileBusy = false) (h : s.events = s.readAt off :: rest) :
    step s = .next { s with readData := s.regValue r, events := rest } := by
  have hread := hostRead_visible (s := { s with events := rest }) hvis
  rw [step_readAt hoff hal h, hr, hread, regValue_events]

/-- R41: each field of `STATUS` where the host reads it, and zeros elsewhere. -/
theorem statusWord_fields (s : State) :
    s.statusWord.getLsbD 0 = s.busy ∧ s.statusWord.getLsbD 1 = s.done
      ∧ s.statusWord.getLsbD 2 = s.ovr ∧ s.statusWord.getLsbD 3 = false
      ∧ s.statusWord.extractLsb' 4 4 = s.err.bits ∧ s.statusWord.extractLsb' 8 24 = 0 := by
  rw [State.statusWord]
  generalize s.err.bits = code
  generalize s.ovr = ovr
  generalize s.done = done
  generalize s.busy = busy
  revert code ovr done busy
  decide

theorem ctrlWord_eq (s : State) : s.ctrlWord = if s.ie then 1 else 0 := by
  rw [State.ctrlWord]
  cases s.ie <;> rfl

/-- R39: the fields of `CONFIG` do not overlap, `CAP` being below `2^16`. -/
theorem configWord_toNat {s : State} (hp : s.params.wf = true) :
    s.configWord.toNat = s.params.cap * 2 ^ 16 + 16 * 2 ^ 8 + 32 := by
  have hcap := cap_lt_of_wf hp
  simp only [State.configWord, BitVec.toNat_append, BitVec.toNat_ofNat, Config.slotCount,
    Config.wordBits, Nat.mod_eq_of_lt hcap]
  rw [← Nat.shiftLeft_add_eq_or_of_lt (by norm_num), ← Nat.shiftLeft_add_eq_or_of_lt (by norm_num),
    Nat.shiftLeft_eq, Nat.shiftLeft_eq]
  omega

/-! ### Writes of the registers that are no operands (R40-R43) -/

theorem writeCtrl_reset {s : State} {v : Word} (hv : v.getLsbD 1 = true) :
    s.writeCtrl v = s.applyReset := if_pos hv

theorem writeCtrl_enable {s : State} {v : Word} (hv : v.getLsbD 1 = false) :
    s.writeCtrl v = { s with ie := v.getLsbD 0 } := if_neg (Bool.not_eq_true _ ▸ hv)

theorem writeStatus_eq (s : State) (v : Word) :
    s.writeStatus v = { s with
      done := if v.getLsbD 1 then false else s.done
      ovr := if v.getLsbD 2 then false else s.ovr } := by
  rw [State.writeStatus]
  cases v.getLsbD 1 <;> cases v.getLsbD 2 <;> simp

theorem writeCmd_idle {s : State} {v : Word} (hb : s.busy = false) : s.writeCmd v = s.accept v :=
  if_neg (Bool.not_eq_true _ ▸ hb)

theorem writeCmd_busy {s : State} {v : Word} (hb : s.busy = true) : s.writeCmd v = s.overrun :=
  if_pos hb

section

variable {s : State} {v : Word} {rest : List Event}

theorem step_write_ctrl (h : s.events = s.writeAt 0x00008 v :: rest) :
    step s = .next (({ s with events := rest } : State).writeCtrl v) :=
  step_writeAt (by norm_num) rfl h

theorem step_write_status (h : s.events = s.writeAt 0x0000C v :: rest) :
    step s = .next (({ s with events := rest } : State).writeStatus v) :=
  step_writeAt (by norm_num) rfl h

theorem step_write_cmd (h : s.events = s.writeAt 0x00010 v :: rest) :
    step s = .next (({ s with events := rest } : State).writeCmd v) :=
  step_writeAt (by norm_num) rfl h

end

/-! ### Reset (R49, R350, R351) -/

theorem step_reset {s : State} {e : Event} {rest : List Event} (he : s.IsReset e)
    (h : s.events = e :: rest) :
    step s = .next ({ s with events := rest } : State).applyReset := by
  obtain rfl | ⟨v, hv, rfl⟩ := he
  · exact step_cons h
  · rw [step_write_ctrl h, writeCtrl_reset hv]

theorem slot_resetWith (p : Config.Params) (j : Idx) :
    (State.resetWith p).slot j = Slot.zero p.cap := by
  simp [State.slot, State.resetWith]

theorem Slot.zero_digit (cap i : Nat) : (Slot.zero cap).digit i = 0 := by
  simp only [Slot.digit, Slot.zero, List.getD_eq_getElem?_getD, List.getElem?_replicate]
  split <;> rfl

/-- R49: "every slot resets to the well-formed value zero". -/
theorem Slot.zero_wf (cap : Nat) : (Slot.zero cap).wf cap = true := by
  rw [Slot.wf_iff]
  exact ⟨Nat.zero_le _, nofun, iff_of_true rfl rfl, fun h => absurd rfl h⟩

theorem resetWith_atResetValues (p : Config.Params) : (State.resetWith p).AtResetValues := by
  refine ⟨fun k => ?_, fun j => ?_, rfl, rfl, rfl, rfl, rfl, rfl, rfl, rfl⟩
  · simp [State.reg, State.resetWith]
  · rw [slot_resetWith]
    exact ⟨rfl, rfl, List.length_replicate, Slot.zero_digit p.cap⟩

theorem applyReset_atResetValues (s : State) : s.applyReset.AtResetValues :=
  resetWith_atResetValues s.params

end Sys2Proof.Machine
end

section
/-! SUPPORT. The sequencer's turn (10_state.md R30, R31; 60_exceptions.md R310, R311). -/

namespace Sys2Proof.Machine

theorem sequencerTurn_idle {s : State} (h : s.busy = false) : sequencerTurn s = .next s := by
  simp [sequencerTurn, h]

theorem sequencerTurn_decoded {s : State} {i : Instr} (hb : s.busy = true)
    (hd : decode s.lastCmd = .ok i) : sequencerTurn s = exec i s := by
  simp [sequencerTurn, runCommand, hb, hd]

theorem sequencerTurn_illegal {s : State} {e : DecodeError} (hb : s.busy = true)
    (hd : decode s.lastCmd = .error e) : sequencerTurn s = raise .illegal s := by
  simp [sequencerTurn, runCommand, hb, hd]

theorem decode_of_decodeTableWord {nbits w : Nat} {i : Instr} (h : decodeTableWord nbits w = some i) :
    decode (BitVec.ofNat 32 (w % 2 ^ nbits)) = .ok i := by
  unfold decodeTableWord at h
  cases hd : decode (BitVec.ofNat 32 (w % 2 ^ nbits)) with
  | ok i' =>
    rw [hd] at h
    exact congrArg _ (Option.some.inj h)
  | error e =>
    rw [hd] at h
    cases h

/-- R310, R311: a command in flight, its word legal or not, completes at the sequencer's turn. -/
theorem sequencerTurn_busy {s : State} (hb : s.busy = true) :
    ∃ t, sequencerTurn s = .next t ∧ t.done = true ∧ t.ie = s.ie := by
  cases hd : decode s.lastCmd with
  | ok i =>
    obtain ⟨e, -, he⟩ := exec_effect i s
    exact ⟨e.run s, (sequencerTurn_decoded hb hd).trans he, rfl, rfl⟩
  | error e => exact ⟨s.complete .illegal, sequencerTurn_illegal hb hd, rfl, rfl⟩

end Sys2Proof.Machine
end

section
/-! SUPPORT. The operands of a command in flight, and what keeps a slot well-formed: every command, and
every host write but one of the slot's own fields (10_state.md R47, R48; 00_scope.md R15, R17). -/

namespace Sys2Proof.Machine

theorem writeOperand_busy {s stored : State} (hb : s.busy = true) : s.writeOperand stored = s.overrun :=
  if_pos hb

/-! ### A command in flight (R47, R356) -/

/-- `t` holds the same operands and the same command in flight as `s`. -/
structure State.SameInFlight (s t : State) : Prop where
  x : t.x = s.x
  slots : t.slots = s.slots
  lastCmd : t.lastCmd = s.lastCmd
  busy : t.busy = s.busy
  params : t.params = s.params

theorem hostRead_sameInFlight (r : Reg) (s : State) : s.SameInFlight (hostRead r s) := by
  obtain ⟨hp, hx, hs, -, hb, -, -, -, hc, -⟩ := hostRead_frame r s
  exact ⟨hx, hs, hc, hb, hp⟩

/-- R356: a busy block drops or ignores every write that could reach an operand or the command, a reset
apart. -/
theorem hostWrite_sameInFlight {s : State} {r : Reg} {v : Word} (hb : s.busy = true)
    (hr : r = .ctrl → v.getLsbD 1 = false) : s.SameInFlight (hostWrite r v s) := by
  have dropped : s.SameInFlight s.overrun := ⟨rfl, rfl, rfl, rfl, rfl⟩
  cases r with
  | id | config | lastCmd | result | reserved | status => exact ⟨rfl, rfl, rfl, rfl, rfl⟩
  | ctrl =>
    rw [hostWrite, writeCtrl_enable (hr rfl)]
    exact ⟨rfl, rfl, rfl, rfl, rfl⟩
  | cmd =>
    rw [hostWrite, writeCmd_busy hb]
    exact dropped
  | x _ | len _ | sign _ | dig _ _ =>
    rw [hostWrite, writeOperand_busy hb]
    exact dropped

/-! ### Well-formed slots from one state to the next -/

theorem wf_congr {s t : State} {j : Idx} (hp : t.params = s.params) (hs : t.slot j = s.slot j) :
    t.wf j = s.wf j := by
  rw [State.wf, State.wf, hp, hs]

/-- Every slot that is well-formed in `s` is well-formed in the next state, if there is one. -/
def State.KeepsWf (s : State) (r : Result) : Prop :=
  ∀ t, r = .next t → ∀ j, s.wf j = true → t.wf j = true

/-- R17: an operand that passed its check has at most `CAP` words. -/
theorem mag_lt_of_wf {s : State} {j : Idx} (h : s.wf j = true) :
    (s.slot j).mag < 2 ^ (32 * s.params.cap) := Slot.mag_lt_cap (Slot.wfg_of_wf h)

theorem mag_lt_of_wfg {s : State} {j : Idx} (h : s.wfg j = true) :
    (s.slot j).mag < 2 ^ (32 * s.params.cap) := Slot.mag_lt_cap h

/-- R17: the magnitude of a positive operand is not 0. -/
theorem mag_pos_of_wf {s : State} {j : Idx} (h : s.wf j = true) (hs : (s.slot j).sign = signPos) :
    0 < (s.slot j).mag := by
  obtain ⟨-, -, hzero, -⟩ := (Slot.wf_iff _ _).1 h
  refine Nat.pos_of_ne_zero fun h0 => ?_
  have hsign := hzero.1 ((Slot.mag_eq_zero_iff (Slot.wfg_of_wf h)).1 h0)
  rw [hs] at hsign
  exact absurd hsign (by decide)

namespace State.KeepsWf

variable {s : State} {d : Idx}

theorem stay : s.KeepsWf (.next s) := fun _ ht _ hj => Host.Outcome.next.inj ht ▸ hj

/-- R315: an error writes no slot. -/
theorem raise (c : ErrorCode) : s.KeepsWf (raise c s) := fun _ ht _ hj =>
  raise_next_iff.1 ht ▸ hj

theorem check {p : Prop} [Decidable p] {c : ErrorCode} {r : Result} (hpass : ¬ p → s.KeepsWf r) :
    s.KeepsWf (if p then Machine.raise c s else r) := by
  by_cases h : p
  · rw [if_pos h]
    exact raise c
  · rw [if_neg h]
    exact hpass h

/-- R314: past an operand check the operand is well-formed. -/
theorem operandCheck {b : Bool} {c : ErrorCode} {r : Result} (hpass : b = true → s.KeepsWf r) :
    s.KeepsWf (if !b then Machine.raise c s else r) :=
  check fun h => hpass (by simpa using h)

theorem setSlot {sl : Slot} (hsl : sl.wf s.params.cap = true) :
    s.KeepsWf (succeed (s.setSlot d sl)) := by
  intro t ht j hj
  rw [succeed_next_iff.1 ht, State.wf, slot_complete, slot_setSlot, complete_params, setSlot_params]
  split
  · exact hsl
  · exact hj

/-- R15: a value that fits is written normalised. -/
theorem writeInt {v : Int} (hp : s.params.wf = true) (hv : v.natAbs < 2 ^ (32 * s.params.cap)) :
    s.KeepsWf (succeed (s.writeInt d v)) := setSlot (intSlot_wf (cap_lt_of_wf hp) hv)

theorem writePoly {p : Nat} (hp : s.params.wf = true) (hv : p < 2 ^ (32 * s.params.cap)) :
    s.KeepsWf (succeed (s.writePoly d p)) := writeInt hp hv

/-- R313: a value that does not fit raises CAPACITY. -/
theorem storeInt (v : Int) (hp : s.params.wf = true) : s.KeepsWf (storeInt d v s) := by
  refine check fun hfits => writeInt hp ?_
  rwa [← nwords_le_iff, ← not_lt]

theorem storePoly (p : Nat) (hp : s.params.wf = true) : s.KeepsWf (storePoly d p s) :=
  storeInt p hp

end State.KeepsWf

/-! ### Commands (R15, R48) -/

/-- A command leaves every slot but its destination as it was. -/
theorem exec_slot_of_not_dest {i : Instr} {s t : State} {j : Idx} (h : exec i s = .next t)
    (hd : i.destSlot ≠ some j) : t.slot j = s.slot j := by
  obtain ⟨e, he, rfl⟩ := exec_next h
  refine Effect.slot_run_of_not_writes s fun sl hsl => hd ?_
  obtain ⟨-, -, -, -, hnone⟩ | ⟨-, hdest, -⟩ := he
  · simp [hnone] at hsl
  · rw [hdest.slot, hsl, Option.map_some]

theorem exec_keepsWf_of_no_dest {i : Instr} (s : State) (hd : i.destSlot = none) :
    s.KeepsWf (exec i s) := by
  intro t ht j hj
  have hslot : t.slot j = s.slot j := exec_slot_of_not_dest ht (by simp [hd])
  obtain ⟨e, -, rfl⟩ := exec_next ht
  rwa [wf_congr (e.run_params s) hslot]

theorem barrettValue_lt {m : Nat} (n z t : Nat) (hm : 0 < m) : barrettValue n z m t < m :=
  Nat.mod_lt _ hm

/-- R15, R48: "no command produces" a denormalised slot.  What is left to say of each command is that
the value it writes without a capacity check fits. -/
theorem exec_keepsWf (i : Instr) {s : State} (hp : s.params.wf = true) : s.KeepsWf (exec i s) := by
  cases i with
  | nop | wmul _ _ _ | wsqr _ _ | wdmul _ _ _ | wmac _ _ _ _ | wmsb _ _ | wdiv _ _ _ | wmod _ _ _
  | acmp _ _ | cmp _ _ | mont _ | gdeg _ | gdiv _ | gsqr _ => exact exec_keepsWf_of_no_dest s rfl
  | norm d =>
    refine .check fun hok => .setSlot ?_
    obtain ⟨hlen, hsign⟩ := not_or.1 hok
    exact normalised_wf (not_lt.1 hlen) hsign
  | rsh d a shamt =>
    refine .operandCheck fun ha => .writeInt hp ?_
    rw [withSignOf_natAbs]
    exact (Nat.div_le_self _ _).trans_lt (mag_lt_of_wf ha)
  | asub d a b =>
    refine .operandCheck fun ha => .operandCheck fun _ => .check fun _ => .writeInt hp ?_
    rw [Int.natAbs_natCast]
    exact (Nat.sub_le _ _).trans_lt (mag_lt_of_wf ha)
  | bred d a b c =>
    refine .operandCheck fun _ => .operandCheck fun hb => .operandCheck fun _ => .check fun hsigns =>
      .check fun _ => .writeInt hp ?_
    have hpos : (s.slot b).sign = signPos := by
      by_contra h
      exact hsigns (.inr (.inl h))
    rw [Int.natAbs_natCast]
    exact (barrettValue_lt _ _ _ (mag_pos_of_wf hb hpos)).trans (mag_lt_of_wf hb)
  | lsh d a shamt => exact .operandCheck fun _ => .storeInt _ hp
  | aadd d a b =>
    exact .operandCheck fun _ => .operandCheck fun _ => .check fun _ => .storeInt _ hp
  | add d a b => exact .operandCheck fun _ => .operandCheck fun _ => .storeInt _ hp
  | sub d a b => exact .operandCheck fun _ => .operandCheck fun _ => .storeInt _ hp
  | mul d a b => exact .operandCheck fun _ => .operandCheck fun _ => .storeInt _ hp
  | kmul d a b => exact .operandCheck fun _ => .operandCheck fun _ => .storeInt _ hp
  | sqr d a => exact .operandCheck fun _ => .storeInt _ hp
  | grsh d a shamt =>
    refine .operandCheck fun ha => .writePoly hp ?_
    exact (Nat.div_le_self _ _).trans_lt (mag_lt_of_wfg ha)
  | glsh d a shamt => exact .operandCheck fun _ => .storePoly _ hp
  | gadd d a b =>
    refine .operandCheck fun ha => .operandCheck fun hb => .writePoly hp ?_
    exact Nat.xor_lt_two_pow (mag_lt_of_wfg ha) (mag_lt_of_wfg hb)
  | gred d a c =>
    refine .operandCheck fun _ => .operandCheck fun hc => .check fun hm => .writePoly hp ?_
    exact (pmod_lt _ (not_lt.1 hm)).trans (mag_lt_of_wfg hc)
  | gmul d a b c =>
    refine .operandCheck fun _ => .operandCheck fun _ => .operandCheck fun hc => .check fun hm =>
      .writePoly hp ?_
    exact (pmod_lt _ (not_lt.1 hm)).trans (mag_lt_of_wfg hc)

theorem sequencerTurn_keepsWf {s : State} (hp : s.params.wf = true) :
    s.KeepsWf (sequencerTurn s) := by
  cases hb : s.busy with
  | false =>
    rw [sequencerTurn_idle hb]
    exact .stay
  | true =>
    cases hd : decode s.lastCmd with
    | ok i =>
      rw [sequencerTurn_decoded hb hd]
      exact exec_keepsWf i hp
    | error e =>
      rw [sequencerTurn_illegal hb hd]
      exact .raise _

/-! ### Host accesses (R48) -/

/-- The registers of the window that make up slot `j`. -/
def Reg.IsFieldOf (j : Idx) (r : Reg) : Prop := r = .len j ∨ r = .sign j ∨ ∃ i, r = .dig j i

theorem applyReset_wf (s : State) (j : Idx) : s.applyReset.wf j = true := by
  rw [State.wf, State.slot_applyReset]
  exact Slot.zero_wf _

theorem writeOperand_wf {s stored : State} {j : Idx} (hs : s.wf j = true) (ht : stored.wf j = true) :
    (s.writeOperand stored).wf j = true := by
  unfold State.writeOperand
  split
  · exact hs
  · exact ht

theorem setSlot_wf_of_ne {s : State} {j k : Idx} (sl : Slot) (h : j ≠ k) :
    (s.setSlot k sl).wf j = s.wf j := wf_congr rfl (by rw [State.slot_setSlot, if_neg h])

/-- A write of any register but the slot's own keeps the slot well-formed. -/
theorem hostWrite_wf {s : State} {r : Reg} {j : Idx} (v : Word) (hr : ¬ r.IsFieldOf j)
    (hj : s.wf j = true) : (hostWrite r v s).wf j = true := by
  have other : ∀ {k : Idx} (sl : Slot), j ≠ k → (s.writeOperand (s.setSlot k sl)).wf j = true :=
    fun sl hne => writeOperand_wf hj ((setSlot_wf_of_ne sl hne).trans hj)
  cases r with
  | id | config | lastCmd | result | reserved | status => exact hj
  | ctrl =>
    rw [hostWrite, State.writeCtrl]
    split
    · exact applyReset_wf s j
    · exact hj
  | cmd =>
    rw [hostWrite, State.writeCmd]
    split <;> exact hj
  | x k => exact writeOperand_wf hj hj
  | len k => exact other _ fun h => hr (.inl (h ▸ rfl))
  | sign k => exact other _ fun h => hr (.inr (.inl (h ▸ rfl)))
  | dig k i => exact other _ fun h => hr (.inr (.inr ⟨i, h ▸ rfl⟩))

/-- An access that ends with the slot malformed was a write of one of its fields. -/
theorem hostAccess_wf {s t : State} {a : Access} {j : Idx} (h : hostAccess a s = .next t)
    (hj : s.wf j = true) (hmal : t.wf j = false) :
    ∃ off v, Event.host a = s.writeAt off v ∧ off % 4 = 0
      ∧ (regAt s.params.cap off).IsFieldOf j := by
  obtain ⟨off, hoff, hwidth, hal, rfl⟩ := hostAccess_next h
  obtain ⟨haddr, -⟩ := addr_of_offsetOf hoff
  cases a with
  | read addr width =>
    have hsame := hostRead_sameInFlight (regAt s.params.cap off) s
    have : (hostRead (regAt s.params.cap off) s).wf j = s.wf j :=
      wf_congr hsame.params (State.slot_congr hsame.slots j)
    exact absurd (this.symm.trans hmal) (by simp [hj])
  | write addr width v =>
    obtain rfl : addr = s.params.base + off := haddr
    obtain rfl : width = .w32 := hwidth
    refine ⟨off, v, rfl, hal, ?_⟩
    by_contra hr
    exact absurd (hostWrite_wf v hr hj) (by simpa [Access.perform] using hmal)

/-! ### Events (R48) -/

/-- An event that ends with the slot malformed was a write of one of its fields. -/
theorem handleEvent_wf {s t : State} {e : Event} {j : Idx} (hp : s.params.wf = true)
    (h : handleEvent e s = .next t) (hj : s.wf j = true) (hmal : t.wf j = false) :
    ∃ off v, e = s.writeAt off v ∧ off % 4 = 0 ∧ (regAt s.params.cap off).IsFieldOf j := by
  have hstays : t.wf j ≠ true := by simp [hmal]
  cases e with
  | host a => exact hostAccess_wf h hj hmal
  | sequencer => exact absurd (sequencerTurn_keepsWf hp t h j hj) hstays
  | powerOn =>
    obtain rfl := Host.Outcome.next.inj h
    exact absurd (applyReset_wf s j) hstays

/-- R72: a field of a slot at an aligned offset is one of the map, its digit index below `CAP`. -/
theorem Reg.IsFieldOf.mapped {cap off : Nat} {j : Idx} (h : (regAt cap off).IsFieldOf j)
    (hal : off % 4 = 0) :
    ∃ r : Reg, r.offset cap = some off
      ∧ (r = .len j ∨ r = .sign j ∨ ∃ i, i < cap ∧ r = .dig j i) := by
  have hmapped : regAt cap off ≠ .reserved := by
    intro hres
    simp [Reg.IsFieldOf, hres] at h
  obtain ⟨hvalid, hoff⟩ := offset_regAt hal hmapped
  refine ⟨_, hoff, ?_⟩
  obtain h | h | ⟨i, h⟩ := h
  · exact .inl h
  · exact .inr (.inl h)
  · rw [h] at hvalid
    exact .inr (.inr ⟨i, hvalid, h⟩)

end Sys2Proof.Machine
end

section
/-! CLAIMS. The statements of 10_state.md. -/

namespace Sys2Proof.Machine

/-- Settles O30: the sequencer's turn and a reset keep every slot well-formed, so the step took a host
access, and that access was a write of a field of the slot. -/
theorem onlyTheHostDenormalisesASlot : Obligations.OnlyTheHostDenormalisesASlot := by
  intro s t j hp hstep hj hmal
  cases hev : s.events with
  | nil =>
    rw [sequencerTurn_keepsWf hp t (step_nil hev ▸ hstep) j hj] at hmal
    cases hmal
  | cons e rest =>
    obtain ⟨off, v, rfl, hal, hfield⟩ :=
      handleEvent_wf (s := { s with events := rest }) hp (step_cons hev ▸ hstep) hj hmal
    obtain ⟨r, hoff, hr⟩ := hfield.mapped hal
    exact ⟨off, v, rest, r, rfl, hoff, hr⟩

/-- Settles O12: the map of R72 names the register, and `hostWrite` and `hostRead` say what it does. -/
theorem readOnlyAndReservedOffsets : Obligations.ReadOnlyAndReservedOffsets := by
  intro s rest hp
  refine ⟨fun off v hoff hal hro h => ?_, fun off hoff hal hzero h => ?_, fun h => ?_, fun h => ?_,
    fun h => ?_, fun hidle h => ?_⟩
  · rw [step_writeAt hoff hal h]
    obtain hres | rfl | rfl | rfl | rfl := hro
    · rw [regAt_of_reservedOffset hres]
      rfl
    all_goals rfl
  · obtain hres | rfl := hzero
    · exact step_read_visible hoff hal (regAt_of_reservedOffset hres) (.inr rfl) h
    · exact step_read_visible (r := .cmd) hoff hal rfl (.inr rfl) h
  · exact step_read_visible (r := .id) (by norm_num) rfl rfl (.inr rfl) h
  · exact ⟨s.configWord, step_read_visible (r := .config) (by norm_num) rfl rfl (.inr rfl) h,
      configWord_toNat hp⟩
  · exact step_read_visible (r := .lastCmd) (by norm_num) rfl rfl (.inr rfl) h
  · exact step_read_visible (r := .result) (by norm_num) rfl rfl (.inl hidle) h

/-- Settles O18: an access performed on a busy block keeps the operands and the command, unless it is
the `CTRL` write that resets. -/
theorem inFlightOperandsAreFixed : Obligations.InFlightOperandsAreFixed := by
  intro s t a rest hb hev hreset hstep
  rw [step_cons hev] at hstep
  obtain ⟨off, hoff, hwidth, hal, rfl⟩ := hostAccess_next hstep
  obtain ⟨haddr, -⟩ := addr_of_offsetOf hoff
  have hsame : ({ s with events := rest } : State).SameInFlight
      (a.perform (regAt s.params.cap off) { s with events := rest }) := by
    cases a with
    | read addr width => exact hostRead_sameInFlight _ _
    | write addr width v =>
      refine hostWrite_sameInFlight hb fun hctrl => ?_
      obtain rfl := eq_ctrl_offset hal hctrl
      obtain rfl : addr = s.params.base + 0x00008 := haddr
      obtain rfl : width = .w32 := hwidth
      by_contra hv
      exact hreset (.inr ⟨v, by simpa using hv, rfl⟩)
  exact ⟨hsame.x, hsame.slots, hsame.lastCmd, hsame.busy.trans hb, hsame.params⟩

/-- Settles O27: the operands are the same in both states, so the command has one effect on both. -/
theorem flagsNeverInfluenceACommand : Obligations.FlagsNeverInfluenceACommand := by
  intro i s s' hp hx hslots
  have hsame : s.SameOperands s' := ⟨hp, hx, fun j => by
    rw [State.slot_congr hslots]
    exact ⟨rfl, rfl, rfl⟩⟩
  obtain ⟨e, he, hs, hs'⟩ := exec_sameEffect i hsame
  refine ⟨e.run s, e.run s', hs, hs', rfl, ?_, ?_, fun hw hok => ?_⟩
  · rw [Effect.run_x, Effect.run_x, hx]
  · rw [Effect.run_slots, Effect.run_slots, hslots]
  · obtain ⟨v, hv⟩ := he.writes_result hok hw
    rw [Effect.run_result, Effect.run_result, hv, Option.getD_some, Option.getD_some]

/-- Settles O5: the reset values of any machine, at the default `CAP` of R10. -/
theorem resetHoldsTheResetValues : Obligations.ResetHoldsTheResetValues := by
  refine ⟨resetWith_atResetValues _, rfl, fun j => ?_, rfl, rfl⟩
  rw [State.wf, State.reset, slot_resetWith]
  exact Slot.zero_wf _

/-- Settles O7: a `CTRL` write by its bit 1, and a `CTRL` read. -/
theorem controlRegisterStoresEnableOrResets : Obligations.ControlRegisterStoresEnableOrResets := by
  intro s rest
  refine ⟨fun v h hv => ?_, fun v h hv => ?_, fun h => ?_⟩
  · rw [step_write_ctrl h, writeCtrl_reset hv]
    exact ⟨_, rfl, applyReset_atResetValues _, rfl, rfl⟩
  · rw [step_write_ctrl h, writeCtrl_enable hv]
  · rw [← ctrlWord_eq]
    exact step_read_visible (r := .ctrl) (by norm_num) rfl rfl (.inr rfl) h

/-- Settles O9: `CAP` is 128, every slot has its words, and no command is in flight. -/
theorem resetMeetsTheInvariant : Obligations.ResetMeetsTheInvariant := by
  refine ⟨rfl, fun j => ?_, nofun⟩
  rw [State.reset, slot_resetWith]
  exact List.length_replicate

/-- Settles O15: the fields of `STATUS`, and its write-1-to-clear bits. -/
theorem statusReadsAndClears : Obligations.StatusReadsAndClears := by
  intro s rest
  refine ⟨fun h => ⟨s.statusWord, ?_, statusWord_fields s⟩, fun v h => ?_⟩
  · exact step_read_visible (r := .status) (by norm_num) rfl rfl (.inr rfl) h
  · rw [step_write_status h, writeStatus_eq]

/-- Settles O16: a `CMD` write by the state of `BUSY`, and a `CMD` read. -/
theorem commandIssue : Obligations.CommandIssue := by
  intro s rest
  refine ⟨fun v h hb => ?_, fun v h hb => ?_, fun h => ?_⟩
  · have hwrite := writeCmd_idle (s := { s with events := rest }) (v := v) hb
    rw [step_write_cmd h, hwrite]
    rfl
  · have hwrite := writeCmd_busy (s := { s with events := rest }) (v := v) hb
    rw [step_write_cmd h, hwrite]
    rfl
  · exact step_read_visible (r := .cmd) (by norm_num) rfl rfl (.inr rfl) h

/-- Settles O20: the sequencer's turn, queued or not, runs what `LASTCMD` decodes to. -/
theorem stepRunsTheDecodedCommand : Obligations.StepRunsTheDecodedCommand := by
  refine ⟨fun s i hb hd => ⟨fun h => ?_, fun rest h => ?_⟩,
    fun s hidle => ⟨fun h => ?_, fun rest h => ?_⟩, fun s nbits w i hd => ?_⟩
  · rw [step_nil h, sequencerTurn_decoded hb hd]
  · exact (step_turnNext (.inl h)).trans (sequencerTurn_decoded hb hd)
  · rw [step_nil h, sequencerTurn_idle hidle]
  · exact (step_turnNext (.inl h)).trans (sequencerTurn_idle hidle)
  · have hturn : (s.withFetchWord nbits w).TurnNext s.events := .inl rfl
    exact (step_turnNext hturn).trans (sequencerTurn_decoded rfl (decode_of_decodeTableWord hd))

/-- Settles O25: a completion leaves `DONE` set and `IE` alone; each other cause leaves `IE` or `DONE`
as it says. -/
theorem interruptLevel : Obligations.InterruptLevel := by
  refine ⟨fun _ => rfl, fun s rest hb hturn => ?_, fun s v rest =>
    ⟨fun h hv hie hdone => ?_, fun h hv hie => ?_, fun h hv => ?_, fun h hidle => ?_,
      fun e he h => ?_⟩⟩
  · obtain ⟨t, ht, hdone, hie⟩ := sequencerTurn_busy (s := { s with events := rest }) hb
    exact ⟨t, (step_turnNext hturn).trans ht, by simp [State.irq, hdone, hie]⟩
  · rw [step_write_ctrl h, writeCtrl_enable hv]
    exact ⟨_, rfl, by simp [State.irq, hie, hdone]⟩
  · rw [step_write_ctrl h, writeCtrl_enable hv]
    exact ⟨_, rfl, by rw [State.irq, hie, Bool.false_and]⟩
  · rw [step_write_status h, writeStatus_eq]
    exact ⟨_, rfl, by simp [State.irq, hv]⟩
  · have hwrite := writeCmd_idle (s := { s with events := rest }) (v := v) hidle
    rw [step_write_cmd h, hwrite]
    exact ⟨_, rfl, by simp [State.irq]⟩
  · exact ⟨_, step_reset he h, rfl⟩

end Sys2Proof.Machine
end

section
/-! SUPPORT. The register window from outside: where no register stands, which accesses are refused, and
what an idle block's registers hold after a write of an operand (20_memory.md R71-R75; 60_exceptions.md
R320). -/

namespace Sys2Proof.Machine

/-! ### The offsets without a register (R72) -/

/-- R72: an aligned offset of the window outside the reserved ranges falls under one of the map's ranges. -/
theorem regAt_eq_reserved_iff {cap off : Nat} (hoff : off < 2 ^ 20) (hal : off % 4 = 0) :
    regAt cap off = .reserved ↔ ReservedOffset cap off := by
  refine ⟨fun h => ?_, regAt_of_reservedOffset⟩
  unfold regAt at h
  split_ifs at h
  unfold ReservedOffset
  omega

/-! ### Refused accesses (R71, R320) -/

/-- R71: the width is looked at first, then the offset. -/
theorem hostAccess_refused {s : State} {a : Access} {off : Nat}
    (haddr : a.addr = s.params.base + off) (hoff : off < 2 ^ 20)
    (hbad : a.width ≠ .w32 ∨ off % 4 ≠ 0) : ∃ r, hostAccess a s = .refused r := by
  simp only [hostAccess, haddr, offsetOf_base_add hoff]
  by_cases hw : a.width = .w32
  · have hal : off % 4 ≠ 0 := hbad.resolve_left (not_not.2 hw)
    rw [if_neg (not_not.2 hw), if_pos hal]
    exact ⟨_, rfl⟩
  · rw [if_pos hw]
    exact ⟨_, rfl⟩

/-! ### Writes of the operand registers (R73-R75) -/

/-- R73, R74: the bus word that an operand register holds after a write of `v`. -/
def Reg.stored (v : Word) : Reg → Word
  | .len _ => (v.extractLsb' 0 16).setWidth 32
  | .sign _ => (v.extractLsb' 0 2).setWidth 32
  | _ => v

theorem Reg.stored_len_toNat (v : Word) (j : Idx) :
    ((Reg.len j).stored v).toNat = v.toNat % 2 ^ 16 := by
  simp only [Reg.stored, BitVec.toNat_setWidth, BitVec.extractLsb'_toNat, Nat.shiftRight_zero]
  omega

theorem Reg.stored_sign_toNat (v : Word) (j : Idx) :
    ((Reg.sign j).stored v).toNat = v.toNat % 4 := by
  simp only [Reg.stored, BitVec.toNat_setWidth, BitVec.extractLsb'_toNat, Nat.shiftRight_zero]
  omega

/-- The value of a register depends neither on the read data nor on the events to come. -/
theorem regValue_afterRead (s : State) (w : Word) (rest : List Event) (r : Reg) :
    ({ s with readData := w, events := rest } : State).regValue r = s.regValue r := by
  cases r <;> rfl

/-- R73: a 16-bit field reads zero-extended. -/
theorem regValue_len_toNat (s : State) (j : Idx) :
    (s.regValue (.len j)).toNat = (s.slot j).len.toNat := by
  rw [State.regValue, BitVec.toNat_setWidth_of_le (by norm_num)]

/-- R73: a 2-bit field reads zero-extended. -/
theorem regValue_sign_toNat (s : State) (j : Idx) :
    (s.regValue (.sign j)).toNat = (s.slot j).sign.toNat := by
  rw [State.regValue, BitVec.toNat_setWidth_of_le (by norm_num)]

theorem writeOperand_idle {s stored : State} (hb : s.busy = false) : s.writeOperand stored = stored :=
  if_neg (Bool.not_eq_true _ ▸ hb)

theorem Slot.digit_set (sl : Slot) {i : Nat} (v : Word) (hi : i < sl.dig.length) (i' : Nat) :
    ({ sl with dig := sl.dig.set i v } : Slot).digit i' = if i' = i then v else sl.digit i' := by
  simp only [Slot.digit, List.getD_eq_getElem?_getD, List.getElem?_set]
  by_cases h : i' = i
  · rw [if_pos h, if_pos h.symm, if_pos hi, Option.getD_some]
  · rw [if_neg h, if_neg (Ne.symm h)]

theorem regValue_setReg (s : State) (k : Idx) (v : Word) (r : Reg) :
    (s.setReg k v).regValue r = if r = .x k then v else s.regValue r := by
  cases r with
  | x i => simp [State.regValue]
  | _ => exact (if_neg (by simp)).symm

/-- R75: an update of a slot leaves every register that is no field of it. -/
theorem regValue_setSlot (s : State) {j : Idx} (sl : Slot) {r : Reg} (h : ¬ r.IsFieldOf j) :
    (s.setSlot j sl).regValue r = s.regValue r := by
  cases r with
  | len k | sign k | dig k _ =>
    have hk : k ≠ j := fun e => h (by simp [Reg.IsFieldOf, e])
    simp [State.regValue, hk]
  | _ => rfl

theorem regValue_setLen (s : State) (j : Idx) (v : Word) (r : Reg) :
    (s.setLen j v).regValue r = if r = .len j then (Reg.len j).stored v else s.regValue r := by
  by_cases hf : r.IsFieldOf j
  · obtain rfl | rfl | ⟨i, rfl⟩ := hf <;> simp [State.setLen, State.regValue, Reg.stored, Slot.digit]
  · rw [if_neg fun h => hf (.inl h)]
    exact regValue_setSlot s _ hf

theorem regValue_setSign (s : State) (j : Idx) (v : Word) (r : Reg) :
    (s.setSign j v).regValue r = if r = .sign j then (Reg.sign j).stored v else s.regValue r := by
  by_cases hf : r.IsFieldOf j
  · obtain rfl | rfl | ⟨i, rfl⟩ := hf <;> simp [State.setSign, State.regValue, Reg.stored, Slot.digit]
  · rw [if_neg fun h => hf (.inr (.inl h))]
    exact regValue_setSlot s _ hf

theorem regValue_setDigit {s : State} {j : Idx} {i : Nat} (v : Word)
    (hi : i < (s.slot j).dig.length) (r : Reg) :
    (s.setDigit j i v).regValue r = if r = .dig j i then v else s.regValue r := by
  by_cases hf : r.IsFieldOf j
  · obtain rfl | rfl | ⟨i', rfl⟩ := hf <;>
      simp [State.setDigit, State.regValue, Slot.digit_set (s.slot j) v hi]
  · rw [if_neg fun h => hf (.inr (.inr ⟨i, h⟩))]
    exact regValue_setSlot s _ hf

section

variable {s : State} {r : Reg} {v : Word}

/-- A write of an operand register leaves the parameters, `BUSY` and the events to come. -/
theorem hostWrite_operand_frame (hop : r.isOperand = true) : (hostWrite r v s).params = s.params
    ∧ (hostWrite r v s).busy = s.busy ∧ (hostWrite r v s).events = s.events := by
  cases r with
  | x _ | len _ | sign _ | dig _ _ =>
    rw [hostWrite, State.writeOperand]
    split <;> exact ⟨rfl, rfl, rfl⟩
  | _ => cases hop

/-- R73-R75: a write of an operand register of an idle block stores its bits, and every other register
holds what it held. -/
theorem regValue_hostWrite (hop : r.isOperand = true) (hb : s.busy = false)
    (hdig : ∀ j i, r = .dig j i → i < (s.slot j).dig.length) (r' : Reg) :
    (hostWrite r v s).regValue r' = if r' = r then r.stored v else s.regValue r' := by
  cases r with
  | x k =>
    rw [hostWrite, writeOperand_idle hb, regValue_setReg]
    rfl
  | len j => rw [hostWrite, writeOperand_idle hb, regValue_setLen]
  | sign j => rw [hostWrite, writeOperand_idle hb, regValue_setSign]
  | dig j i =>
    rw [hostWrite, writeOperand_idle hb, regValue_setDigit v (hdig j i rfl)]
    rfl
  | _ => cases hop

/-- R73-R76: an idle block that takes a write of an operand register and then a read of it. -/
theorem step_write_then_read {off : Nat} {rest : List Event} (hp : s.params.wf = true)
    (hb : s.busy = false) (hlen : ∀ j, (s.slot j).dig.length = s.params.cap)
    (hop : r.isOperand = true) (hvalid : r.valid s.params.cap)
    (hoffset : r.offset s.params.cap = some off)
    (hev : s.events = s.writeAt off v :: s.readAt off :: rest) :
    ∃ t u, step s = .next t ∧ step t = .next u ∧ u.events = rest ∧ u.readData = r.stored v
      ∧ ∀ r', u.regValue r' = if r' = r then r.stored v else s.regValue r' := by
  obtain ⟨-, hcap⟩ := (params_wf_iff _).1 hp
  obtain ⟨hal, hoff⟩ := offset_aligned_in_window hcap hvalid hoffset
  have hreg := regAt_offset hvalid hoffset
  have hdig : ∀ j i, r = .dig j i → i < (s.slot j).dig.length := by
    rintro j i rfl
    exact (hlen j).symm ▸ hvalid
  have hwrite := step_writeAt hoff hal hev
  rw [hreg] at hwrite
  have hvalue := regValue_hostWrite (s := { s with events := s.readAt off :: rest }) (v := v) hop hb hdig
  obtain ⟨htp, htb, hte⟩ :=
    hostWrite_operand_frame (s := { s with events := s.readAt off :: rest }) (v := v) hop
  generalize hostWrite r v _ = t at hwrite hvalue htp htb hte
  have hevt : t.events = t.readAt off :: rest := by
    rw [hte, State.readAt, State.readAt, htp]
  have hread := step_read_visible hoff hal (htp ▸ hreg) (.inl (htb.trans hb)) hevt
  refine ⟨t, _, hwrite, hread, rfl, (hvalue r).trans (if_pos rfl), fun r' => ?_⟩
  rw [regValue_afterRead, hvalue, regValue_events]

end

end Sys2Proof.Machine
end

section
/-! CLAIMS. The statements of 20_memory.md. -/

namespace Sys2Proof.Machine

/-- Settles O10: the map gives each register back from its offset (`regAt_offset`), and its ranges leave
the reserved ones. -/
theorem registerMapIsOneToOne : Obligations.RegisterMapIsOneToOne := by
  intro cap _ hcap
  refine ⟨⟨rfl, rfl, rfl, rfl, rfl, rfl, rfl⟩, fun k => ?_, fun j => ⟨?_, ?_⟩, fun j i hi => ⟨?_, ?_⟩,
    fun off => regAt_eq_reserved_iff⟩
  · exact regAt_offset (r := .x k) trivial rfl
  · exact regAt_offset (r := .len j) trivial rfl
  · exact regAt_offset (r := .sign j) trivial rfl
  · exact regAt_offset (r := .dig j i) hi rfl
  · exact (offset_aligned_in_window (r := .dig j i) hcap hi rfl).2

/-- Settles O11: the step takes the access, which `hostAccess` refuses or performs. -/
theorem onlyWrongWidthOrMisalignedAccessesAreRefused :
    Obligations.OnlyWrongWidthOrMisalignedAccessesAreRefused := by
  intro s a rest off hev haddr hoff
  rw [step_cons hev]
  exact ⟨hostAccess_refused (s := { s with events := rest }) haddr hoff,
    fun hw hal => ⟨_, hostAccess_accepted (s := { s with events := rest }) haddr hoff hw hal⟩⟩

/-- Settles O13: the registers after the two steps are those of `step_write_then_read`, and a slot's field
is read off the register that shows it. -/
theorem operandWriteThenRead : Obligations.OperandWriteThenRead := by
  intro s v rest r off hp hb hlen hev hr
  obtain ⟨hop, hvalid, hoffset⟩ :
      r.isOperand = true ∧ r.valid s.params.cap ∧ r.offset s.params.cap = some off := by
    obtain ⟨k, rfl, rfl⟩ | ⟨j, rfl, rfl⟩ | ⟨j, rfl, rfl⟩ | ⟨j, i, hi, rfl, rfl⟩ := hr
    · exact ⟨rfl, trivial, rfl⟩
    · exact ⟨rfl, trivial, rfl⟩
    · exact ⟨rfl, trivial, rfl⟩
    · exact ⟨rfl, hi, rfl⟩
  obtain ⟨t, u, hwrite, hread, hevents, hdata, hvalue⟩ :=
    step_write_then_read hp hb hlen hop hvalid hoffset hev
  have hsame : u.regValue r = r.stored v := (hvalue r).trans (if_pos rfl)
  refine ⟨t, u, hwrite, hread, hevents, fun r' hne => (hvalue r').trans (if_neg hne), ?_, ?_, ?_, ?_⟩
  · rintro k rfl
    exact ⟨hdata, hsame⟩
  · rintro j rfl
    rw [← regValue_len_toNat, hsame, hdata]
    exact ⟨Reg.stored_len_toNat v j, Reg.stored_len_toNat v j⟩
  · rintro j rfl
    rw [← regValue_sign_toNat, hsame, hdata]
    exact ⟨Reg.stored_sign_toNat v j, Reg.stored_sign_toNat v j⟩
  · rintro j i rfl
    exact ⟨hdata, hsame⟩

end Sys2Proof.Machine
end

section
/-! SUPPORT. The decoder and the encoder undo each other, and the opcode map names the words that decode to a
command (30_encoding.md R101, R102, R105-R107). -/

namespace Sys2Proof

variable {w : Word}

/-! ### Words field by field (R101) -/

theorem commandWord_eq_iff {p : BitVec 8} {d a b c : BitVec 4} {z : BitVec 8} :
    commandWord p d a b c z = w ↔ fieldOpc w = p ∧ fieldD w = d ∧ fieldA w = a ∧ fieldB w = b
      ∧ fieldC w = c ∧ fieldZ w = z := by
  constructor
  · rintro rfl
    simp
  · rintro ⟨rfl, rfl, rfl, rfl, rfl, rfl⟩
    exact commandWord_fields w

/-- A word agrees with a pattern under a mask when each of its fields does. -/
theorem and_eq_iff_fields {m v : Word} : w &&& m = v ↔ fieldOpc w &&& fieldOpc m = fieldOpc v
    ∧ fieldD w &&& fieldD m = fieldD v ∧ fieldA w &&& fieldA m = fieldA v
    ∧ fieldB w &&& fieldB m = fieldB v ∧ fieldC w &&& fieldC m = fieldC v
    ∧ fieldZ w &&& fieldZ m = fieldZ v := by
  conv_lhs =>
    rw [← commandWord_fields w, ← commandWord_fields m, Laws.RowMatch.commandWord_and,
      commandWord_eq_iff]
  simp only [eq_comm]

/-- A field of a literal word. -/
theorem extract_ofNat (n : Nat) {lo len : Nat} (h : lo + len ≤ 32) :
    (BitVec.ofNat 32 n).extractLsb' lo len = BitVec.ofNat len (n / 2 ^ lo) := by
  apply BitVec.eq_of_toNat_eq
  rw [extract_toNat, BitVec.toNat_ofNat, BitVec.toNat_ofNat,
    ← Nat.add_sub_of_le (show lo ≤ 32 by omega), Nat.pow_add, Nat.mod_mul_right_div_self,
    Nat.mod_mod_of_dvd _ (Nat.pow_dvd_pow 2 (by omega))]

@[simp] theorem fieldOpc_ofNat (n : Nat) :
    fieldOpc (BitVec.ofNat 32 n) = BitVec.ofNat 8 (n / 2 ^ 24) := extract_ofNat n (by norm_num)

@[simp] theorem fieldD_ofNat (n : Nat) :
    fieldD (BitVec.ofNat 32 n) = BitVec.ofNat 4 (n / 2 ^ 20) := extract_ofNat n (by norm_num)

@[simp] theorem fieldA_ofNat (n : Nat) :
    fieldA (BitVec.ofNat 32 n) = BitVec.ofNat 4 (n / 2 ^ 16) := extract_ofNat n (by norm_num)

@[simp] theorem fieldB_ofNat (n : Nat) :
    fieldB (BitVec.ofNat 32 n) = BitVec.ofNat 4 (n / 2 ^ 12) := extract_ofNat n (by norm_num)

@[simp] theorem fieldC_ofNat (n : Nat) :
    fieldC (BitVec.ofNat 32 n) = BitVec.ofNat 4 (n / 2 ^ 8) := extract_ofNat n (by norm_num)

@[simp] theorem fieldZ_ofNat (n : Nat) :
    fieldZ (BitVec.ofNat 32 n) = BitVec.ofNat 8 (n / 2 ^ 0) := extract_ofNat n (by norm_num)

/-- A mask that covers the field keeps it. -/
theorem and_mask4 (x : BitVec 4) : x &&& 15#4 = x := BitVec.and_allOnes

theorem and_mask8 (x : BitVec 8) : x &&& 255#8 = x := BitVec.and_allOnes

/-! ### The must-be-zero fields of each format (R102) -/

@[simp] theorem zerosF0_iff : zerosF0 w = true
    ↔ fieldD w = 0 ∧ fieldA w = 0 ∧ fieldB w = 0 ∧ fieldC w = 0 ∧ fieldZ w = 0 := by
  simp [zerosF0, and_assoc]

@[simp] theorem zerosFN_iff : zerosFN w = true
    ↔ fieldA w = 0 ∧ fieldB w = 0 ∧ fieldC w = 0 ∧ fieldZ w = 0 := by
  simp [zerosFN, and_assoc]

@[simp] theorem zerosFA_iff : zerosFA w = true
    ↔ fieldD w = 0 ∧ fieldB w = 0 ∧ fieldC w = 0 ∧ fieldZ w = 0 := by
  simp [zerosFA, and_assoc]

@[simp] theorem zerosFAB_iff : zerosFAB w = true ↔ fieldD w = 0 ∧ fieldC w = 0 ∧ fieldZ w = 0 := by
  simp [zerosFAB, and_assoc]

@[simp] theorem zerosFDA_iff : zerosFDA w = true ↔ fieldB w = 0 ∧ fieldC w = 0 ∧ fieldZ w = 0 := by
  simp [zerosFDA, and_assoc]

@[simp] theorem zerosFDAB_iff : zerosFDAB w = true ↔ fieldC w = 0 ∧ fieldZ w = 0 := by
  simp [zerosFDAB]

@[simp] theorem zerosFDAC_iff : zerosFDAC w = true ↔ fieldB w = 0 ∧ fieldZ w = 0 := by
  simp [zerosFDAC]

@[simp] theorem zerosFDABC_iff : zerosFDABC w = true ↔ fieldZ w = 0 := by
  simp [zerosFDABC]

@[simp] theorem requireZeros_eq_ok_iff {zeros : Bool} {i j : Instr} :
    requireZeros zeros i = .ok j ↔ zeros = true ∧ i = j := by
  cases zeros <;> simp [requireZeros]

/-! ### There and back (R105) -/

/-- The encoder puts each operand in the field the decoder reads it from. -/
theorem decode_encode (i : Instr) : decode (encode i) = .ok i := by
  cases i with
  | rsh d a n | lsh d a n | grsh d a n | glsh d a n => simp [encode, decode, idxD, idxA]
  | mont n | gdiv n | gsqr n => simp [encode, decode]
  | _ => simp [encode, decode, idxD, idxA, idxB, idxC]

/-- The word of a decoded command has the opcode of the decoder's arm, the operands that were read, and zero
in the fields that were checked. -/
theorem encode_of_decode {i : Instr} (h : decode w = .ok i) : encode i = w := by
  unfold decode at h
  split at h
  case h_31 => cases h -- no arm for the opcode
  all_goals
    rename_i hopc
    replace hopc := fieldOpc_eq_of_toNat hopc
  -- The shifts: every bit is an operand's or the opcode's.
  case h_12 | h_13 | h_24 | h_25 =>
    cases h
    have hw := shiftWord_fields w
    rwa [hopc] at hw
  -- MONT, GDIV and GSQR keep the bits they ignore.
  case h_22 | h_29 | h_30 =>
    cases h
    have hw := unimplWord_fields w
    rwa [hopc] at hw
  -- Every other command: the fields that are not read were checked to be zero.
  all_goals
    obtain ⟨hzeros, rfl⟩ := requireZeros_eq_ok_iff.1 h
    refine commandWord_eq_iff.2 ?_
    simp_all [idxD, idxA, idxB, idxC]

/-! ### The opcode map (R105-R107) -/

open Laws.RowMatch in
/-- Every encoded word is a word of its command's row. -/
theorem row_matches_encode (i : Instr) : i.row.matchesWord (encode i) = true :=
  beq_iff_eq.2 <| match i with
    | .nop => nop | .wmul d a b => wmul d a b | .wsqr d a => wsqr d a
    | .wdmul d a b => wdmul d a b | .wmac d a b c => wmac d a b c | .wmsb d a => wmsb d a
    | .wdiv d a b => wdiv d a b | .wmod d a b => wmod d a b | .norm d => norm d
    | .acmp a b => acmp a b | .cmp a b => cmp a b | .rsh d a n => rsh d a n
    | .lsh d a n => lsh d a n | .aadd d a b => aadd d a b | .asub d a b => asub d a b
    | .add d a b => add d a b | .sub d a b => sub d a b | .mul d a b => mul d a b
    | .kmul d a b => kmul d a b | .sqr d a => sqr d a | .bred d a b c => bred d a b c
    | .mont n => mont n | .gdeg a => gdeg a | .grsh d a n => grsh d a n
    | .glsh d a n => glsh d a n | .gadd d a b => gadd d a b | .gred d a c => gred d a c
    | .gmul d a b c => gmul d a b c | .gdiv n => gdiv n | .gsqr n => gsqr n

/-- A word of a row has the row's opcode, and zero in the fields that the decoder checks for that opcode. -/
theorem decode_of_row_matches {i : Instr} (h : i.row.matchesWord w = true) :
    ∃ j, decode w = .ok j := by
  have hfields := and_eq_iff_fields.1 (beq_iff_eq.1 h)
  cases i
  all_goals simp_all [Instr.row, decode, and_mask4, and_mask8]

theorem row_mem_opcodeRows (i : Instr) : i.row ∈ opcodeRows := by
  cases i <;> simp [opcodeRows, Instr.row]

theorem exists_row_of_mem {r : OpcodeRow} (h : r ∈ opcodeRows) : ∃ i : Instr, i.row = r := by
  obtain ⟨i, -, hi⟩ := List.exists_of_mem_map (f := Instr.row) (l := [.nop, .wmul 0 0 0, .wsqr 0 0,
    .wdmul 0 0 0, .wmac 0 0 0 0, .wmsb 0 0, .wdiv 0 0 0, .wmod 0 0 0, .norm 0, .acmp 0 0, .cmp 0 0,
    .rsh 0 0 0, .lsh 0 0 0, .aadd 0 0 0, .asub 0 0 0, .add 0 0 0, .sub 0 0 0, .mul 0 0 0,
    .kmul 0 0 0, .sqr 0 0, .bred 0 0 0 0, .mont 0, .gdeg 0, .grsh 0 0 0, .glsh 0 0 0, .gadd 0 0 0,
    .gred 0 0 0, .gmul 0 0 0 0, .gdiv 0, .gsqr 0]) h
  exact ⟨i, hi⟩

/-- R105: every assigned opcode has one row. -/
theorem opcodes_nodup : (opcodeRows.map fun r => fieldOpc r.pattern).Nodup := by decide

theorem fieldOpc_mask {r : OpcodeRow} (h : r ∈ opcodeRows) : fieldOpc r.mask = 0xFF := by
  revert r
  decide

theorem fieldOpc_of_row_matches {r : OpcodeRow} (hr : r ∈ opcodeRows)
    (h : r.matchesWord w = true) : fieldOpc w = fieldOpc r.pattern := by
  obtain ⟨hopc, -⟩ := and_eq_iff_fields.1 (beq_iff_eq.1 h)
  rw [← hopc, fieldOpc_mask hr]
  exact (and_mask8 _).symm

/-- A word matches at most one row. -/
theorem row_unique {r r' : OpcodeRow} (hr : r ∈ opcodeRows) (hr' : r' ∈ opcodeRows)
    (h : r.matchesWord w = true) (h' : r'.matchesWord w = true) : r = r' :=
  List.inj_on_of_nodup_map opcodes_nodup hr hr'
    ((fieldOpc_of_row_matches hr h).symm.trans (fieldOpc_of_row_matches hr' h'))

/-- R107: the opcodes the map leaves unassigned. -/
theorem decode_unassigned
    (h : (0x01 ≤ (fieldOpc w).toNat ∧ (fieldOpc w).toNat ≤ 0x0F)
      ∨ (0x17 ≤ (fieldOpc w).toNat ∧ (fieldOpc w).toNat ≤ 0x1F)
      ∨ (0x25 ≤ (fieldOpc w).toNat ∧ (fieldOpc w).toNat ≤ 0x2F)
      ∨ (0x34 ≤ (fieldOpc w).toNat ∧ (fieldOpc w).toNat ≤ 0x3F)
      ∨ (0x43 ≤ (fieldOpc w).toNat ∧ (fieldOpc w).toNat ≤ 0x4F)
      ∨ (0x52 ≤ (fieldOpc w).toNat ∧ (fieldOpc w).toNat ≤ 0x5F) ∨ 0x68 ≤ (fieldOpc w).toNat) :
    decode w = .error .unassignedOpcode := by
  unfold decode
  split
  case h_31 => rfl
  all_goals omega

/-- R102, R106: an opcode of format FU decodes whatever the low bits are, and its command is rejected. -/
theorem decode_unimplemented (h : (fieldOpc w).toNat = 0x51 ∨ (fieldOpc w).toNat = 0x66
      ∨ (fieldOpc w).toNat = 0x67) :
    ∃ i, decode w = .ok i ∧ ∀ s, Machine.exec i s = Machine.raise .unimpl s := by
  obtain h | h | h := h
  · exact ⟨.mont (fieldIgnored w), by simp [decode, h], fun _ => rfl⟩
  · exact ⟨.gdiv (fieldIgnored w), by simp [decode, h], fun _ => rfl⟩
  · exact ⟨.gsqr (fieldIgnored w), by simp [decode, h], fun _ => rfl⟩

end Sys2Proof
end

section
/-! SUPPORT. Sequences of commands, and what the commands of R109's expansions write when their operands are
well-formed (30_encoding.md R109; 41_normalize_compare_shift.md R164; 42_adder.md R193; 45_gf2n.md R271,
R273). -/

namespace Sys2Proof.Machine

variable {s t u : State} {d a b : Idx} {v v' : Int}

/-! ### Sequences -/

/-- The last command of a sequence ends it, with an error or without. -/
theorem execSeq_singleton (i : Instr) (s : State) : execSeq [i] s = exec i s := by
  rw [execSeq]
  cases exec i s with
  | next t => exact ite_self _
  | fault r => rfl
  | refused r => rfl

theorem execSeq_cons_ok {i : Instr} (is : List Instr) (h : exec i s = .next t)
    (hok : t.err = .ok) : execSeq (i :: is) s = execSeq is t := by
  rw [execSeq, h]
  exact if_pos hok

/-! ### A slot written, and written again -/

theorem State.SameSurroundings.trans (h : s.SameSurroundings t) (h' : t.SameSurroundings u) :
    s.SameSurroundings u := by
  obtain ⟨hparams, hie, hovr, hcmd, hdata, hdraws, hevents⟩ := h
  rw [State.SameSurroundings, ← hparams, ← hie, ← hovr, ← hcmd, ← hdata, ← hdraws, ← hevents]
  exact h'

theorem State.WroteSlot.params_eq (h : s.WroteSlot t d v) : t.params = s.params := by
  obtain ⟨⟨⟨hparams, -⟩, -⟩, -⟩ := h
  exact hparams

theorem State.WroteSlot.err_eq_ok (h : s.WroteSlot t d v) : t.err = .ok := by
  obtain ⟨⟨-, -, -, herr⟩, -⟩ := h
  exact herr

theorem State.WroteSlot.wf_dest (h : s.WroteSlot t d v) : t.wf d = true := by
  rw [State.wf, h.params_eq]
  obtain ⟨-, -, -, -, hwf, -⟩ := h
  exact hwf

theorem State.WroteSlot.sval_dest (h : s.WroteSlot t d v) : (t.slot d).sval = v := by
  obtain ⟨-, -, -, -, -, hval, -⟩ := h
  exact hval

theorem State.WroteSlot.slot_other (h : s.WroteSlot t d v) {j : Idx} (hj : j ≠ d) :
    t.slot j = s.slot j := by
  obtain ⟨-, -, hother, -⟩ := h
  exact hother j hj

/-- Of two writes to one slot only the last is seen. -/
theorem State.WroteSlot.trans (h : s.WroteSlot t d v) (h' : t.WroteSlot u d v') :
    s.WroteSlot u d v' := by
  have hparams := h.params_eq
  obtain ⟨⟨hsame, -⟩, hx, hother, hresult, -⟩ := h
  obtain ⟨⟨hsame', hdone'⟩, hx', hother', hresult', hholds'⟩ := h'
  exact ⟨⟨hsame.trans hsame', hdone'⟩, hx'.trans hx,
    fun j hj => (hother' j hj).trans (hother j hj), hresult'.trans hresult, hparams ▸ hholds'⟩

/-! ### The commands -/

/-- R14: the sign of a well-formed operand, put on its own magnitude, gives its value. -/
theorem withSignOf_mag {cap : Nat} {sl : Slot} (h : sl.wf cap = true) :
    withSignOf sl sl.mag = sl.sval := by
  obtain ⟨-, hvalid, hzero, -⟩ := (Slot.wf_iff cap sl).1 h
  by_cases h0 : sl.mag = 0
  · simp [withSignOf, Slot.sval, h0]
  · obtain hs | hs | hs | hs := sl.sign_cases
    · exact absurd (Slot.mag_of_len_zero (hzero.2 hs)) h0
    · simp [withSignOf, Slot.sval, h0, hs, signPos, signNeg]
    · simp [withSignOf, Slot.sval, h0, hs, signPos, signNeg]
    · exact absurd hs hvalid

/-- R164: RSH of a well-formed operand. -/
theorem exec_rsh_wroteSlot (hp : s.params.wf = true) (ha : s.wf a = true) (n : BitVec 16) :
    ∃ t, exec (.rsh d a n) s = .next t
      ∧ s.WroteSlot t d (withSignOf (s.slot a) ((s.slot a).mag / 2 ^ n.toNat)) := by
  refine ⟨_, if_neg (by simp [ha]), writeInt_wroteSlot hp d ?_⟩
  rw [withSignOf_natAbs]
  exact (Nat.div_le_self _ _).trans_lt (mag_lt_of_wf ha)

/-- R271: GRSH of a well-formed polynomial. -/
theorem exec_grsh_wroteSlot (hp : s.params.wf = true) (ha : s.wfg a = true) (n : BitVec 16) :
    ∃ t, exec (.grsh d a n) s = .next t
      ∧ s.WroteSlot t d ((s.slot a).mag / 2 ^ n.toNat : Nat) :=
  ⟨_, if_neg (by simp [ha]),
    writePoly_wroteSlot hp d ((Nat.div_le_self _ _).trans_lt (mag_lt_of_wfg ha))⟩

/-- R273: GADD of well-formed polynomials. -/
theorem exec_gadd_wroteSlot (hp : s.params.wf = true) (ha : s.wfg a = true)
    (hb : s.wfg b = true) : ∃ t, exec (.gadd d a b) s = .next t
      ∧ s.WroteSlot t d ((s.slot a).mag ^^^ (s.slot b).mag : Nat) :=
  ⟨_, (if_neg (by simp [ha])).trans (if_neg (by simp [hb])),
    writePoly_wroteSlot hp d (Nat.xor_lt_two_pow (mag_lt_of_wfg ha) (mag_lt_of_wfg hb))⟩

/-- R193: SUB of well-formed operands whose difference fits. -/
theorem exec_sub_wroteSlot (hp : s.params.wf = true) (ha : s.wf a = true) (hb : s.wf b = true)
    (h : ((s.slot a).sval - (s.slot b).sval).natAbs < 2 ^ (32 * s.params.cap)) :
    ∃ t, exec (.sub d a b) s = .next t
      ∧ s.WroteSlot t d ((s.slot a).sval - (s.slot b).sval) :=
  ⟨_, (if_neg (by simp [ha])).trans ((if_neg (by simp [hb])).trans (storeInt_fits h)),
    writeInt_wroteSlot hp d h⟩

/-- R193: SUB of a slot that is no integer. -/
theorem exec_sub_malformed (ha : s.wf a = false) : exec (.sub d a b) s = raise .malformed s :=
  if_pos (by simp [ha])

theorem exec_sub_self_wroteSlot (hp : s.params.wf = true) (ha : s.wf a = true) :
    ∃ t, exec (.sub d a a) s = .next t ∧ s.WroteSlot t d 0 := by
  simpa using exec_sub_wroteSlot (d := d) hp ha ha (by simp)

/-- R109, NEG: from a destination that holds zero, subtracting the operand leaves its negated value. -/
theorem exec_sub_from_zero_wroteSlot (hp : s.params.wf = true) (ha : s.wf a = true) (hda : d ≠ a)
    (h : s.WroteSlot t d 0) :
    ∃ u, exec (.sub d d a) t = .next u ∧ s.WroteSlot u d (-(s.slot a).sval) := by
  have hparams := h.params_eq
  have hslot := h.slot_other hda.symm
  have hdiff : (t.slot d).sval - (t.slot a).sval = -(s.slot a).sval := by
    rw [h.sval_dest, hslot, zero_sub]
  have hfits : ((t.slot d).sval - (t.slot a).sval).natAbs < 2 ^ (32 * t.params.cap) := by
    rw [hdiff, Int.natAbs_neg, Slot.natAbs_sval ha, hparams]
    exact mag_lt_of_wf ha
  obtain ⟨u, hu, hwrote⟩ := exec_sub_wroteSlot (d := d) (hparams ▸ hp) h.wf_dest
    ((wf_congr hparams hslot).trans ha) hfits
  exact ⟨u, hu, h.trans (hdiff ▸ hwrote)⟩

end Sys2Proof.Machine
end

section
/-! CLAIMS. The statements of 30_encoding.md. -/

namespace Sys2Proof.Machine

/-- Settles O1: for each command, the decoder reads the fields the encoder wrote. -/
theorem decodeOfEncodeIsTheCommand : Obligations.DecodeOfEncodeIsTheCommand := decode_encode

/-- Settles O2: for each arm of the decoder, the word is made of the fields it read and checked. -/
theorem encodeOfDecodeIsTheWord : Obligations.EncodeOfDecodeIsTheWord := fun _ _ => encode_of_decode

/-- Settles O3: a word that decodes is its command's encoding, which its row matches; the rows have
distinct opcodes; and the turn of a busy block runs what `LASTCMD` decodes to. -/
theorem decodeFollowsTheOpcodeMap : Obligations.DecodeFollowsTheOpcodeMap := by
  have hrow : ∀ {c : Word} {i : Instr}, decode c = .ok i → i.row.matchesWord c = true :=
    fun {c i} h => encode_of_decode h ▸ row_matches_encode i
  refine ⟨fun c => ⟨fun ⟨i, h⟩ => ⟨i.row, row_mem_opcodeRows i, hrow h⟩, fun ⟨r, hr, h⟩ => ?_⟩,
    fun c i h => ⟨hrow h, fun r hr hmatch => row_unique hr (row_mem_opcodeRows i) hmatch (hrow h)⟩,
    fun c => decode_unassigned, fun s rest e hb hturn hd => ?_, fun s rest hb hturn hopc => ?_⟩
  · obtain ⟨i, rfl⟩ := exists_row_of_mem hr
    exact decode_of_row_matches h
  · exact ⟨_, step_illegal hturn hb hd, complete_failedWith _ .illegal⟩
  · obtain ⟨i, hd, hrejected⟩ := decode_unimplemented hopc
    have hstep := (step_turnNext hturn).trans (sequencerTurn_decoded hb hd)
    exact ⟨_, hstep.trans (hrejected _), complete_failedWith _ .unimpl⟩

/-- Settles O59: each expansion is one command on well-formed operands, but for NEG's, whose second command
subtracts from the zero the first one left. -/
theorem pseudoCommandsHaveTheirEffects : Obligations.PseudoCommandsHaveTheirEffects := by
  intro d a s hp
  simp only [Pseudo.expand, execSeq_singleton]
  refine ⟨fun ha => ?_, fun ha => ?_, exec_sub_self_wroteSlot hp, fun hd => ?_, fun hda ha => ?_,
    fun hd => ?_⟩
  · simpa [withSignOf_mag ha] using exec_rsh_wroteSlot (d := d) hp ha 0
  · simpa using exec_grsh_wroteSlot (d := d) hp ha 0
  · exact ⟨_, exec_sub_malformed hd, complete_failedWith s .malformed⟩
  · obtain ⟨t, ht, hzero⟩ := exec_sub_self_wroteSlot (d := d) hp ha
    rw [execSeq_cons_ok _ ht hzero.err_eq_ok, execSeq_singleton]
    exact exec_sub_from_zero_wroteSlot hp ha hda hzero
  · simpa using exec_gadd_wroteSlot (d := d) hp hd hd

/-- Settles O4: each word is the encoding of its command, and the lines assemble by evaluation. -/
theorem sampleWordsDecode : Obligations.SampleWordsDecode :=
  ⟨decode_encode (.aadd 2 0 1), decode_encode (.rsh 3 3 36), decode_encode (.gmul 4 1 2 3),
    decode_encode (.wmul 2 0 1), decode_encode .nop, decode_encode (.norm 1),
    decode_encode (.gdeg 3), decode_encode (.acmp 2 3), decode_encode (.sqr 1 0),
    decode_encode (.gred 1 0 2), decode_encode (.mont 0xFFFFFF), rfl, rfl, rfl, rfl⟩

end Sys2Proof.Machine
end

section
/-! SUPPORT. Products of words, the double and triple words they are written as, and what a word command that
writes one register, two or three leaves (40_word_layer.md R130-R136). -/

namespace Sys2Proof.Machine

/-! ### Products (R130, R132) -/

/-- The largest product of two words. -/
theorem word_product_le (a b : Word) : a.toNat * b.toNat ≤ (2 ^ 32 - 1) * (2 ^ 32 - 1) :=
  Nat.mul_le_mul (Nat.le_sub_one_of_lt a.isLt) (Nat.le_sub_one_of_lt b.isLt)

theorem and_highHalfMask_toNat (x : Word) :
    (x &&& highHalfMask).toNat / 2 ^ 16 = x.toNat / 2 ^ 16 := by
  have hlt : x.toNat / 2 ^ 16 < 2 ^ 16 := by omega
  calc (x &&& highHalfMask).toNat / 2 ^ 16
      = x.toNat / 2 ^ 16 &&& 2 ^ 16 - 1 := by
        rw [BitVec.toNat_and, Nat.and_div_two_pow]
        rfl
    _ = x.toNat / 2 ^ 16 := by rw [Nat.and_two_pow_sub_one_eq_mod, Nat.mod_eq_of_lt hlt]

theorem and_lowHalfMask_toNat (x : Word) : (x &&& lowHalfMask).toNat = x.toNat % 2 ^ 16 := by
  rw [BitVec.toNat_and]
  exact Nat.and_two_pow_sub_one_eq_mod x.toNat 16

/-- R130: a word is its two halves, so the four partial products add up to the product. -/
theorem halfWordProduct_eq (x y : Word) : halfWordProduct x y = x.toNat * y.toNat := by
  simp only [halfWordProduct, and_highHalfMask_toNat, and_lowHalfMask_toNat]
  have hx := Nat.div_add_mod x.toNat (2 ^ 16)
  have hy := Nat.div_add_mod y.toNat (2 ^ 16)
  generalize x.toNat / 2 ^ 16 = xh, x.toNat % 2 ^ 16 = xl at hx ⊢
  generalize y.toNat / 2 ^ 16 = yh, y.toNat % 2 ^ 16 = yl at hy ⊢
  rw [← hx, ← hy]
  ring

/-! ### Double and triple words (R103, R132) -/

/-- Shifting left by one leaves bit 0 free, so a bit put there is added. -/
theorem shiftLeft_one_or_toNat {x y : Word} (hy : y.toNat < 2) :
    (x <<< 1 ||| y).toNat = 2 * x.toNat % 2 ^ 32 + y.toNat := by
  have hmod : 2 * x.toNat % 2 ^ 32 = 2 ^ 1 * (x.toNat % 2 ^ 31) := by omega
  rw [BitVec.toNat_or, BitVec.toNat_shiftLeft, Nat.shiftLeft_eq, pow_one, mul_comm, hmod,
    Nat.two_pow_add_eq_or_of_lt hy]

/-- Doubling a double word doubles each of its words, and the bit shifted out of a word goes into the next. -/
theorem doubled_words {p : Nat} (h : p < 2 ^ 64) :
    BitVec.ofNat 32 (2 * p) = BitVec.ofNat 32 p <<< 1
      ∧ BitVec.ofNat 32 (2 * p / 2 ^ 32)
        = BitVec.ofNat 32 (p / 2 ^ 32) <<< 1 ||| BitVec.ofNat 32 p >>> 31
      ∧ BitVec.ofNat 32 (2 * p / 2 ^ 64) = BitVec.ofNat 32 (p / 2 ^ 32) >>> 31 := by
  have hcarry : (BitVec.ofNat 32 p >>> 31).toNat = p % 2 ^ 32 / 2 ^ 31 := by
    rw [BitVec.toNat_ushiftRight, BitVec.toNat_ofNat, Nat.shiftRight_eq_div_pow]
  refine ⟨BitVec.eq_of_toNat_eq ?_, BitVec.eq_of_toNat_eq ?_, BitVec.eq_of_toNat_eq ?_⟩
  · rw [BitVec.toNat_shiftLeft, Nat.shiftLeft_eq, BitVec.toNat_ofNat, BitVec.toNat_ofNat]
    omega
  · rw [shiftLeft_one_or_toNat (by omega), hcarry, BitVec.toNat_ofNat, BitVec.toNat_ofNat]
    omega
  · rw [BitVec.toNat_ushiftRight, Nat.shiftRight_eq_div_pow, BitVec.toNat_ofNat, BitVec.toNat_ofNat]
    omega

/-- A triple word that fits is the number its three words stand for. -/
theorem triple_value {t : Nat} (h : t < 2 ^ 96) :
    (BitVec.ofNat 32 t).toNat + 2 ^ 32 * (BitVec.ofNat 32 (t / 2 ^ 32)).toNat
      + 2 ^ 64 * (BitVec.ofNat 32 (t / 2 ^ 64)).toNat = t := by
  rw [BitVec.toNat_ofNat, BitVec.toNat_ofNat, BitVec.toNat_ofNat]
  omega

/-! ### What the commands leave -/

variable {s : State} {d : Idx}

/-- R103: a command that succeeds with a double word leaves it in its two registers, exactly. -/
theorem succeed_writePair {p : Nat} (h : p < 2 ^ 64) :
    ∃ t, succeed (s.writePair d p) = .next t ∧ s.WroteRegs t [d, d + 1]
      ∧ (t.reg d).toNat + 2 ^ 32 * (t.reg (d + 1)).toNat = p := by
  refine ⟨_, rfl, writePair_wroteRegs s d p, ?_⟩
  rw [State.reg_complete, State.reg_complete, writePair_reg_low, writePair_reg_high, pair_value h]

/-- R134-R136: a command that succeeds with a number not above one of its operands leaves it in its register,
exactly. -/
theorem succeed_setReg {n : Nat} {x : Word} (h : n ≤ x.toNat) :
    ∃ t, succeed (s.setReg d (BitVec.ofNat 32 n)) = .next t ∧ s.WroteRegs t [d]
      ∧ (t.reg d).toNat = n := by
  refine ⟨_, rfl, setReg_wroteRegs s d _, ?_⟩
  rw [State.reg_complete, State.reg_setReg, if_pos rfl, BitVec.toNat_ofNat,
    Nat.mod_eq_of_lt (h.trans_lt x.isLt)]

end Sys2Proof.Machine
end

section
/-! CLAIMS. The statements of 40_word_layer.md. -/

namespace Sys2Proof.Machine

/-- Settles O32: a product of two words fits in a double word, and a double word that fits is written exactly. -/
theorem wordProductIsExact : Obligations.WordProductIsExact := by
  have hfits (x y : Word) : x.toNat * y.toNat < 2 ^ 64 :=
    (word_product_le x y).trans_lt (by norm_num)
  exact ⟨fun d a b => ⟨decode_encode (.wmul d a b), decode_encode (.wsqr d a)⟩,
    fun d a b s => succeed_writePair (hfits (s.reg a) (s.reg b)),
    fun d a s => succeed_writePair (hfits (s.reg a) (s.reg a)), halfWordProduct_eq⟩

/-- Settles O33: the doubled product is below `2 ^ 65`, so its third word is the bit shifted out of the
double word. -/
theorem doubledProductIsExact : Obligations.DoubledProductIsExact := by
  refine ⟨fun d a b => decode_encode (.wdmul d a b), fun d a b s =>
    ⟨_, rfl, writeTriple_wroteRegs s d _, ?_⟩⟩
  have hle := word_product_le (s.reg a) (s.reg b)
  simp only [State.reg_complete, writeTriple_reg_low, writeTriple_reg_mid, writeTriple_reg_high,
    mul_assoc 2, doubledWords]
  generalize (s.reg a).toNat * (s.reg b).toNat = p at hle ⊢
  obtain ⟨hlow, hmid, hhigh⟩ := doubled_words (p := p) (by omega)
  refine ⟨triple_value (by omega), ?_, by rw [hlow, hmid, hhigh]⟩
  rw [BitVec.toNat_ofNat]
  omega

/-- Settles O34: both addends leave the largest product within a double word. -/
theorem multiplyAccumulateIsExact : Obligations.MultiplyAccumulateIsExact := by
  refine ⟨fun d a b c => decode_encode (.wmac d a b c), fun d a b c s => succeed_writePair ?_⟩
  have hle := word_product_le (s.reg a) (s.reg b)
  omega

/-- Settles O35: the logarithm of a nonzero word is the index of its highest set bit. -/
theorem mostSignificantBit : Obligations.MostSignificantBit := by
  refine ⟨fun d a => decode_encode (.wmsb d a), fun d a s => ⟨fun ha => ?_, fun ha => ?_⟩⟩
  · exact ⟨_, if_pos ha, complete_failedWith s .zero⟩
  · have hpos : (s.reg a).toNat ≠ 0 := fun h => ha (BitVec.eq_of_toNat_eq h)
    obtain ⟨t, ht, hwrote, hlog⟩ :=
      succeed_setReg (s := s) (d := d) (Nat.log2_le_self (s.reg a).toNat)
    refine ⟨t, (if_neg ha).trans ht, hwrote, ?_⟩
    rw [hlog]
    exact ⟨(Nat.log2_lt hpos).2 (s.reg a).isLt, Nat.log2_self_le hpos, Nat.lt_log2_self⟩

/-- Settles O36: the words written are the quotient and the remainder of one division. -/
theorem wordQuotientAndRemainder : Obligations.WordQuotientAndRemainder := by
  refine ⟨fun d a b => ⟨decode_encode (.wdiv d a b), decode_encode (.wmod d a b)⟩,
    fun d a b s => ⟨fun hb => ?_, fun hb => ?_⟩⟩
  · exact ⟨⟨_, if_pos hb, complete_failedWith s .zero⟩, ⟨_, if_pos hb, complete_failedWith s .zero⟩⟩
  · have hpos : 0 < (s.reg b).toNat := Nat.pos_of_ne_zero fun h => hb (BitVec.eq_of_toNat_eq h)
    obtain ⟨t, ht, hwrote, hquot⟩ :=
      succeed_setReg (s := s) (d := d) (Nat.div_le_self (s.reg a).toNat (s.reg b).toNat)
    obtain ⟨u, hu, hwrote', hrem⟩ :=
      succeed_setReg (s := s) (d := d) (Nat.mod_le (s.reg a).toNat (s.reg b).toNat)
    refine ⟨t, u, (if_neg hb).trans ht, (if_neg hb).trans hu, hwrote, hwrote', ?_⟩
    rw [hquot, hrem]
    exact ⟨Nat.mod_lt _ hpos, Nat.div_add_mod' _ _⟩

end Sys2Proof.Machine
end

section
/-! SUPPORT. Operand checks and shifts, and the words of a shifted magnitude
(41_normalize_compare_shift.md R164, R165; 60_exceptions.md R314). -/

namespace Sys2Proof.Machine

variable {s t : State} {d a b : Idx} {v : Int} {k : BitVec 16}

/-! ### Operand checks (R314) -/

/-- R314: a malformed operand ends the command, whatever comes after the checks. -/
theorem operandChecks_raise (r : Result) (h : s.wf a = false ∨ s.wf b = false) :
    (if !s.wf a then raise .malformed s else if !s.wf b then raise .malformed s else r)
      = raise .malformed s := by
  obtain h | h := h
  · simp [h]
  · simp [h]

/-- R314: well-formed operands pass the checks. -/
theorem operandChecks_pass (r : Result) (ha : s.wf a = true) (hb : s.wf b = true) :
    (if !s.wf a then raise .malformed s else if !s.wf b then raise .malformed s else r) = r := by
  simp [ha, hb]

/-- R314, R315: past its operand check a command that completes without error had a well-formed operand. -/
theorem operandCheck_ok {c : Bool} {r : Result}
    (h : (if !c then raise .malformed s else r) = .next t) (hok : t.err = .ok) :
    c = true ∧ r = .next t := by
  cases c with
  | false =>
    rw [Bool.not_false, if_pos rfl, raise_next_iff] at h
    simp [h] at hok
  | true => exact ⟨rfl, h⟩

/-- R313: a store that completes without error wrote its value. -/
theorem storeInt_ok (hp : s.params.wf = true) (h : storeInt d v s = .next t) (hok : t.err = .ok) :
    s.WroteSlot t d v := by
  obtain ⟨-, rfl⟩ | ⟨hfits, rfl⟩ := storeInt_cases h
  · cases hok
  · exact writeInt_wroteSlot hp d hfits

/-! ### The words of a magnitude (R14, R164) -/

/-- R14: `word(v, i)` of the number a list of words stands for is its word `i`. -/
theorem word_natOfWords (ws : List Word) (i : Nat) :
    BitVec.ofNat 32 (natOfWords ws / 2 ^ (32 * i)) = ws.getD i 0 := by
  by_cases hi : i < ws.length
  · have hword := wordsOfNat_getD ws.length (natOfWords ws) i
    rw [wordsOfNat_natOfWords, if_pos hi] at hword
    exact hword.symm
  · have hle : 2 ^ (32 * ws.length) ≤ 2 ^ (32 * i) := Nat.pow_le_pow_right (by norm_num) (by omega)
    rw [Nat.div_eq_of_lt ((natOfWords_lt ws).trans_le hle), List.getD_eq_default _ _ (by omega),
      BitVec.ofNat_eq_ofNat]

/-- R164: word `i` of a magnitude, "with `dig[k] = 0` for `k >= len`". -/
theorem Slot.word_mag (sl : Slot) (i : Nat) :
    BitVec.ofNat 32 (sl.mag / 2 ^ (32 * i)) = if i < sl.len.toNat then sl.digit i else 0 := by
  rw [Slot.mag, word_natOfWords, Slot.digit, List.getD_eq_getElem?_getD, List.getElem?_take]
  split
  · rw [List.getD_eq_getElem?_getD]
  · rfl

/-- Shifting a number right by less than a word shifts its low word and carries in from the next one. -/
theorem word_div_two_pow (x : Nat) {b : Nat} (hb : b ≤ 32) :
    BitVec.ofNat 32 (x / 2 ^ b)
      = BitVec.ofNat 32 x >>> b ||| BitVec.ofNat 32 (x / 2 ^ 32) <<< (32 - b) := by
  refine BitVec.eq_of_getLsbD_eq fun j hj => ?_
  rw [BitVec.getLsbD_or, BitVec.getLsbD_ushiftRight, BitVec.getLsbD_shiftLeft]
  simp only [BitVec.getLsbD_ofNat, Nat.testBit_div_two_pow]
  by_cases hlow : b + j < 32
  · simp [hj, hlow, show j < 32 - b by omega, Nat.add_comm j]
  · simp [hj, hlow, show ¬ j < 32 - b by omega, show j - (32 - b) < 32 by omega,
      show j - (32 - b) + 32 = j + b by omega]

/-- R164: the decomposition into a whole-word part and an intra-word part gives the words of the shifted
magnitude. -/
theorem shiftedWord_eq (sl : Slot) (n i : Nat) :
    shiftedWord sl n i = BitVec.ofNat 32 (sl.mag / 2 ^ n / 2 ^ (32 * i)) := by
  have hpow : 2 ^ n * 2 ^ (32 * i) = 2 ^ (32 * (i + n / 32)) * 2 ^ (n % 32) := by
    rw [← Nat.pow_add, ← Nat.pow_add]
    congr 1
    omega
  have hnext : sl.mag / 2 ^ (32 * (i + n / 32 + 1)) = sl.mag / 2 ^ (32 * (i + n / 32)) / 2 ^ 32 := by
    rw [Nat.div_div_eq_div_mul, ← Nat.pow_add, Nat.mul_succ]
  rw [Nat.div_div_eq_div_mul, hpow, ← Nat.div_div_eq_div_mul]
  simp only [shiftedWord, ← Slot.word_mag]
  split
  · next hb => rw [hb, pow_zero, Nat.div_one]
  · rw [word_div_two_pow _ (Nat.mod_lt n (by norm_num)).le, hnext]

/-! ### Signs of shift results (R164, R165) -/

/-- R164, R165: the sign of a shift's result is the source's; zero has none. -/
theorem withSignOf_eq_signedBy (sl : Slot) (m : Nat) : withSignOf sl m = signedBy sl.sign m := by
  by_cases h : m = 0
  · simp [withSignOf, signedBy, h]
  · simp [withSignOf, signedBy, h]

theorem signedBy_natAbs (sign : BitVec 2) (m : Nat) : (signedBy sign m).natAbs = m := by
  unfold signedBy
  split <;> simp

theorem signedBy_mul (sign : BitVec 2) (m c : Nat) :
    signedBy sign (m * c) = signedBy sign m * c := by
  unfold signedBy
  split <;> simp

/-- R14: the value of a well-formed operand is its magnitude with its sign. -/
theorem signedBy_mag {cap : Nat} {sl : Slot} (h : sl.wf cap = true) :
    signedBy sl.sign sl.mag = sl.sval := by
  rw [← withSignOf_eq_signedBy, withSignOf_mag h]

/-! ### What a shift leaves -/

theorem State.WroteSlot.mag_dest (h : s.WroteSlot t d v) : (t.slot d).mag = v.natAbs := by
  rw [← h.sval_dest, Slot.natAbs_sval h.wf_dest]

theorem State.WroteSlot.slot_dest (h : s.WroteSlot t d v) :
    t.slot d = intSlot s.params.cap v := by
  obtain ⟨-, -, -, -, hholds⟩ := h
  exact hholds.eq_intSlot

/-- R165: LSH that completes without error had a well-formed operand, and wrote its magnitude shifted. -/
theorem exec_lsh_ok (hp : s.params.wf = true) (h : exec (.lsh d a k) s = .next t)
    (hok : t.err = .ok) : s.wf a = true
      ∧ s.WroteSlot t d (signedBy (s.slot a).sign ((s.slot a).mag * 2 ^ k.toNat)) := by
  obtain ⟨ha, hstore⟩ := operandCheck_ok h hok
  rw [withSignOf_eq_signedBy] at hstore
  exact ⟨ha, storeInt_ok hp hstore hok⟩

/-- R272: GLSH that completes without error wrote the magnitude of its operand shifted. -/
theorem exec_glsh_ok (hp : s.params.wf = true) (h : exec (.glsh d a k) s = .next t)
    (hok : t.err = .ok) : s.WroteSlot t d ((s.slot a).mag * 2 ^ k.toNat : Nat) := by
  obtain ⟨-, hstore⟩ := operandCheck_ok h hok
  exact storeInt_ok hp hstore hok

end Sys2Proof.Machine
end

section
/-! SUPPORT. Comparison by word counts, words and signs is comparison of values
(41_normalize_compare_shift.md R162, R163). -/

namespace Sys2Proof.Machine

/-! ### The order of two numbers (R46) -/

/-- R46: the outcome of comparing `x` with `y`. -/
def Order.between {α : Type} [LinearOrder α] (x y : α) : Order :=
  if y < x then .larger else if x < y then .smaller else .equal

namespace Order

section Linear

variable {α : Type} [LinearOrder α] {x y : α}

theorem between_of_gt (h : y < x) : between x y = .larger := if_pos h

theorem between_of_lt (h : x < y) : between x y = .smaller := by
  rw [between, if_neg h.not_gt, if_pos h]

theorem between_self (x : α) : between x x = .equal := by
  rw [between, if_neg (lt_irrefl x), if_neg (lt_irrefl x)]

/-- R44: the words `RESULT` holds for the three outcomes. -/
theorem enc_between (x y : α) : (y < x → (between x y).enc = 0x00000001)
    ∧ (x = y → (between x y).enc = 0x00000000) ∧ (x < y → (between x y).enc = 0xFFFFFFFF) := by
  refine ⟨fun h => ?_, fun h => ?_, fun h => ?_⟩
  · rw [between_of_gt h, enc]
  · rw [h, between_self, enc]
  · rw [between_of_lt h, enc]

end Linear

theorem between_natCast (m n : Nat) : between (m : Int) (n : Int) = between m n := by
  simp [between]

theorem between_neg (x y : Int) : between (-x) (-y) = between y x := by
  simp [between]

/-- A difference of the top words decides, and else the words below do. -/
theorem between_add_mul {p x y : Nat} (a b : Nat) (hx : x < p) (hy : y < p) :
    between (x + p * a) (y + p * b)
      = if b < a then .larger else if a < b then .smaller else between x y := by
  have carry {u w m n : Nat} (hu : u < p) (h : m < n) : u + p * m < w + p * n := by
    have : p * (m + 1) ≤ p * n := Nat.mul_le_mul_left p h
    rw [Nat.mul_succ] at this
    omega
  obtain h | rfl | h := lt_trichotomy b a
  · rw [if_pos h, between_of_gt (carry hy h)]
  · simp [between]
  · rw [if_neg h.not_gt, if_pos h, between_of_lt (carry hx h)]

end Order

/-! ### The order of magnitudes (R162) -/

/-- R162: "first difference decides", from the most significant word down. -/
theorem wordsOrder_eq {as bs : List Word} (h : as.length = bs.length) :
    wordsOrder as bs = .between (natOfWords as.reverse) (natOfWords bs.reverse) := by
  induction as generalizing bs with
  | nil =>
    obtain rfl := List.eq_nil_of_length_eq_zero h.symm
    rfl
  | cons a as ih =>
    cases bs with
    | nil => cases h
    | cons b bs =>
      have hlen : as.length = bs.length := Nat.succ.inj h
      have has := natOfWords_lt as.reverse
      have hbs := natOfWords_lt bs.reverse
      rw [List.length_reverse] at has hbs
      simp only [wordsOrder, List.reverse_cons, natOfWords_append, List.length_reverse,
        natOfWords_cons, natOfWords_nil, Nat.mul_zero, Nat.add_zero]
      rw [ih hlen, hlen, Order.between_add_mul _ _ (hlen ▸ has) hbs]

/-- R162: for operands without a zero top word, the order of the word counts decides where they differ. -/
theorem Slot.mag_lt_of_len_lt {cap : Nat} {p q : Slot} (hq : q.wfg cap = true)
    (h : p.len.toNat < q.len.toNat) : p.mag < q.mag := by
  have h0 : q.len ≠ 0 := (Slot.len_toNat_eq_zero q).not.1 (by omega)
  calc p.mag < 2 ^ (32 * p.len.toNat) := p.mag_lt
    _ ≤ 2 ^ (32 * (q.len.toNat - 1)) := Nat.pow_le_pow_right (by norm_num) (by omega)
    _ ≤ q.mag := Slot.pow_le_mag hq h0

/-- R162: "For well-formed operands `r` is the order of `mag(A)` and `mag(B)`". -/
theorem Slot.magOrder_eq {cap : Nat} {p q : Slot} (hp : p.wfg cap = true) (hq : q.wfg cap = true) :
    p.magOrder q = .between p.mag q.mag := by
  unfold Slot.magOrder
  split
  · next h => rw [Order.between_of_gt (Slot.mag_lt_of_len_lt hp h)]
  · split
    · next h => rw [Order.between_of_lt (Slot.mag_lt_of_len_lt hq h)]
    · obtain ⟨-, hptop⟩ := (Slot.wfg_iff cap p).1 hp
      obtain ⟨-, hqtop⟩ := (Slot.wfg_iff cap q).1 hq
      have hple := Slot.len_le_length hptop
      have hqle := Slot.len_le_length hqtop
      have hlen : (p.dig.take p.len.toNat).length = (q.dig.take q.len.toNat).length := by
        rw [List.length_take_of_le hple, List.length_take_of_le hqle]
        omega
      rw [wordsOrder_eq (by rwa [List.length_reverse, List.length_reverse]), List.reverse_reverse,
        List.reverse_reverse, Slot.mag, Slot.mag]

/-! ### The order of signed values (R163) -/

theorem signRank_signOfInt (v : Int) :
    signRank (signOfInt v) = if v < 0 then 0 else if v = 0 then 1 else 2 := by
  obtain h | rfl | h := lt_trichotomy v 0
  · rw [if_pos h, signOfInt_of_neg h]
    rfl
  · rfl
  · rw [if_neg h.not_gt, if_neg h.ne', signOfInt_of_pos h]
    rfl

/-- R163: POSITIVE > ZERO > NEGATIVE, on values. -/
theorem Slot.sval_lt_of_signRank_lt {cap : Nat} {p q : Slot} (hp : p.wf cap = true)
    (hq : q.wf cap = true) (h : signRank p.sign < signRank q.sign) : p.sval < q.sval := by
  rw [← Slot.signOfInt_sval hp, ← Slot.signOfInt_sval hq, signRank_signOfInt,
    signRank_signOfInt] at h
  split_ifs at h <;> omega

theorem signRank_injOn {x y : BitVec 2} (hx : x ≠ signInvalid) (hy : y ≠ signInvalid)
    (h : signRank x = signRank y) : x = y := by
  revert x y
  decide

/-- R163: under one sign the magnitudes decide. -/
theorem Slot.signedOrder_of_sign_eq {p q : Slot} (h : p.sign = q.sign) :
    p.signedOrder q = if p.sign = signPos then p.magOrder q
      else if p.sign = signNeg then q.magOrder p else .equal := by
  rw [Slot.signedOrder, h, if_neg (lt_irrefl _), if_neg (lt_irrefl _)]
  rfl

/-- R163: "For well-formed operands `r` is the order of `sval(A)` and `sval(B)`". -/
theorem Slot.signedOrder_eq {cap : Nat} {p q : Slot} (hp : p.wf cap = true) (hq : q.wf cap = true) :
    p.signedOrder q = .between p.sval q.sval := by
  by_cases hgt : signRank q.sign < signRank p.sign
  · rw [Slot.signedOrder, if_pos hgt, Order.between_of_gt (Slot.sval_lt_of_signRank_lt hq hp hgt)]
  by_cases hlt : signRank p.sign < signRank q.sign
  · rw [Slot.signedOrder, if_neg hgt, if_pos hlt,
      Order.between_of_lt (Slot.sval_lt_of_signRank_lt hp hq hlt)]
  obtain ⟨-, hpvalid, -⟩ := (Slot.wf_iff cap p).1 hp
  obtain ⟨-, hqvalid, -⟩ := (Slot.wf_iff cap q).1 hq
  have hsame : p.sign = q.sign := signRank_injOn hpvalid hqvalid (by omega)
  have hpg := Slot.wfg_of_wf hp
  have hqg := Slot.wfg_of_wf hq
  rw [Slot.signedOrder_of_sign_eq hsame, Slot.sval, Slot.sval, ← hsame]
  split_ifs
  · rw [Slot.magOrder_eq hpg hqg, Order.between_natCast]
  · rw [Slot.magOrder_eq hqg hpg, Order.between_neg, Order.between_natCast]
  · rw [Order.between_self]

end Sys2Proof.Machine
end

section
/-! SUPPORT. What NORM leaves, and that NORM of a normalised slot changes nothing
(41_normalize_compare_shift.md R161). -/

namespace Sys2Proof.Machine

variable {s t : State} {d : Idx} {cap : Nat} {sl : Slot} {v : Int}

/-- R161: what NORM leaves is a normalised slot with zeros above. -/
theorem normalised_holdsInt (hlen : sl.len.toNat ≤ cap) (hsign : sl.sign ≠ signInvalid) :
    (sl.normalised cap).HoldsInt cap (sl.normalised cap).sval := by
  refine ⟨normalised_wf hlen hsign, rfl, normalised_dig_length hlen, fun i hi => ?_⟩
  rw [normalised_len_toNat] at hi
  rw [normalised_digit, if_neg (not_lt.2 hi)]

/-- R161: the sign NORM leaves on a nonzero value. -/
theorem normalised_sign (hlen : sl.len.toNat ≤ sl.dig.length) (hmag : sl.mag ≠ 0) :
    (sl.normalised cap).sign = if sl.sign = signZero then signPos else sl.sign := by
  have hn : stripZeros sl sl.len.toNat ≠ 0 := fun h => hmag <| by
    rw [← normalised_mag cap sl hlen]
    exact Slot.mag_of_len_zero ((Slot.len_toNat_eq_zero _).1 (normalised_len_toNat.trans h))
  exact if_neg hn

theorem Slot.sval_of_mag_zero (h : sl.mag = 0) : sl.sval = 0 := by
  simp [Slot.sval, h]

/-- R161: NORM keeps the value of a well-formed slot. -/
theorem normalised_sval (hwf : sl.wf cap = true) : (sl.normalised cap).sval = sl.sval := by
  obtain ⟨hcap, hsign, hzero, htop⟩ := (Slot.wf_iff cap sl).1 hwf
  have hlen := Slot.len_le_length htop
  have hmag := normalised_mag cap sl hlen
  by_cases h0 : sl.mag = 0
  · rw [Slot.sval_of_mag_zero (hmag.trans h0), Slot.sval_of_mag_zero h0]
  · have hne : sl.sign ≠ signZero := fun h => h0 (Slot.mag_of_len_zero (hzero.2 h))
    rw [Slot.sval, Slot.sval, normalised_sign hlen h0, if_neg hne, hmag]

/-- R161: "Normalization idempotence", for a slot that is already normalised with zeros above. -/
theorem Slot.HoldsInt.normalised_eq (h : sl.HoldsInt cap v) : sl.normalised cap = sl := by
  obtain ⟨hwf, hv, -⟩ := id h
  obtain ⟨hcap, hsign, -⟩ := (Slot.wf_iff cap sl).1 hwf
  have hagain := normalised_holdsInt hcap hsign
  rw [normalised_sval hwf, hv] at hagain
  rw [hagain.eq_intSlot, ← h.eq_intSlot]

/-- R161: NORM of a slot that is short enough and has a valid sign. -/
theorem exec_norm_wroteSlot (hlen : (s.slot d).len.toNat ≤ s.params.cap)
    (hsign : (s.slot d).sign ≠ signInvalid) : ∃ t, exec (.norm d) s = .next t
      ∧ s.WroteSlot t d ((s.slot d).normalised s.params.cap).sval
      ∧ t.slot d = (s.slot d).normalised s.params.cap :=
  ⟨_, if_neg (not_or.2 ⟨not_lt.2 hlen, hsign⟩), setSlot_wroteSlot (normalised_holdsInt hlen hsign),
    by simp⟩

/-- R161: NORM of a slot that a command wrote changes no slot. -/
theorem State.WroteSlot.exec_norm (h : s.WroteSlot t d v) :
    ∃ u, exec (.norm d) t = .next u ∧ u.slots = t.slots := by
  have hparams := h.params_eq
  obtain ⟨-, -, -, -, hholds⟩ := h
  rw [← hparams] at hholds
  obtain ⟨hwf, -⟩ := id hholds
  obtain ⟨hlen, hsign, -⟩ := (Slot.wf_iff _ _).1 hwf
  obtain ⟨u, hu, hwrote, hslot⟩ := exec_norm_wroteSlot hlen hsign
  refine ⟨u, hu, State.slots_eq_of_slot fun j => ?_⟩
  by_cases hj : j = d
  · rw [hj, hslot, hholds.normalised_eq]
  · exact hwrote.slot_other hj

end Sys2Proof.Machine
end

section
/-! CLAIMS. The statements of 41_normalize_compare_shift.md. -/

namespace Sys2Proof.Machine

/-- Settles O38: what NORM leaves holds a value with zeros above, and NORM changes no such slot. -/
theorem normaliseKeepsTheValue : Obligations.NormaliseKeepsTheValue := by
  refine ⟨fun d => decode_encode (.norm d), fun d s _ hlength => ⟨fun hbad => ?_, fun hlen hsign => ?_⟩⟩
  · exact ⟨_, if_pos hbad, complete_failedWith s .malformed⟩
  have hle : (s.slot d).len.toNat ≤ (s.slot d).dig.length := hlength ▸ hlen
  obtain ⟨t, ht, hwrote, hslot⟩ := exec_norm_wroteSlot hlen hsign
  obtain ⟨u, hu, hagain⟩ := hwrote.exec_norm
  have hwf := hwrote.wf_dest
  obtain ⟨hdone, hx, hother, hresult, -, -, hlength', hzero⟩ := hwrote
  refine ⟨t, u, ht, hu, hdone, hx, hresult, hother, hwf, ?_, hlength', hzero, fun hmag hs => ?_,
    fun hmag hs => ?_, hagain⟩
  · rw [hslot, normalised_mag _ _ hle]
  · rw [hslot, normalised_sign hle hmag]
    exact if_pos hs
  · rw [hslot, normalised_sign hle hmag]
    exact if_neg hs

/-- Settles O39: the lengths decide, else the first difference of the words, and the magnitudes agree. -/
theorem compareMagnitudes : Obligations.CompareMagnitudes := by
  refine ⟨fun a b => decode_encode (.acmp a b), fun a b s => ⟨fun hbad => ?_, fun ha hb => ?_⟩⟩
  · exact ⟨_, operandChecks_raise _ hbad, complete_failedWith s .malformed⟩
  · refine ⟨_, _, operandChecks_pass _ ha hb, setResult_wroteResult s _, ?_⟩
    rw [Slot.magOrder_eq (Slot.wfg_of_wf ha) (Slot.wfg_of_wf hb)]
    exact Order.enc_between _ _

/-- Settles O40: the signs decide, else the order of the magnitudes, taken the other way round for negative
operands. -/
theorem compareSignedValues : Obligations.CompareSignedValues := by
  refine ⟨fun a b => decode_encode (.cmp a b), fun a b s => ⟨fun hbad => ?_, fun ha hb => ?_⟩⟩
  · exact ⟨_, operandChecks_raise _ hbad, complete_failedWith s .malformed⟩
  · refine ⟨_, _, operandChecks_pass _ ha hb, setResult_wroteResult s _, ?_⟩
    rw [Slot.signedOrder_eq ha hb]
    exact Order.enc_between _ _

/-- Settles O41: the shifted magnitude is no longer than the operand, and its words are the ones the
decomposition gives. -/
theorem rightShift : Obligations.RightShift := by
  refine ⟨fun d a k => decode_encode (.rsh d a k), fun d a k s => ⟨fun ha => ?_, fun hp ha => ?_⟩⟩
  · exact ⟨_, if_pos (by simp [ha]), complete_failedWith s .malformed⟩
  · obtain ⟨t, ht, hwrote⟩ := exec_rsh_wroteSlot (d := d) hp ha k
    rw [withSignOf_eq_signedBy] at hwrote
    refine ⟨t, ht, hwrote, fun i hi => ?_⟩
    rw [hwrote.slot_dest, intSlot_digit, if_pos hi, signedBy_natAbs, shiftedWord_eq]

/-- Settles O42: the value is stored exactly or does not fit. -/
theorem leftShift : Obligations.LeftShift := by
  refine ⟨fun d a k => decode_encode (.lsh d a k), fun d a k s =>
    ⟨fun ha => ?_, fun ha hbig => ?_, fun hp ha hfits => ?_⟩⟩
  · exact ⟨_, if_pos (by simp [ha]), complete_failedWith s .malformed⟩
  · refine ⟨_, (if_neg (by simp [ha])).trans (storeInt_capacity ?_), complete_failedWith s .capacity⟩
    rwa [withSignOf_natAbs]
  · rw [← withSignOf_natAbs (s.slot a) (_ * _)] at hfits
    refine ⟨_, (if_neg (by simp [ha])).trans (storeInt_fits hfits), ?_⟩
    rw [← withSignOf_eq_signedBy]
    exact writeInt_wroteSlot hp d hfits

/-- Settles O43: a product by `2 ^ k` divided by `2 ^ k` is the magnitude again, and the sign of the stored
slot, multiplied through, is the source's. -/
theorem shiftRoundTrip : Obligations.ShiftRoundTrip := by
  intro d e a k s t u hp
  have hpos : 0 < 2 ^ k.toNat := Nat.two_pow_pos _
  refine ⟨fun hleft hok hright => ?_, fun hleft hok hright => ?_⟩
  · obtain ⟨ha, hwrote⟩ := exec_lsh_ok hp hleft hok
    obtain ⟨u', hu', hwrote'⟩ :=
      exec_rsh_wroteSlot (d := e) (hwrote.params_eq ▸ hp) hwrote.wf_dest k
    obtain rfl := Host.Outcome.next.inj (hright.symm.trans hu')
    refine ⟨hwrote'.err_eq_ok, ?_⟩
    have hmag : (t.slot d).mag = (s.slot a).mag * 2 ^ k.toNat := by
      rw [hwrote.mag_dest, signedBy_natAbs]
    have hscaled : (u.slot e).sval * (2 ^ k.toNat : Nat) = (s.slot a).sval * (2 ^ k.toNat : Nat) := by
      calc (u.slot e).sval * (2 ^ k.toNat : Nat)
          = signedBy (t.slot d).sign ((t.slot d).mag / 2 ^ k.toNat * 2 ^ k.toNat) := by
            rw [hwrote'.sval_dest, withSignOf_eq_signedBy, signedBy_mul]
        _ = (t.slot d).sval := by
            rw [hmag, Nat.mul_div_cancel _ hpos, ← hmag, signedBy_mag hwrote.wf_dest]
        _ = (s.slot a).sval * (2 ^ k.toNat : Nat) := by
            rw [hwrote.sval_dest, signedBy_mul, signedBy_mag ha]
    exact Int.eq_of_mul_eq_mul_right (by exact_mod_cast hpos.ne') hscaled
  · have hwrote := exec_glsh_ok hp hleft hok
    obtain ⟨u', hu', hwrote'⟩ := exec_grsh_wroteSlot (d := e) (hwrote.params_eq ▸ hp)
      (Slot.wfg_of_wf hwrote.wf_dest) k
    obtain rfl := Host.Outcome.next.inj (hright.symm.trans hu')
    refine ⟨hwrote'.err_eq_ok, ?_⟩
    rw [hwrote'.mag_dest, hwrote.mag_dest, Int.natAbs_natCast, Int.natAbs_natCast,
      Nat.mul_div_cancel _ hpos]

/-- Settles O37: a word of NOP's opcode that decodes is NOP's encoding, the zero word. -/
theorem nopOnlyCompletes : Obligations.NopOnlyCompletes := by
  refine ⟨decode_encode .nop, fun c hopc hne => ?_, fun _ => rfl⟩
  have hdecode : decode c = requireZeros (zerosF0 c) .nop := by simp [decode, hopc]
  cases hzeros : zerosF0 c with
  | false => rw [hdecode, hzeros, requireZeros, if_neg (by decide)]
  | true =>
    have hnop : decode c = .ok .nop := hdecode.trans (requireZeros_eq_ok_iff.2 ⟨hzeros, rfl⟩)
    exact absurd (encode_of_decode hnop).symm hne

end Sys2Proof.Machine
end

section
/-! SUPPORT. The carry chain and the borrow chain, word by word (42_adder.md R194, R195). -/

namespace Sys2Proof.Machine

/-- R194: a list reads as 0 beyond its words, so any list is a lowest word and the words above. -/
theorem natOfWords_headD_tail (ws : List Word) :
    natOfWords ws = (ws.headD 0).toNat + 2 ^ 32 * natOfWords ws.tail := by
  cases ws with
  | nil => rfl
  | cons w ws => rfl

theorem carryChain_length (as bs : List Word) (c : Nat) :
    (carryChain as bs c).length = as.length + 1 := by
  induction as generalizing bs c with
  | nil => rfl
  | cons a as ih => rw [carryChain, List.length_cons, ih, List.length_cons]

theorem borrowChain_length (as bs : List Word) (w : Nat) :
    (borrowChain as bs w).length = as.length := by
  induction as generalizing bs w with
  | nil => rfl
  | cons a as ih => rw [borrowChain, List.length_cons, ih, List.length_cons]

/-- R194: with a carry of 0 or 1 coming in, the chain adds it to the sum. -/
theorem natOfWords_carryChain {as bs : List Word} {c : Nat} (hlen : bs.length ≤ as.length)
    (hc : c ≤ 1) : natOfWords (carryChain as bs c) = natOfWords as + natOfWords bs + c := by
  induction as generalizing bs c with
  | nil =>
    obtain rfl := List.eq_nil_of_length_eq_zero (Nat.le_zero.1 hlen)
    rw [carryChain, natOfWords_cons, natOfWords_nil, BitVec.toNat_ofNat]
    omega
  | cons a as ih =>
    have htail : bs.tail.length ≤ as.length := by simpa using hlen
    have hcarry : (a.toNat + (bs.headD 0).toNat + c) / 2 ^ 32 ≤ 1 := by omega
    rw [carryChain, natOfWords_cons, natOfWords_cons, ih htail hcarry, BitVec.toNat_ofNat,
      natOfWords_headD_tail bs]
    omega

/-- The word written and the borrow taken make up the difference of two words and the borrow coming in. -/
theorem borrow_word (a b : Word) {w : Nat} (hw : w ≤ 1) :
    (BitVec.ofInt 32 ((a.toNat : Int) - b.toNat - w)).toNat + b.toNat + w
      = a.toNat + 2 ^ 32 * if (a.toNat : Int) - b.toNat - w < 0 then 1 else 0 := by
  rw [BitVec.toNat_ofInt]
  split <;> omega

/-- R195: with a borrow of 0 or 1 coming in, the chain takes it off the difference; none is left over,
since the difference is not negative. -/
theorem natOfWords_borrowChain {as bs : List Word} {w : Nat} (hlen : bs.length ≤ as.length)
    (hw : w ≤ 1) (hle : natOfWords bs + w ≤ natOfWords as) :
    natOfWords (borrowChain as bs w) + natOfWords bs + w = natOfWords as := by
  induction as generalizing bs w with
  | nil =>
    obtain rfl := List.eq_nil_of_length_eq_zero (Nat.le_zero.1 hlen)
    exact Nat.le_zero.1 hle
  | cons a as ih =>
    have htail : bs.tail.length ≤ as.length := by simpa using hlen
    have hword := borrow_word a (bs.headD 0) hw
    rw [natOfWords_cons, natOfWords_headD_tail bs] at hle
    rw [borrowChain, natOfWords_cons, natOfWords_cons, natOfWords_headD_tail bs]
    split_ifs at hword ⊢ with hneg
    · have := ih htail le_rfl (by omega)
      omega
    · have := ih htail (Nat.zero_le 1) (by omega)
      omega

end Sys2Proof.Machine
end

section
/-! SUPPORT. The procedures by cases on the signs, and what a command that stores an integer leaves once its
operands are checked (42_adder.md R190-R193; 60_exceptions.md R313-R315). -/

namespace Sys2Proof.Machine

/-! ### Magnitudes under a sign (R192, R193) -/

theorem Slot.sval_of_sign_zero {sl : Slot} (h : sl.sign = signZero) : sl.sval = 0 := by
  simp [Slot.sval, h, signZero, signPos, signNeg]

theorem signedBy_add (sign : BitVec 2) (m n : Nat) :
    signedBy sign (m + n) = signedBy sign m + signedBy sign n := by
  unfold signedBy
  split <;> omega

theorem signedBy_sub (sign : BitVec 2) {m n : Nat} (h : n ≤ m) :
    signedBy sign (m - n) = signedBy sign m - signedBy sign n := by
  unfold signedBy
  split <;> omega

/-- Two different signs other than `ZERO` are opposite. -/
theorem signedBy_of_ne {cap : Nat} {p q : Slot} (hp : p.wf cap = true) (hq : q.wf cap = true)
    (hp0 : p.sign ≠ signZero) (hq0 : q.sign ≠ signZero) (hne : p.sign ≠ q.sign) (m : Nat) :
    signedBy q.sign m = -signedBy p.sign m := by
  obtain ⟨-, hpvalid, -⟩ := (Slot.wf_iff cap p).1 hp
  obtain ⟨-, hqvalid, -⟩ := (Slot.wf_iff cap q).1 hq
  have hopposite : q.sign = signNeg ↔ p.sign ≠ signNeg := by
    generalize p.sign = x, q.sign = y at *
    revert x y
    decide
  by_cases h : p.sign = signNeg
  · simp [signedBy, hopposite, h]
  · simp [signedBy, hopposite, h]

/-- R192: "This procedure computes `sval(A) + sval(B)` in every case". -/
theorem addBySigns_eq {cap : Nat} {p q : Slot} (hp : p.wf cap = true) (hq : q.wf cap = true) :
    addBySigns p q = p.sval + q.sval := by
  unfold addBySigns
  split
  · next hp0 => rw [Slot.sval_of_sign_zero hp0, zero_add]
  split
  · next hq0 => rw [Slot.sval_of_sign_zero hq0, add_zero]
  rw [← signedBy_mag hp, ← signedBy_mag hq]
  split
  · next hsame => rw [← hsame, signedBy_add]
  next hp0 hq0 hne =>
  have hopposite := signedBy_of_ne hp hq hp0 hq0 hne
  split
  · next hlt => rw [signedBy_sub _ hlt.le, hopposite, sub_eq_add_neg]
  · next hge => rw [signedBy_sub _ (not_lt.1 hge), hopposite p.mag, sub_neg_eq_add, add_comm]

/-- R193: "This computes `sval(A) - sval(B)`". -/
theorem subBySigns_eq {cap : Nat} {p q : Slot} (hp : p.wf cap = true) (hq : q.wf cap = true) :
    subBySigns p q = p.sval - q.sval := by
  unfold subBySigns
  split
  · next hq0 => rw [Slot.sval_of_sign_zero hq0, sub_zero]
  split
  · next hp0 => rw [Slot.sval_of_sign_zero hp0, zero_sub]
  rw [← signedBy_mag hp, ← signedBy_mag hq]
  split
  · next hq0 hp0 hne => rw [signedBy_add, signedBy_of_ne hp hq hp0 hq0 hne, sub_neg_eq_add]
  next hsame =>
  rw [← not_not.1 hsame]
  split
  · next hle => rw [signedBy_sub _ hle]
  · next hlt => rw [signedBy_sub _ (not_le.1 hlt).le, neg_sub]

/-! ### Commands past their operand checks (R313, R315) -/

variable {i : Instr} {s : State} {d a b : Idx} {v : Int}

theorem fails_of_exec_eq_raise {c : ErrorCode} (h : exec i s = raise c s) : Fails i s c :=
  ⟨_, h, complete_failedWith s c⟩

theorem fails_capacity_of_exec_eq_storeInt (h : exec i s = storeInt d v s)
    (hbig : 2 ^ (32 * s.params.cap) ≤ v.natAbs) : Fails i s .capacity :=
  fails_of_exec_eq_raise (h.trans (storeInt_capacity hbig))

theorem wroteSlot_of_exec_eq_storeInt (h : exec i s = storeInt d v s) (hp : s.params.wf = true)
    (hfits : v.natAbs < 2 ^ (32 * s.params.cap)) : ∃ t, exec i s = .next t ∧ s.WroteSlot t d v :=
  ⟨_, h.trans (storeInt_fits hfits), writeInt_wroteSlot hp d hfits⟩

/-! ### The commands (R190-R193) -/

section
variable (ha : s.wf a = true) (hb : s.wf b = true)
include ha hb

theorem exec_aadd_order (h : (s.slot a).len.toNat < (s.slot b).len.toNat) :
    exec (.aadd d a b) s = raise .order s :=
  (operandChecks_pass _ ha hb).trans (if_pos h)

theorem exec_aadd_ordered (h : (s.slot b).len.toNat ≤ (s.slot a).len.toNat) :
    exec (.aadd d a b) s = storeInt d ((s.slot a).mag + (s.slot b).mag : Nat) s :=
  (operandChecks_pass _ ha hb).trans (if_neg h.not_gt)

theorem exec_asub_magnitude (h : (s.slot a).mag < (s.slot b).mag) :
    exec (.asub d a b) s = raise .magnitude s :=
  (operandChecks_pass _ ha hb).trans (if_pos h)

/-- R191: the difference of the magnitudes is at most the first one, so it fits. -/
theorem exec_asub_wroteSlot (hp : s.params.wf = true) (h : (s.slot b).mag ≤ (s.slot a).mag) :
    ∃ t, exec (.asub d a b) s = .next t
      ∧ s.WroteSlot t d ((s.slot a).mag - (s.slot b).mag : Nat) :=
  ⟨_, (operandChecks_pass _ ha hb).trans (if_neg h.not_gt),
    writeInt_wroteSlot hp d ((Nat.sub_le _ _).trans_lt (mag_lt_of_wf ha))⟩

theorem exec_add_wf :
    exec (.add d a b) s = storeInt d ((s.slot a).sval + (s.slot b).sval) s :=
  operandChecks_pass _ ha hb

theorem exec_sub_wf :
    exec (.sub d a b) s = storeInt d ((s.slot a).sval - (s.slot b).sval) s :=
  operandChecks_pass _ ha hb

end

end Sys2Proof.Machine
end

section
/-! CLAIMS. The statements of 42_adder.md. -/

namespace Sys2Proof.Machine

/-- Settles O44: past the operand checks the lengths or the magnitudes decide, and a difference of
magnitudes always fits. -/
theorem addAndSubtractMagnitudes : Obligations.AddAndSubtractMagnitudes := by
  refine ⟨fun d a b => ⟨decode_encode (.aadd d a b), decode_encode (.asub d a b)⟩,
    fun d a b s => ⟨fun hbad => ?_, fun ha hb hshort => ?_, fun ha hb hlen hbig => ?_,
      fun hp ha hb hlen hfits => ?_, fun ha hb hless => ?_, fun hp ha hb hle => ?_⟩⟩
  · exact ⟨fails_of_exec_eq_raise (operandChecks_raise _ hbad),
      fails_of_exec_eq_raise (operandChecks_raise _ hbad)⟩
  · exact fails_of_exec_eq_raise (exec_aadd_order ha hb hshort)
  · exact fails_capacity_of_exec_eq_storeInt (exec_aadd_ordered ha hb hlen) hbig
  · rw [← Nat.cast_add]
    exact wroteSlot_of_exec_eq_storeInt (exec_aadd_ordered ha hb hlen) hp hfits
  · exact fails_of_exec_eq_raise (exec_asub_magnitude ha hb hless)
  · rw [← Nat.cast_sub hle]
    exact exec_asub_wroteSlot ha hb hp hle

/-- Settles O45: past the operand checks the exact integer is stored or does not fit. -/
theorem addAndSubtractSigned : Obligations.AddAndSubtractSigned := by
  refine ⟨fun d a b => ⟨decode_encode (.add d a b), decode_encode (.sub d a b)⟩,
    fun d a b s => ⟨fun hbad => ?_, fun ha hb => ⟨?_, ?_, addBySigns_eq ha hb, subBySigns_eq ha hb⟩,
      fun hp ha hb => ?_, fun hp ha hb => exec_sub_wroteSlot hp ha hb⟩⟩
  · exact ⟨fails_of_exec_eq_raise (operandChecks_raise _ hbad),
      fails_of_exec_eq_raise (operandChecks_raise _ hbad)⟩
  · exact fails_capacity_of_exec_eq_storeInt (exec_add_wf ha hb)
  · exact fails_capacity_of_exec_eq_storeInt (exec_sub_wf ha hb)
  · exact wroteSlot_of_exec_eq_storeInt (exec_add_wf ha hb) hp

/-- Settles O46: the chains with no carry and no borrow coming in. -/
theorem carryAndBorrowChains : Obligations.CarryAndBorrowChains := by
  intro as bs hlen
  have hstart : 0 ≤ 1 := Nat.zero_le 1
  exact ⟨⟨natOfWords_carryChain hlen hstart, carryChain_length as bs 0⟩, fun hle =>
    ⟨Nat.eq_sub_of_add_eq (natOfWords_borrowChain hlen hstart hle), borrowChain_length as bs 0⟩⟩

end Sys2Proof.Machine
end

section
/-! SUPPORT. The schoolbook grid, the Karatsuba tree and the squarer compute products
(43_multiplier.md R223-R225). -/

namespace Sys2Proof.Machine

/-! ### The schoolbook grid (R223) -/

/-- R223: both addends leave the largest product within a double word, so a cell loses nothing. -/
theorem gridCell_value (a b r c : Word) :
    (gridCell a b r c).1.toNat + 2 ^ 32 * (gridCell a b r c).2.toNat
      = a.toNat * b.toNat + r.toNat + c.toNat := by
  have hle := word_product_le a b
  exact pair_value (by omega)

theorem gridRow_length (a : Word) (bs rs : List Word) (c : Word) :
    (gridRow a bs rs c).length = bs.length + 1 := by
  induction bs generalizing rs c with
  | nil => rfl
  | cons b bs ih => rw [gridRow, List.length_cons, ih, List.length_cons]

theorem gridRow_tail_length (a : Word) (bs rs : List Word) (c : Word) :
    (gridRow a bs rs c).tail.length = bs.length := by
  rw [List.length_tail, gridRow_length, Nat.add_sub_cancel]

/-- R223: a row adds its word's multiple to the result words already there. -/
theorem natOfWords_gridRow (a : Word) {bs rs : List Word} (c : Word)
    (hlen : rs.length ≤ bs.length) :
    natOfWords (gridRow a bs rs c) = a.toNat * natOfWords bs + natOfWords rs + c.toNat := by
  induction bs generalizing rs c with
  | nil =>
    obtain rfl := List.eq_nil_of_length_eq_zero (Nat.le_zero.1 hlen)
    simp [gridRow, natOfWords]
  | cons b bs ih =>
    have htail : rs.tail.length ≤ bs.length := by simpa using hlen
    have hcell := gridCell_value a b (rs.headD 0) c
    rw [gridRow, natOfWords_cons, ih _ htail, natOfWords_cons, natOfWords_headD_tail rs]
    linear_combination hcell

theorem gridRows_length (as : List Word) {bs rs : List Word} (hlen : rs.length = bs.length) :
    (gridRows as bs rs).length = as.length + bs.length := by
  induction as generalizing rs with
  | nil => rw [gridRows, hlen, List.length_nil, Nat.zero_add]
  | cons a as ih =>
    rw [gridRows, List.length_cons, ih (gridRow_tail_length a bs rs 0), List.length_cons,
      Nat.add_right_comm]

/-- R223: the rows add the product to the result words they start from. -/
theorem natOfWords_gridRows (as : List Word) {bs rs : List Word} (hlen : rs.length = bs.length) :
    natOfWords (gridRows as bs rs) = natOfWords as * natOfWords bs + natOfWords rs := by
  induction as generalizing rs with
  | nil => rw [gridRows, natOfWords_nil, Nat.zero_mul, Nat.zero_add]
  | cons a as ih =>
    have hrow := natOfWords_gridRow a 0 hlen.le
    rw [natOfWords_headD_tail, BitVec.ofNat_eq_ofNat, BitVec.toNat_zero] at hrow
    rw [gridRows, natOfWords_cons, ih (gridRow_tail_length a bs rs 0), natOfWords_cons]
    linear_combination hrow

theorem natOfWords_schoolbook (as bs : List Word) :
    natOfWords (schoolbook as bs) = natOfWords as * natOfWords bs := by
  rw [schoolbook, natOfWords_gridRows as List.length_replicate, natOfWords_replicate_zero, Nat.add_zero]

theorem schoolbook_length (as bs : List Word) :
    (schoolbook as bs).length = as.length + bs.length :=
  gridRows_length as List.length_replicate

theorem schoolbookNat_eq (u v : Nat) : schoolbookNat u v = u * v := by
  rw [schoolbookNat, natOfWords_schoolbook, natOfWords_wordsOfNat_of_lt (lt_pow_nwords u),
    natOfWords_wordsOfNat_of_lt (lt_pow_nwords v)]

/-! ### The Karatsuba tree (R224) -/

/-- The halves of a number add up to at most the number. -/
theorem mod_add_div_le (u : Nat) {w : Nat} (hw : 0 < w) : u % w + u / w ≤ u := by
  have hdiv := Nat.mod_add_div u w
  have hmul := Nat.le_mul_of_pos_left (u / w) hw
  omega

/-- A number of more than one half splits into halves that add up to less. -/
theorem mod_add_div_lt {u w : Nat} (hw : 1 < w) (hu : w ≤ u) : u % w + u / w < u := by
  have hdiv := Nat.mod_add_div u w
  have hmul := Nat.mul_le_mul_right (u / w) hw
  have hpos := Nat.div_pos hu (by omega)
  omega

/-- R224: above the base case the larger operand has words beyond the half, so the operands of the
recursive calls have a smaller sum. -/
theorem halves_sum_lt {u v q : Nat} (hq : q = (max (nwords u) (nwords v) + 1) / 2) (hbig : 1 < q) :
    (u % 2 ^ (32 * q) + u / 2 ^ (32 * q)) + (v % 2 ^ (32 * q) + v / 2 ^ (32 * q)) < u + v := by
  have hw : 1 < 2 ^ (32 * q) := Nat.one_lt_two_pow (by omega)
  have hlarge : q < nwords u ∨ q < nwords v := by omega
  rw [lt_nwords_iff, lt_nwords_iff] at hlarge
  obtain hu | hv := hlarge
  · exact Nat.add_lt_add_of_lt_of_le (mod_add_div_lt hw hu) (mod_add_div_le v (by omega))
  · exact Nat.add_lt_add_of_le_of_lt (mod_add_div_le u (by omega)) (mod_add_div_lt hw hv)

/-- R224: the product of the sums of the halves, less the two products of halves, is the cross term. -/
theorem karatsuba_recombine (u v w : Nat) :
    u / w * (v / w) * (w * w)
        + ((u % w + u / w) * (v % w + v / w) - u / w * (v / w) - u % w * (v % w)) * w
        + u % w * (v % w) = u * v := by
  have hcross : (u % w + u / w) * (v % w + v / w) - u / w * (v / w) - u % w * (v % w)
      = u % w * (v / w) + u / w * (v % w) := by
    rw [Nat.sub_sub]
    exact Nat.sub_eq_of_eq_add (by ring)
  rw [hcross]
  conv_rhs => rw [← Nat.mod_add_div u w, ← Nat.mod_add_div v w]
  ring

/-- R224: a tree deeper than the sum of the operands computes their product. -/
theorem karatsubaTree_eq {fuel u v : Nat} (hfuel : u + v < fuel) :
    karatsubaTree fuel u v = u * v := by
  induction fuel generalizing u v with
  | zero => exact absurd hfuel (Nat.not_lt_zero _)
  | succ fuel ih =>
    rw [karatsubaTree]
    split
    · exact schoolbookNat_eq u v
    · next hbase =>
      have hsums := (halves_sum_lt rfl (not_le.1 hbase)).trans_le (Nat.le_of_lt_succ hfuel)
      have hlow := (Nat.add_le_add (Nat.le_add_right _ _) (Nat.le_add_right _ _)).trans_lt hsums
      have hhigh := (Nat.add_le_add (Nat.le_add_left _ _) (Nat.le_add_left _ _)).trans_lt hsums
      have hsquare (q : Nat) : 2 ^ (32 * (2 * q)) = 2 ^ (32 * q) * 2 ^ (32 * q) := by
        rw [← Nat.pow_add]
        congr 1
        omega
      simp only
      rw [ih hlow, ih hhigh, ih hsums, hsquare, karatsuba_recombine]

theorem karatsuba_eq (u v : Nat) : karatsuba u v = u * v := karatsubaTree_eq (Nat.lt_succ_self _)

/-! ### The squarer (R225) -/

theorem crossTerms_eq (a : Word) (bs : List Word) :
    crossTerms a bs = 2 * a.toNat * natOfWords bs := by
  induction bs with
  | nil => rfl
  | cons b bs ih =>
    rw [crossTerms, ih, natOfWords_cons]
    ring

theorem squarer_eq (as : List Word) : squarer as = natOfWords as * natOfWords as := by
  induction as with
  | nil => rfl
  | cons a as ih =>
    rw [squarer, crossTerms_eq, ih, natOfWords_cons]
    ring

end Sys2Proof.Machine
end

section
/-! SUPPORT. The magnitude of a product, and the multiplication commands once their operands are checked
(43_multiplier.md R220-R222). -/

namespace Sys2Proof.Machine

variable {s : State} {d a b : Idx}

theorem natAbs_sval_mul (ha : s.wf a = true) (hb : s.wf b = true) :
    ((s.slot a).sval * (s.slot b).sval).natAbs = (s.slot a).mag * (s.slot b).mag := by
  rw [Int.natAbs_mul, Slot.natAbs_sval ha, Slot.natAbs_sval hb]

/-- R222: "the square of a nonzero integer is positive". -/
theorem sval_mul_self (ha : s.wf a = true) :
    (s.slot a).sval * (s.slot a).sval = ((s.slot a).mag * (s.slot a).mag : Nat) := by
  rw [← Int.natAbs_mul_self, Slot.natAbs_sval ha]

/-- R221: "KMUL writes exactly what MUL writes for the same operands". -/
theorem exec_kmul_eq_exec_mul (d a b : Idx) (s : State) :
    exec (.kmul d a b) s = exec (.mul d a b) s := rfl

theorem exec_mul_malformed (h : s.wf a = false ∨ s.wf b = false) :
    exec (.mul d a b) s = raise .malformed s :=
  operandChecks_raise _ h

theorem exec_mul_wf (ha : s.wf a = true) (hb : s.wf b = true) :
    exec (.mul d a b) s = storeInt d ((s.slot a).sval * (s.slot b).sval) s :=
  operandChecks_pass _ ha hb

theorem exec_sqr_malformed (ha : s.wf a = false) : exec (.sqr d a) s = raise .malformed s :=
  if_pos (by simp [ha])

theorem exec_sqr_wf (ha : s.wf a = true) :
    exec (.sqr d a) s = storeInt d ((s.slot a).mag * (s.slot a).mag : Nat) s :=
  if_neg (by simp [ha])

/-- R222: "`Multiply(A,A) == Square(A)`". -/
theorem exec_mul_self_eq_exec_sqr (ha : s.wf a = true) :
    exec (.mul d a a) s = exec (.sqr d a) s := by
  rw [exec_mul_wf ha ha, exec_sqr_wf ha, sval_mul_self ha]

end Sys2Proof.Machine
end

section
/-! CLAIMS. The statements of 43_multiplier.md. -/

namespace Sys2Proof.Machine

/-- Settles O47: MUL and KMUL are one command, whose exact product is stored or does not fit. -/
theorem signedProduct : Obligations.SignedProduct := by
  refine ⟨fun d a b => ⟨decode_encode (.mul d a b), decode_encode (.kmul d a b)⟩,
    fun d a b s => ⟨fun hbad => ?_, fun ha hb hbig => ?_, fun hp ha hb hfits => ?_⟩⟩
  · have hfails := fails_of_exec_eq_raise (exec_mul_malformed (d := d) hbad)
    exact ⟨hfails, hfails⟩
  · rw [← natAbs_sval_mul ha hb] at hbig
    have hfails := fails_capacity_of_exec_eq_storeInt (exec_mul_wf (d := d) ha hb) hbig
    exact ⟨hfails, hfails⟩
  · rw [← natAbs_sval_mul ha hb] at hfits
    obtain ⟨t, ht, hwrote⟩ := wroteSlot_of_exec_eq_storeInt (exec_mul_wf (d := d) ha hb) hp hfits
    exact ⟨t, ht, (exec_kmul_eq_exec_mul d a b s).trans ht, hwrote⟩

/-- Settles O48: past the operand check SQR stores the square, and so does MUL of the slot with itself. -/
theorem squareIsTheProductWithItself : Obligations.SquareIsTheProductWithItself := by
  refine ⟨fun d a => decode_encode (.sqr d a), fun d a s => ⟨fun ha => ?_, fun ha hbig => ?_,
    fun hp ha hfits => ?_⟩⟩
  · exact fails_of_exec_eq_raise (exec_sqr_malformed ha)
  · exact fails_capacity_of_exec_eq_storeInt (exec_sqr_wf ha) hbig
  · obtain ⟨t, ht, hwrote⟩ := wroteSlot_of_exec_eq_storeInt (d := d) (exec_sqr_wf ha) hp hfits
    exact ⟨t, ht, (exec_mul_self_eq_exec_sqr ha).trans ht, mod_cast hwrote⟩

/-- Settles O49: the grid from result words of 0, the tree deep enough for its operands, and the squarer. -/
theorem multiplierAlgorithmsAreExact : Obligations.MultiplierAlgorithmsAreExact :=
  ⟨fun as bs => ⟨natOfWords_schoolbook as bs, schoolbook_length as bs⟩, karatsuba_eq, squarer_eq⟩

end Sys2Proof.Machine
end

section
/-! SUPPORT. The Barrett estimate as a remainder, its distance from the true remainder, and BRED once its
operands are checked (44_barrett.md R250-R252). -/

namespace Sys2Proof.Machine

/-! ### The corrective loop (R250) -/

/-- R250: enough turns of "while r >= N: r <- r - N" leave the remainder. -/
theorem subtractLoop_eq_mod {m fuel r : Nat} (h : r < (fuel + 1) * m) :
    subtractLoop m fuel r = r % m := by
  induction fuel generalizing r with
  | zero => rw [subtractLoop, Nat.mod_eq_of_lt (by simpa using h)]
  | succ fuel ih =>
    rw [subtractLoop]
    split
    · next hle =>
      have hless : r - m < (fuel + 1) * m := by
        rw [Nat.succ_mul] at h
        omega
      rw [ih hless, ← Nat.mod_eq_sub_mod hle]
    · next hlt => exact (Nat.mod_eq_of_lt (not_le.1 hlt)).symm

/-! ### The estimate (R250, R251) -/

/-- R250: `qh`, the estimate of the quotient. -/
def barrettQuotient (n z t : Nat) : Nat := z / 2 ^ (32 * (n - 1)) * t / 2 ^ (32 * (n + 1))

/-- R250: a difference of residues, with the modulus added when it is negative, is the residue of the
difference. -/
theorem natCast_wrappedSub {x y w : Nat} (hx : x < w) (hy : y < w) :
    ((if x < y then x + w - y else x - y : Nat) : Int) = ((x : Int) - y) % w := by
  split
  · next hlt =>
    rw [← Int.add_emod_right, Int.emod_eq_of_lt (by omega) (by omega)]
    omega
  · next hge =>
    rw [Int.emod_eq_of_lt (by omega) (by omega)]
    omega

/-- R251: "the underflow correction makes `r = (r1 - r2) mod W^(n+1)`". -/
theorem natCast_barrettEstimate (n z m t : Nat) :
    (barrettEstimate n z m t : Int)
      = (((z % 2 ^ (32 * (n + 1)) : Nat) : Int)
          - (barrettQuotient n z t * m % 2 ^ (32 * (n + 1)) : Nat)) % 2 ^ (32 * (n + 1)) := by
  have hwide : 0 < 2 ^ (32 * (n + 1)) := Nat.two_pow_pos _
  exact mod_cast natCast_wrappedSub (Nat.mod_lt z hwide) (Nat.mod_lt _ hwide)

/-! ### The right constant (R252) -/

/-- R252, the Barrett analysis: with `T = floor(L * H / N)`, the estimated quotient is at most the true
one.  Here `L = W^(n-1)` and `H = W^(n+1)`. -/
theorem estimatedQuotient_mul_le (z m low : Nat) {high : Nat} (hhigh : 0 < high) :
    z / low * (low * high / m) / high * m ≤ z := by
  refine Nat.le_of_mul_le_mul_right ?_ hhigh
  calc z / low * (low * high / m) / high * m * high
      = z / low * (low * high / m) / high * high * m := Nat.mul_right_comm ..
    _ ≤ z / low * (low * high / m) * m := Nat.mul_le_mul_right _ (Nat.div_mul_le_self ..)
    _ = z / low * (low * high / m * m) := Nat.mul_assoc ..
    _ ≤ z / low * (low * high) := Nat.mul_le_mul_left _ (Nat.div_mul_le_self ..)
    _ = z / low * low * high := (Nat.mul_assoc ..).symm
    _ ≤ z * high := Nat.mul_le_mul_right _ (Nat.div_mul_le_self ..)

/-- R252, the Barrett analysis: the estimated quotient is too small by at most 2.  Each of the three
divisions costs less than one `N`. -/
theorem lt_estimatedQuotient_add_three_mul {z m low high : Nat} (hlow : 0 < low) (hm : low ≤ m)
    (hz : z < low * high) : z < (z / low * (low * high / m) / high + 3) * m := by
  have hhigh : 0 < high := Nat.pos_of_lt_mul_left hz
  have hq1 : z / low < high := Nat.div_lt_of_lt_mul hz
  generalize hT : low * high / m = T
  generalize hq : z / low = q1 at *
  generalize hqh : q1 * T / high = qh
  have hzlow : z < (q1 + 1) * low := by
    rw [← hq, mul_comm]
    exact Nat.lt_mul_div_succ z hlow
  have hTm : low * high ≤ (T + 1) * m := by
    rw [← hT, mul_comm _ m]
    exact (Nat.lt_mul_div_succ _ (hlow.trans_le hm)).le
  have hqT : q1 * T ≤ (qh + 1) * high := by
    rw [← hqh, mul_comm _ high]
    exact (Nat.lt_mul_div_succ _ hhigh).le
  refine Nat.lt_of_mul_lt_mul_right (a := high) ?_
  calc z * high
      < (q1 + 1) * low * high := Nat.mul_lt_mul_of_pos_right hzlow hhigh
    _ = q1 * (low * high) + low * high := by ring
    _ ≤ q1 * ((T + 1) * m) + m * high :=
      Nat.add_le_add (Nat.mul_le_mul_left _ hTm) (Nat.mul_le_mul_right _ hm)
    _ = (q1 * T + q1) * m + m * high := by ring
    _ ≤ ((qh + 1) * high + high) * m + m * high := by gcongr
    _ = (qh + 3) * m * high := by ring

section
variable {n z m : Nat} (hn : 0 < n) (hlo : 2 ^ (32 * (n - 1)) ≤ m) (hhi : m < 2 ^ (32 * n))
  (hz : z < 2 ^ (32 * (2 * n)))
include hn hlo hz

/-- R252: "`0 <= Z - qh*N < 3N`", the two sides. -/
theorem barrettQuotient_bounds :
    barrettQuotient n z (2 ^ (32 * (2 * n)) / m) * m ≤ z
      ∧ z < (barrettQuotient n z (2 ^ (32 * (2 * n)) / m) + 3) * m := by
  have hsplit : 2 ^ (32 * (2 * n)) = 2 ^ (32 * (n - 1)) * 2 ^ (32 * (n + 1)) := by
    rw [← pow_add]
    congr 1
    omega
  rw [barrettQuotient, hsplit]
  rw [hsplit] at hz
  exact ⟨estimatedQuotient_mul_le z m _ (Nat.two_pow_pos _),
    lt_estimatedQuotient_add_three_mul (Nat.two_pow_pos _) hlo hz⟩

include hhi

/-- R252: `Z - qh*N < 3N < W^(n+1)`, so nothing is lost modulo `W^(n+1)`. -/
theorem barrettEstimate_eq_sub : barrettEstimate n z m (2 ^ (32 * (2 * n)) / m)
    = z - barrettQuotient n z (2 ^ (32 * (2 * n)) / m) * m := by
  obtain ⟨hle, hlt⟩ := barrettQuotient_bounds hn hlo hz
  have hest := natCast_barrettEstimate n z m (2 ^ (32 * (2 * n)) / m)
  generalize barrettQuotient n z (2 ^ (32 * (2 * n)) / m) = qh at *
  have hwide : z - qh * m < 2 ^ (32 * (n + 1)) := by
    rw [Nat.mul_succ, pow_add]
    rw [Nat.add_mul] at hlt
    omega
  rw [← Int.natCast_inj, hest]
  push_cast
  rw [← Int.sub_emod, ← Nat.cast_mul, ← Nat.cast_sub hle]
  exact mod_cast Nat.mod_eq_of_lt hwide

theorem barrettEstimate_lt_three_mul : barrettEstimate n z m (2 ^ (32 * (2 * n)) / m) < 3 * m := by
  obtain ⟨hle, hlt⟩ := barrettQuotient_bounds hn hlo hz
  rw [barrettEstimate_eq_sub hn hlo hhi hz]
  rw [Nat.add_mul] at hlt
  omega

/-- R252: "BRED writes `Z mod N`". -/
theorem barrettValue_eq_mod : barrettValue n z m (2 ^ (32 * (2 * n)) / m) = z % m := by
  obtain ⟨hle, -⟩ := barrettQuotient_bounds hn hlo hz
  rw [mul_comm] at hle
  rw [barrettValue, barrettEstimate_eq_sub hn hlo hhi hz, mul_comm _ m, Nat.sub_mul_mod hle]

end

/-! ### The command (R250) -/

variable {s : State} {d a b c : Idx}

/-- R314: one malformed operand of three ends the command, whatever comes after the checks. -/
theorem threeOperandChecks_raise {x y z : Bool} (r : Result) (h : x = false ∨ y = false ∨ z = false) :
    (if !x then raise .malformed s else if !y then raise .malformed s
      else if !z then raise .malformed s else r) = raise .malformed s := by
  obtain h | h | h := h
  · simp [h]
  · simp [h]
  · simp [h]

/-- R314: three well-formed operands pass the checks. -/
theorem threeOperandChecks_pass {x y z : Bool} (r : Result) (hx : x = true) (hy : y = true)
    (hz : z = true) :
    (if !x then raise .malformed s else if !y then raise .malformed s
      else if !z then raise .malformed s else r) = r := by
  simp [hx, hy, hz]

theorem exec_bred_malformed (h : s.wf a = false ∨ s.wf b = false ∨ s.wf c = false) :
    exec (.bred d a b c) s = raise .malformed s :=
  threeOperandChecks_raise _ h

section
variable (ha : s.wf a = true) (hb : s.wf b = true) (hc : s.wf c = true)
include ha hb hc

theorem exec_bred_modulus
    (h : (s.slot a).sign = signNeg ∨ (s.slot b).sign ≠ signPos ∨ (s.slot c).sign = signNeg
      ∨ 2 * (s.slot b).len.toNat < (s.slot a).len.toNat) :
    exec (.bred d a b c) s = raise .modulus s := by
  refine (threeOperandChecks_pass _ ha hb hc).trans ?_
  split
  · rfl
  · next hsigns => exact if_pos (by tauto)

/-- R250: "CAPACITY cannot occur": what is written is below the modulus. -/
theorem exec_bred_wroteSlot (hp : s.params.wf = true) (hsa : (s.slot a).sign ≠ signNeg)
    (hsb : (s.slot b).sign = signPos) (hsc : (s.slot c).sign ≠ signNeg)
    (hlen : (s.slot a).len.toNat ≤ 2 * (s.slot b).len.toNat) :
    ∃ t, exec (.bred d a b c) s = .next t
      ∧ s.WroteSlot t d
        (barrettValue (s.slot b).len.toNat (s.slot a).mag (s.slot b).mag (s.slot c).mag : Nat) := by
  have hsigns : ¬ ((s.slot a).sign = signNeg ∨ (s.slot b).sign ≠ signPos
      ∨ (s.slot c).sign = signNeg) := by tauto
  have hfits : barrettValue (s.slot b).len.toNat (s.slot a).mag (s.slot b).mag (s.slot c).mag
      < 2 ^ (32 * s.params.cap) :=
    (barrettValue_lt _ _ _ (mag_pos_of_wf hb hsb)).trans (mag_lt_of_wf hb)
  exact ⟨_, (threeOperandChecks_pass _ ha hb hc).trans
    ((if_neg hsigns).trans (if_neg hlen.not_gt)), writeInt_wroteSlot hp d hfits⟩

end

/-- R17: a positive operand has a word. -/
theorem len_ne_zero_of_wf (h : s.wf a = true) (hs : (s.slot a).sign = signPos) :
    (s.slot a).len ≠ 0 := fun h0 => (mag_pos_of_wf h hs).ne' (Slot.mag_of_len_zero h0)

end Sys2Proof.Machine
end

section
/-! CLAIMS. The statements of 44_barrett.md. -/

namespace Sys2Proof.Machine

/-- Settles O50: past its checks BRED writes the remainder of the estimate, and the estimate is the residue
of the difference; the loop needs no more turns than the quotient. -/
theorem barrettClosedForm : Obligations.BarrettClosedForm := by
  refine ⟨fun d a b c => decode_encode (.bred d a b c), fun d a b c s => ⟨fun hbad => ?_,
    fun ha hb hc hrange => ?_, fun n hn hp ha hb hc hsa hsb hsc hlen => ?_⟩, fun m r hm => ?_⟩
  · exact fails_of_exec_eq_raise (exec_bred_malformed hbad)
  · exact fails_of_exec_eq_raise (exec_bred_modulus ha hb hc hrange)
  · subst hn
    obtain ⟨t, ht, hwrote⟩ := exec_bred_wroteSlot (d := d) ha hb hc hp hsa hsb hsc hlen
    rw [barrettValue, Int.natCast_emod, natCast_barrettEstimate] at hwrote
    exact ⟨t, ht, hwrote⟩
  · refine subtractLoop_eq_mod ?_
    rw [mul_comm]
    exact Nat.lt_mul_div_succ r hm

/-- Settles O51, by the Barrett analysis: the estimate is `Z - qh * N` and less than `3 * N`. -/
theorem barrettReducesWithTheRightConstant : Obligations.BarrettReducesWithTheRightConstant := by
  intro d a b c s n hn hp ha hb hc hsa hsb hlen hT hsc
  subst hn
  have hne : (s.slot b).len ≠ 0 := len_ne_zero_of_wf hb hsb
  have hn : 0 < (s.slot b).len.toNat := Nat.pos_of_ne_zero ((Slot.len_toNat_eq_zero _).not.2 hne)
  have hlo := Slot.pow_le_mag (Slot.wfg_of_wf hb) hne
  have hhi := Slot.mag_lt (s.slot b)
  have hz : (s.slot a).mag < 2 ^ (32 * (2 * (s.slot b).len.toNat)) :=
    (Slot.mag_lt _).trans_le (Nat.pow_le_pow_right two_pos (Nat.mul_le_mul_left 32 hlen))
  have hvalue := barrettValue_eq_mod hn hlo hhi hz
  have hsmall := barrettEstimate_lt_three_mul hn hlo hhi hz
  rw [← hT] at hvalue hsmall
  refine ⟨?_, (subtractLoop_eq_mod hsmall).trans hvalue⟩
  rw [← hvalue]
  exact exec_bred_wroteSlot ha hb hc hp hsa hsb hsc hlen

/-- Settles O52: the three commands raise UNIMPL from every state, and their bits 23:0 are in no check. -/
theorem unimplementedCommandsAreRejected : Obligations.UnimplementedCommandsAreRejected := by
  refine ⟨fun g => ⟨decode_encode (.mont g), decode_encode (.gdiv g), decode_encode (.gsqr g)⟩,
    fun g s => ?_⟩
  have hrejected : ∃ t, raise .unimpl s = .next t ∧ s.FailedWith t .unimpl :=
    ⟨_, rfl, complete_failedWith s .unimpl⟩
  exact ⟨hrejected, hrejected, hrejected⟩

end Sys2Proof.Machine
end

section
/-! SUPPORT. The loops of R274 and R275 as congruences modulo `Irr`: GMUL's shift-and-add leaves the
remainder of the carry-less product (00_scope.md R18; 45_gf2n.md R274, R275). -/

namespace Sys2Proof.Machine

/-! ### The carry-less product from the lowest bit up (R275) -/

/-- R275: "the loop over the bits of `A`, least significant first": the lowest bit is taken off and the
other factor is shifted. -/
theorem clmulBits_succ_low (k a b : Nat) :
    clmulBits (k + 1) a b = (if a % 2 = 1 then b else 0) ^^^ clmulBits k (a / 2) (b <<< 1) := by
  induction k with
  | zero => simp [clmulBits, Nat.testBit_zero]
  | succ k ih =>
    have hbit : a.testBit (k + 1) = (a / 2).testBit k := Nat.testBit_succ a k
    have hshift : b <<< (k + 1) = b <<< 1 <<< k := by rw [← Nat.shiftLeft_add, Nat.add_comm]
    rw [clmulBits_succ, ih, clmulBits_succ k (a / 2), hbit, hshift, Nat.xor_assoc]

/-- R18: a product shifted is the product of a shifted factor. -/
theorem clmul_shiftLeft_left (a b : Nat) : clmul (a <<< 1) b = clmul a b <<< 1 := by
  have ha : a < 2 ^ (a.log2 + 1) := Nat.lt_log2_self
  have hshift : a <<< 1 < 2 ^ (a.log2 + 1 + 1) := by omega
  rw [clmul_eq_clmulBits b hshift, clmulBits_succ_low, clmulBits_shiftLeft_right,
    ← clmul_eq_clmulBits b (by omega)]
  simp [Nat.shiftLeft_eq]

/-! ### Congruence modulo a polynomial -/

/-- R18, R274: `x ≡ y (mod m)`, the two polynomials differ by a carry-less multiple of `m`. -/
def Congruent (m x y : Nat) : Prop := ∃ q, x ^^^ y = clmul q m

namespace Congruent

variable {m x y z x' y' : Nat}

theorem refl (m x : Nat) : Congruent m x x := ⟨0, by rw [Nat.xor_self, clmul_zero_left]⟩

theorem symm (h : Congruent m x y) : Congruent m y x := by
  obtain ⟨q, hq⟩ := h
  exact ⟨q, by rw [Nat.xor_comm, hq]⟩

theorem xor (h : Congruent m x y) (h' : Congruent m x' y') : Congruent m (x ^^^ x') (y ^^^ y') := by
  obtain ⟨q, hq⟩ := h
  obtain ⟨q', hq'⟩ := h'
  refine ⟨q ^^^ q', ?_⟩
  rw [clmul_xor_left, ← hq, ← hq', Nat.xor_assoc, Nat.xor_assoc, Nat.xor_left_comm x']

theorem trans (h : Congruent m x y) (h' : Congruent m y z) : Congruent m x z := by
  obtain ⟨q, hq⟩ := h
  obtain ⟨q', hq'⟩ := h'
  refine ⟨q ^^^ q', ?_⟩
  rw [clmul_xor_left, ← hq, ← hq', Nat.xor_assoc, ← Nat.xor_assoc y, Nat.xor_self, Nat.zero_xor]

theorem shiftLeft (h : Congruent m x y) : Congruent m (x <<< 1) (y <<< 1) := by
  obtain ⟨q, hq⟩ := h
  exact ⟨q <<< 1, by rw [clmul_shiftLeft_left, ← hq, Nat.shiftLeft_xor_distrib]⟩

/-- Congruent factors give congruent products. -/
theorem clmulBits_right (k a : Nat) (h : Congruent m x y) :
    Congruent m (clmulBits k a x) (clmulBits k a y) := by
  induction k generalizing a x y with
  | zero => exact refl m 0
  | succ k ih =>
    rw [clmulBits_succ_low, clmulBits_succ_low]
    refine xor ?_ (ih _ h.shiftLeft)
    split
    · exact h
    · exact refl m 0

theorem pmod_left (a m : Nat) : Congruent m (pmod a m) a := symm (pmod_congruent a m)

/-- R18: congruent polynomials have one remainder. -/
theorem pmod_eq (hm : 2 ≤ m) (h : Congruent m x y) : pmod x m = pmod y m := by
  have hx := lt_pow_deg (.inr (pmod_degree x hm))
  have hy := lt_pow_deg (.inr (pmod_degree y hm))
  exact remainder_unique (by omega) hx hy (h.symm.trans (pmod_congruent x m)) (pmod_congruent y m)

end Congruent

/-! ### The loop of GMUL (R275) -/

/-- R275: each turn keeps `acc + A * t` modulo `Irr`: a bit of `A` moves a copy of `t` into `acc`, and
the copy shifted and reduced is congruent to the copy shifted. -/
theorem gmulLoop_congruent (m bits a t acc : Nat) :
    Congruent m (gmulLoop m bits a t acc) (acc ^^^ clmulBits bits a t) := by
  induction bits generalizing a t acc with
  | zero => simpa [gmulLoop, clmulBits] using Congruent.refl m acc
  | succ bits ih =>
    have hcopy := (Congruent.pmod_left (t <<< 1) m).clmulBits_right bits (a / 2)
    have hacc : (if a % 2 = 1 then acc ^^^ t else acc) = acc ^^^ if a % 2 = 1 then t else 0 := by
      split
      · rfl
      · rw [Nat.xor_zero]
    rw [gmulLoop, clmulBits_succ_low, ← Nat.xor_assoc, ← hacc]
    exact (ih _ _ _).trans ((Congruent.refl m _).xor hcopy)

/-- R275: "The value written is `pmod(clmul(mag(A), mag(B)), m)`". -/
theorem gmulValue_eq {bits a m : Nat} (b : Nat) (hm : 2 ≤ m) (ha : a < 2 ^ bits) :
    gmulValue bits a b m = pmod (clmul a b) m := by
  have hloop := gmulLoop_congruent m bits a (pmod b m) 0
  rw [Nat.zero_xor] at hloop
  rw [gmulValue, clmul_eq_clmulBits b ha]
  exact (hloop.trans ((Congruent.pmod_left b m).clmulBits_right bits a)).pmod_eq hm

end Sys2Proof.Machine
end

section
/-! SUPPORT. The degree of a slot from its top word, and the GF(2^n) commands past and before their operand
checks (45_gf2n.md R270-R275; 60_exceptions.md R314). -/

namespace Sys2Proof.Machine

variable {s t : State} {d a b c : Idx} {v : Int} {k : BitVec 16}

/-! ### Degrees (R270) -/

/-- The highest bit of a number with digits `low` and `top` is that of `top`. -/
theorem log2_add_two_pow_mul {low top n : Nat} (hlow : low < 2 ^ n) (htop : top ≠ 0) :
    (low + 2 ^ n * top).log2 = n + top.log2 := by
  have hge : 2 ^ n * 2 ^ top.log2 ≤ 2 ^ n * top := Nat.mul_le_mul_left _ (Nat.log2_self_le htop)
  have hlt : 2 ^ n * (top + 1) ≤ 2 ^ n * 2 ^ (top.log2 + 1) :=
    Nat.mul_le_mul_left _ Nat.lt_log2_self
  rw [← Nat.pow_add] at hge hlt
  have hpos : 0 < 2 ^ (n + top.log2) := Nat.two_pow_pos _
  rw [Nat.mul_succ] at hlt
  rw [Nat.log2_eq_iff (by omega)]
  exact ⟨by omega, by rw [Nat.add_assoc]; omega⟩

/-- R270: "`(length-1)*wordBits + index-of-MSB(top word)`" is the degree of a well-formed polynomial. -/
theorem Slot.degree_eq {cap : Nat} {sl : Slot} (hwf : sl.wfg cap = true) : sl.degree = deg sl.mag := by
  obtain ⟨-, htop⟩ := (Slot.wfg_iff cap sl).1 hwf
  unfold Slot.degree
  split
  · next h0 => rw [Slot.mag_of_len_zero (sl.len_toNat_eq_zero.1 h0), deg, Nat.log2_zero]
  · next h0 =>
    have hlen := sl.len_toNat_eq_zero.not.1 h0
    have hlow := natOfWords_lt (sl.dig.take (sl.len.toNat - 1))
    have hle := Slot.len_le_length htop
    rw [List.length_take_of_le (by omega)] at hlow
    have hne : (sl.digit (sl.len.toNat - 1)).toNat ≠ 0 :=
      fun e => htop hlen (BitVec.eq_of_toNat_eq e)
    rw [deg, Slot.mag_eq_top hlen hle, log2_add_two_pow_mul hlow hne, Nat.mul_comm]

/-- R35, R270: the degree of a slot's polynomial fits in `RESULT`. -/
theorem Slot.deg_mag_lt (sl : Slot) : deg sl.mag < 2 ^ 32 := by
  by_cases h0 : sl.mag = 0
  · simp [h0, deg]
  · have hdeg : deg sl.mag < 32 * sl.len.toNat := (Nat.log2_lt h0).2 sl.mag_lt
    omega

/-! ### Operand checks (R314) -/

/-- R314: one malformed operand of two ends the command, whatever comes after the checks. -/
theorem twoOperandChecks_raise {x y : Bool} (r : Result) (h : x = false ∨ y = false) :
    (if !x then raise .malformed s else if !y then raise .malformed s else r)
      = raise .malformed s := by
  obtain h | h := h
  · simp [h]
  · simp [h]

/-- R314: two well-formed operands pass the checks. -/
theorem twoOperandChecks_pass {x y : Bool} (r : Result) (hx : x = true) (hy : y = true) :
    (if !x then raise .malformed s else if !y then raise .malformed s else r) = r := by
  simp [hx, hy]

/-! ### The commands (R270-R275) -/

/-- R15: a written slot has the word count of its value. -/
theorem State.WroteSlot.len_dest (h : s.WroteSlot t d v) :
    (t.slot d).len.toNat = nwords v.natAbs := by
  rw [← h.mag_dest]
  exact (Slot.nwords_mag (Slot.wfg_of_wf h.wf_dest)).symm

/-- R273: "the result has at most `max(len(A), len(B))` words". -/
theorem nwords_xor_mag_le (p q : Slot) :
    nwords (p.mag ^^^ q.mag) ≤ max p.len.toNat q.len.toNat := by
  have hlt : ∀ {sl : Slot}, sl.len.toNat ≤ max p.len.toNat q.len.toNat →
      sl.mag < 2 ^ (32 * max p.len.toNat q.len.toNat) := fun {sl} hle =>
    sl.mag_lt.trans_le (Nat.pow_le_pow_right two_pos (Nat.mul_le_mul_left 32 hle))
  exact (nwords_le_iff _ _).2 (Nat.xor_lt_two_pow (hlt (le_max_left _ _)) (hlt (le_max_right _ _)))

theorem exec_gdeg_wroteResult (ha : s.wfg a = true) :
    ∃ t, exec (.gdeg a) s = .next t ∧ s.WroteResult t (BitVec.ofNat 32 (deg (s.slot a).mag)) := by
  rw [← Slot.degree_eq ha]
  exact ⟨_, if_neg (by simp [ha]), setResult_wroteResult s _⟩

theorem exec_glsh_wfg (ha : s.wfg a = true) :
    exec (.glsh d a k) s = storePoly d ((s.slot a).mag * 2 ^ k.toNat) s :=
  if_neg (by simp [ha])

/-- A remainder by a well-formed `Irr` fits in a slot. -/
theorem pmod_mag_lt (p : Nat) (hc : s.wfg c = true) (hm : 2 ≤ (s.slot c).mag) :
    pmod p (s.slot c).mag < 2 ^ (32 * s.params.cap) := (pmod_lt p hm).trans (mag_lt_of_wfg hc)

theorem exec_gred_modulus (ha : s.wfg a = true) (hc : s.wfg c = true) (hm : (s.slot c).mag < 2) :
    exec (.gred d a c) s = raise .modulus s :=
  (twoOperandChecks_pass _ ha hc).trans (if_pos hm)

theorem exec_gred_wroteSlot (hp : s.params.wf = true) (ha : s.wfg a = true) (hc : s.wfg c = true)
    (hm : 2 ≤ (s.slot c).mag) : ∃ t, exec (.gred d a c) s = .next t
      ∧ s.WroteSlot t d (pmod (s.slot a).mag (s.slot c).mag : Nat) :=
  ⟨_, (twoOperandChecks_pass _ ha hc).trans (if_neg hm.not_gt),
    writePoly_wroteSlot hp d (pmod_mag_lt _ hc hm)⟩

section
variable (ha : s.wfg a = true) (hb : s.wfg b = true) (hc : s.wfg c = true)
include ha hb hc

theorem exec_gmul_modulus (hm : (s.slot c).mag < 2) :
    exec (.gmul d a b c) s = raise .modulus s :=
  (threeOperandChecks_pass _ ha hb hc).trans (if_pos hm)

theorem exec_gmul_wroteSlot (hp : s.params.wf = true) (hm : 2 ≤ (s.slot c).mag) :
    ∃ t, exec (.gmul d a b c) s = .next t
      ∧ s.WroteSlot t d (pmod (clmul (s.slot a).mag (s.slot b).mag) (s.slot c).mag : Nat) := by
  rw [← gmulValue_eq _ hm (s.slot a).mag_lt]
  exact ⟨_, (threeOperandChecks_pass _ ha hb hc).trans (if_neg hm.not_gt),
    writePoly_wroteSlot hp d (pmod_mag_lt _ hc hm)⟩

end

end Sys2Proof.Machine
end

section
/-! SUPPORT. A GF(2^n) command has one effect on states whose slots differ in their signs (45_gf2n.md R285). -/

namespace Sys2Proof.Machine

/-- One effect records the same code and leaves the same destinations in both states. -/
theorem SameEffect.sameDestinations {i : Instr} {s s' : State} {r r' : Result}
    (h : SameEffect i s s' r r') : ∃ t t', r = .next t ∧ r' = .next t' ∧ t'.err = t.err
      ∧ (i.writesResult = true → t.err = .ok → t'.result = t.result)
      ∧ (∀ d, i.destSlot = some d → t.err = .ok → t'.slot d = t.slot d) := by
  obtain ⟨e, he, hs, hs'⟩ := h
  refine ⟨e.run s, e.run s', hs, hs', rfl, fun hw hok => ?_, fun d hd hok => ?_⟩
  · obtain ⟨v, hv⟩ := he.writes_result hok hw
    rw [Effect.run_result, Effect.run_result, hv, Option.getD_some, Option.getD_some]
  · obtain ⟨sl, hsl⟩ := he.writes_slot hok hd
    rw [Effect.slot_run_of_writes s hsl, Effect.slot_run_of_writes s' hsl]

/-- R285: two slots that hold the same polynomial, whatever their signs. -/
structure Slot.SamePolynomial (sl sl' : Slot) : Prop where
  len : sl'.len = sl.len
  dig : sl'.dig = sl.dig

namespace Slot.SamePolynomial

variable {sl sl' : Slot} (h : sl.SamePolynomial sl')
include h

/-- With the other's sign the slot is the same operand. -/
theorem sameOperand : sl.SameOperand { sl' with sign := sl.sign } :=
  ⟨h.len, rfl, congrArg (List.take sl.len.toNat) h.dig⟩

theorem mag : sl'.mag = sl.mag := h.sameOperand.mag

theorem wfg (cap : Nat) : sl'.wfg cap = sl.wfg cap := h.sameOperand.wfg cap

theorem degree : sl'.degree = sl.degree := h.sameOperand.degree

end Slot.SamePolynomial

/-- R285: a GF(2^n) command "never reads the sign field", so its effect is the same. -/
theorem exec_gf_sameEffect {i : Instr} {s s' : State} (hgf : i.isGf = true)
    (hp : s'.params = s.params) (h : ∀ j, (s.slot j).SamePolynomial (s'.slot j)) :
    SameEffect i s s' (exec i s) (exec i s') := by
  have hwfg : ∀ j, s'.wfg j = s.wfg j := fun j => by rw [State.wfg, State.wfg, hp, (h j).wfg]
  have hmag : ∀ j, (s'.slot j).mag = (s.slot j).mag := fun j => (h j).mag
  cases i with
  | gdeg a =>
    simp only [exec, execGdeg, hwfg, (h a).degree]
    exact .operandCheck <| .setResult _
  | grsh d a shamt =>
    simp only [exec, execGrsh, hwfg, hmag]
    exact .operandCheck <| .writePoly _ hp
  | glsh d a shamt =>
    simp only [exec, execGlsh, hwfg, hmag]
    exact .operandCheck <| .storePoly _ hp
  | gadd d a b =>
    simp only [exec, execGadd, hwfg, hmag]
    exact .operandCheck <| .operandCheck <| .writePoly _ hp
  | gred d a c =>
    simp only [exec, execGred, hwfg, hmag]
    exact .operandCheck <| .operandCheck <| .check fun _ => .writePoly _ hp
  | gmul d a b c =>
    simp only [exec, execGmul, hwfg, hmag, (h a).len]
    exact .operandCheck <| .operandCheck <| .operandCheck <| .check fun _ => .writePoly _ hp
  | _ => cases hgf

end Sys2Proof.Machine
end

section
/-! CLAIMS. The statements of 45_gf2n.md. -/

namespace Sys2Proof.Machine

/-- Settles O58: past its checks GMUL leaves a value congruent to the carry-less product, reduced. -/
theorem polynomialProductIsReduced : Obligations.PolynomialProductIsReduced := by
  refine ⟨fun d a b c => decode_encode (.gmul d a b c), fun d a b c s => ⟨fun hbad => ?_,
    fun ha hb hc hm => ?_, fun hp ha hb hc hm => exec_gmul_wroteSlot ha hb hc hp hm⟩⟩
  · exact fails_of_exec_eq_raise (threeOperandChecks_raise _ hbad)
  · exact fails_of_exec_eq_raise (exec_gmul_modulus ha hb hc hm)

/-- Settles O57: past its checks GRED writes `pmod`, whose degree and congruence are those of R274's loop. -/
theorem polynomialReduction : Obligations.PolynomialReduction := by
  refine ⟨fun d a c => decode_encode (.gred d a c), fun d a c s => ⟨fun hbad => ?_,
    fun ha hc hm => ?_, fun hp ha hc hm => ?_⟩⟩
  · exact fails_of_exec_eq_raise (twoOperandChecks_raise _ hbad)
  · exact fails_of_exec_eq_raise (exec_gred_modulus ha hc hm)
  · obtain ⟨t, ht, hwrote⟩ := exec_gred_wroteSlot (d := d) hp ha hc hm
    exact ⟨t, _, ht, hwrote, pmod_degree _ hm, pmod_congruent _ _⟩

/-- Settles O55: the exclusive or is bitwise, and has no more words than the longer operand. -/
theorem polynomialSum : Obligations.PolynomialSum := by
  refine ⟨fun d a b => decode_encode (.gadd d a b), fun d a b s => ⟨fun hbad => ?_,
    fun hp ha hb => ?_⟩⟩
  · exact fails_of_exec_eq_raise (twoOperandChecks_raise _ hbad)
  · obtain ⟨t, ht, hwrote⟩ := exec_gadd_wroteSlot (d := d) hp ha hb
    refine ⟨t, _, ht, hwrote, fun i => Nat.testBit_xor _ _ i, ?_⟩
    rw [hwrote.len_dest, Int.natAbs_natCast]
    exact nwords_xor_mag_le _ _

/-- Settles O54: GRSH's quotient is no longer than its operand; GLSH's product is stored exactly or does
not fit. -/
theorem polynomialShifts : Obligations.PolynomialShifts := by
  refine ⟨fun d a k => ⟨decode_encode (.grsh d a k), decode_encode (.glsh d a k)⟩,
    fun d a k s => ⟨fun ha => ?_, fun hp ha => exec_grsh_wroteSlot hp ha k, fun ha hbig => ?_,
      fun hp ha hfits => ?_⟩⟩
  · exact ⟨fails_of_exec_eq_raise (if_pos (by simp [ha])),
      fails_of_exec_eq_raise (if_pos (by simp [ha]))⟩
  · exact fails_of_exec_eq_raise ((exec_glsh_wfg ha).trans (storePoly_capacity hbig))
  · exact ⟨_, (exec_glsh_wfg ha).trans (storePoly_fits hfits), writePoly_wroteSlot hp d hfits⟩

/-- Settles O53: the top word of a well-formed slot gives the degree of its polynomial, which a 16-bit `len`
bounds below `2 ^ 32`. -/
theorem polynomialDegree : Obligations.PolynomialDegree := by
  refine ⟨fun a => decode_encode (.gdeg a), fun a s => ⟨fun ha => ?_, fun ha => ?_⟩⟩
  · exact fails_of_exec_eq_raise (if_pos (by simp [ha]))
  · obtain ⟨t, ht, hwrote⟩ := exec_gdeg_wroteResult ha
    have hr : (BitVec.ofNat 32 (deg (s.slot a).mag)).toNat = deg (s.slot a).mag := by
      rw [BitVec.toNat_ofNat, Nat.mod_eq_of_lt (Slot.deg_mag_lt _)]
    refine ⟨t, _, ht, hwrote, hr, fun hne => ?_, fun hzero => ?_⟩
    · rw [hr]
      exact ⟨Nat.log2_self_le hne, Nat.lt_log2_self⟩
    · rw [hzero]
      rfl

/-- Settles O28: the two states give the command one and the same effect, so what it writes is equal. -/
theorem polynomialCommandsNeverReadTheSign : Obligations.PolynomialCommandsNeverReadTheSign := by
  intro i s s' hgf hp hslots
  have hsame : ∀ j, (s.slot j).SamePolynomial (s'.slot j) := fun j => by
    obtain ⟨hlen, hdig⟩ := hslots j
    exact ⟨hlen, hdig⟩
  exact (exec_gf_sameEffect hgf hp hsame).sameDestinations

end Sys2Proof.Machine
end

section
/-! SUPPORT. How a command's effect completes and what it leaves unchanged, and which steps cannot complete a
command (60_exceptions.md R310, R311, R315; 70_reset_and_hazards.md R351). -/

namespace Sys2Proof.Machine

/-! ### Completion (R310, R311, R315) -/

/-- R45, R316: a completion raises `DONE`, so it leaves `IRQ` at `IE`. -/
theorem State.CompletedWith.irq {s t : State} {c : ErrorCode} (h : s.CompletedWith t c) :
    t.irq = s.ie := by
  obtain ⟨⟨-, hie, -⟩, -, hdone, -⟩ := h
  rw [State.irq, hie, hdone, Bool.and_true]

/-- R310, R315: the command has completed, and with an error it has written nothing but `STATUS`. -/
def State.Completes (s t : State) : Prop :=
  s.CompletedWith t t.err ∧ t.irq = s.ie ∧ (t.err ≠ .ok → s.FailedWith t t.err)

theorem State.FailedWith.completes {s t : State} {c : ErrorCode} (h : s.FailedWith t c) :
    s.Completes t := by
  have ⟨hcompleted, _⟩ := h
  have ⟨_, _, _, herr⟩ := hcompleted
  subst herr
  exact ⟨hcompleted, hcompleted.irq, fun _ => h⟩

namespace Effect

variable {e : Effect} {i : Instr} {cap : Nat}

theorem run_completedWith (e : Effect) (s : State) : s.CompletedWith (e.run s) e.code :=
  ⟨⟨rfl, rfl, rfl, rfl, rfl, rfl, rfl⟩, rfl, rfl, rfl⟩

/-- R315: an effect with an error has no write. -/
theorem OfCommand.failedWith (h : e.OfCommand i cap) (herr : e.code ≠ .ok) (s : State) :
    s.FailedWith (e.run s) e.code := by
  obtain ⟨-, -, hregs, hresult, hslot⟩ | ⟨hok, -⟩ := h
  · refine ⟨run_completedWith e s, ?_, ?_, ?_⟩
    · rw [run_x, xAfter, hregs, List.foldl_nil]
    · rw [run_slots, slotsAfter, hslot, Option.elim_none]
    · rw [run_result, hresult, Option.getD_none]
  · exact absurd hok herr

theorem OfCommand.completes (h : e.OfCommand i cap) (s : State) : s.Completes (e.run s) :=
  ⟨run_completedWith e s, (run_completedWith e s).irq, fun herr => h.failedWith herr s⟩

/-! ### What an effect leaves (R311, R315) -/

theorem xAfter_getElem_of_not_mem (x : Vector Word 16) {k : Idx} (h : k ∉ e.regs.map Prod.fst) :
    (e.xAfter x)[k] = x[k] := by
  rw [xAfter]
  generalize e.regs = ws at h
  induction ws generalizing x with
  | nil => rfl
  | cons w ws ih =>
    obtain ⟨hne, hrest⟩ := not_or.1 (List.mem_cons.not.1 h)
    have hval : (w.1 : Nat) ≠ k := fun hv => hne (Fin.ext hv.symm)
    rw [List.foldl_cons, ih _ hrest]
    exact Vector.getElem_set_ne _ _ hval

theorem OfCommand.reg_run (h : e.OfCommand i cap) (s : State) {k : Idx} (hk : k ∉ i.destRegs) :
    (e.run s).reg k = s.reg k := by
  refine xAfter_getElem_of_not_mem s.x ?_
  obtain ⟨-, -, hregs, -⟩ | ⟨-, hdest, -⟩ := h
  · simp [hregs]
  · rwa [← hdest.regs]

theorem OfCommand.result_run (h : e.OfCommand i cap) (s : State) (hw : i.writesResult = false) :
    (e.run s).result = s.result := by
  have hnone : e.result = none := by
    obtain ⟨-, -, -, hresult, -⟩ | ⟨-, hdest, -⟩ := h
    · exact hresult
    · simpa using hdest.result.symm.trans hw
  rw [run_result, hnone, Option.getD_none]

end Effect

/-! ### Commands (R310, R311) -/

theorem exec_completes (i : Instr) (s : State) : ∃ t, exec i s = .next t ∧ s.Completes t := by
  obtain ⟨e, he, hs⟩ := exec_effect i s
  exact ⟨e.run s, hs, he.completes s⟩

/-- R106, R310: the turn of a busy block completes, its word legal or not. -/
theorem sequencerTurn_completes {s : State} (hb : s.busy = true) :
    ∃ t, sequencerTurn s = .next t ∧ s.Completes t := by
  cases hd : decode s.lastCmd with
  | ok i =>
    rw [sequencerTurn_decoded hb hd]
    exact exec_completes i s
  | error e => exact ⟨_, sequencerTurn_illegal hb hd, (complete_failedWith s .illegal).completes⟩

section

variable {i : Instr} {s t : State} (h : exec i s = .next t)
include h

theorem exec_sameSurroundings : s.SameSurroundings t := by
  obtain ⟨e, -, rfl⟩ := exec_next h
  exact (e.run_completedWith s).1

theorem exec_reg_of_not_dest {k : Idx} (hk : k ∉ i.destRegs) : t.reg k = s.reg k := by
  obtain ⟨e, he, rfl⟩ := exec_next h
  exact he.reg_run s hk

theorem exec_result_of_not_written (hw : i.writesResult = false) : t.result = s.result := by
  obtain ⟨e, he, rfl⟩ := exec_next h
  exact he.result_run s hw

/-- R32, R44, R311: a register of the window that the command may not change reads as before. -/
theorem exec_regValue_of_not_mayChange {r : Reg} (hr : i.mayChange r = false) :
    t.regValue r = s.regValue r := by
  obtain ⟨hparams, hie, -, hcmd, -⟩ := exec_sameSurroundings h
  cases r with
  | id | cmd | reserved => rfl
  | config => rw [State.regValue, State.regValue, State.configWord, State.configWord, hparams]
  | ctrl => rw [State.regValue, State.regValue, State.ctrlWord, State.ctrlWord, hie]
  | status => cases hr
  | lastCmd => exact hcmd
  | result => exact exec_result_of_not_written h hr
  | x k => exact exec_reg_of_not_dest h (by simpa [Instr.mayChange] using hr)
  | len j | sign j | dig j _ =>
    have hslot := exec_slot_of_not_dest (j := j) h (by simpa [Instr.mayChange] using hr)
    rw [State.regValue, State.regValue, hslot]

/-- R77: so does each byte of it. -/
theorem exec_windowByte_of_not_mayChange {off : Nat}
    (hr : i.mayChange (regAt s.params.cap (off - off % 4)) = false) :
    t.windowByte off = s.windowByte off := by
  obtain ⟨hparams, -⟩ := exec_sameSurroundings h
  rw [State.windowByte, State.windowByte, hparams, exec_regValue_of_not_mayChange h hr]

end

/-! ### Steps that complete no command (R41, R42, R356) -/

/-- From `s` to `t` no command completes: `BUSY` does not fall and `DONE` does not rise. -/
def State.CompletesNothing (s t : State) : Prop :=
  (s.busy = true → t.busy = true) ∧ (t.done = true → s.done = true)

theorem State.CompletesNothing.of_eq {s t : State} (hb : t.busy = s.busy) (hd : t.done = s.done) :
    s.CompletesNothing t := ⟨hb.trans, hd.symm.trans⟩

theorem sequencerTurn_completesNothing_or {s t : State} (h : sequencerTurn s = .next t) :
    s.CompletesNothing t ∨ s.busy = true := by
  cases hb : s.busy with
  | false =>
    obtain rfl := Host.Outcome.next.inj ((sequencerTurn_idle hb).symm.trans h)
    exact .inl (.of_eq rfl rfl)
  | true => exact .inr rfl

/-- A write of any register but a reset by `CTRL` completes no command: a `STATUS` write only clears `DONE`
(R41), and an accepted `CMD` write only raises `BUSY` and clears `DONE` (R42). -/
theorem hostWrite_completesNothing {r : Reg} {v : Word} (s : State)
    (hr : r = .ctrl → v.getLsbD 1 = false) : s.CompletesNothing (hostWrite r v s) := by
  cases r with
  | id | config | lastCmd | result | reserved => exact .of_eq rfl rfl
  | ctrl =>
    rw [hostWrite, writeCtrl_enable (hr rfl)]
    exact .of_eq rfl rfl
  | status => exact ⟨id, fun hdone => (Bool.and_eq_true_iff.1 hdone).1⟩
  | cmd =>
    rw [hostWrite, State.writeCmd]
    split
    · exact .of_eq rfl rfl
    · exact ⟨fun _ => rfl, nofun⟩
  | x _ | len _ | sign _ | dig _ _ =>
    rw [hostWrite, State.writeOperand]
    split <;> exact .of_eq rfl rfl

theorem hostAccess_completesNothing {s t : State} {a : Access} (h : hostAccess a s = .next t)
    (hreset : ¬ s.IsReset (.host a)) : s.CompletesNothing t := by
  obtain ⟨off, hoff, hwidth, hal, rfl⟩ := hostAccess_next h
  obtain ⟨haddr, -⟩ := addr_of_offsetOf hoff
  cases a with
  | read addr width =>
    obtain ⟨-, -, -, -, hb, hd, -⟩ := hostRead_frame (regAt s.params.cap off) s
    exact .of_eq hb hd
  | write addr width v =>
    refine hostWrite_completesNothing s fun hctrl => ?_
    obtain rfl := eq_ctrl_offset hal hctrl
    obtain rfl : addr = s.params.base + 0x00008 := haddr
    obtain rfl : width = .w32 := hwidth
    by_contra hv
    exact hreset (.inr ⟨v, by simpa using hv, rfl⟩)

/-- R311: every step completes nothing, or is the turn of a busy block, or is a reset. -/
theorem step_completesNothing_or {s t : State} (h : step s = .next t) :
    s.CompletesNothing t
      ∨ (s.busy = true ∧ (s.events = [] ∨ ∃ rest, s.events = .sequencer :: rest))
      ∨ ∃ e rest, s.events = e :: rest ∧ s.IsReset e := by
  cases hev : s.events with
  | nil =>
    obtain hnone | hb := sequencerTurn_completesNothing_or (step_nil hev ▸ h)
    · exact .inl hnone
    · exact .inr (.inl ⟨hb, .inl rfl⟩)
  | cons e rest =>
    have hstep : handleEvent e { s with events := rest } = .next t := step_cons hev ▸ h
    by_cases hreset : s.IsReset e
    · exact .inr (.inr ⟨e, rest, rfl, hreset⟩)
    · cases e with
      | host a => exact .inl (hostAccess_completesNothing (s := { s with events := rest }) hstep hreset)
      | sequencer =>
        obtain hnone | hb := sequencerTurn_completesNothing_or hstep
        · exact .inl hnone
        · exact .inr (.inl ⟨hb, .inr ⟨rest, rfl⟩⟩)
      | powerOn => exact absurd (.inl rfl) hreset

end Sys2Proof.Machine
end

section
/-! CLAIMS. The statements of 60_exceptions.md. -/

namespace Sys2Proof.Machine

/-- Settles O21: a command's outcome is one of its effects, and a turn runs a command or raises ILLEGAL. -/
theorem everyCommandCompletes : Obligations.EveryCommandCompletes := by
  refine ⟨exec_completes, fun s rest hb hnext => ?_⟩
  rw [step_turnNext hnext]
  exact sequencerTurn_completes (s := { s with events := rest }) hb

/-- Settles O22: the numbers are those of `ErrorCode.bits`, and the code of an effect is in its command's
row. -/
theorem codesOfEachCommand : Obligations.CodesOfEachCommand := by
  refine ⟨⟨rfl, rfl, rfl, rfl, rfl, rfl, rfl, rfl, rfl⟩, fun i s t ht => ?_⟩
  obtain ⟨e, he, rfl⟩ := exec_next ht
  exact he.code_mem

/-- Settles O23: a step that sets DONE or clears BUSY is no step that completes nothing, and
`step_completesNothing_or` names the others. -/
theorem onlyCompletionSetsDone : Obligations.OnlyCompletionSetsDone := by
  intro s t hstep hflags
  have hcompletes : ¬ s.CompletesNothing t := by
    rintro ⟨hbusy, hdone⟩
    obtain ⟨hlow, hhigh⟩ | ⟨hhigh, hlow⟩ := hflags
    · exact absurd (hlow.symm.trans (hdone hhigh)) (by decide)
    · exact absurd (hlow.symm.trans (hbusy hhigh)) (by decide)
  exact (step_completesNothing_or hstep).resolve_left hcompletes

/-- Settles O26: an effect writes the command's destinations alone, and a byte of the window is a lane of a
register's value. -/
theorem commandsChangeOnlyTheirDestinations : Obligations.CommandsChangeOnlyTheirDestinations :=
  fun _ _ _ ht =>
    ⟨exec_sameSurroundings ht, fun _ => exec_windowByte_of_not_mayChange ht,
      fun _ => exec_reg_of_not_dest ht, fun _ => exec_slot_of_not_dest ht,
      exec_result_of_not_written ht⟩

end Sys2Proof.Machine
end

section
/-! SUPPORT. Everything a step can do, what every step leaves of the parameters, of the events to come and of
`OVR`, and a run of the block (10_state.md R30; 20_memory.md R71, R72, R79; 70_reset_and_hazards.md
R356-R361). -/

namespace Sys2Proof.Machine

/-! ### Reads and writes by the kind of register (R356, R357) -/

/-- R357: the registers whose value a busy block hides. -/
theorem Reg.hiddenWhileBusy_iff (r : Reg) :
    r.hiddenWhileBusy = true ↔ r.isOperand = true ∨ r = .result := by
  simp [Reg.hiddenWhileBusy]

/-- R357: a read of a hidden register draws a value and changes nothing of the block. -/
theorem hostRead_hidden {s : State} {r : Reg} (hb : s.busy = true) (hr : r.hiddenWhileBusy = true) :
    hostRead r s = { s with readData := Config.busyReadValue s.draws, draws := s.draws + 1 } :=
  if_pos (Bool.and_eq_true_iff.2 ⟨hb, hr⟩)

/-- R356: a busy block drops a write of an operand register or of `CMD`, and sets `OVR`. -/
theorem hostWrite_dropped {s : State} {r : Reg} (v : Word) (hb : s.busy = true)
    (hr : r.isOperand = true ∨ r = .cmd) : hostWrite r v s = s.overrun := by
  obtain hop | rfl := hr
  · cases r with
    | id | config | ctrl | status | cmd | lastCmd | result | reserved => cases hop
    | x _ | len _ | sign _ | dig _ _ => exact writeOperand_busy hb
  · exact writeCmd_busy hb

theorem hostWrite_params_events (r : Reg) (v : Word) (s : State) :
    (hostWrite r v s).params = s.params ∧ (hostWrite r v s).events = s.events := by
  cases r with
  | id | config | lastCmd | result | reserved | status => exact ⟨rfl, rfl⟩
  | ctrl =>
    rw [hostWrite, State.writeCtrl]
    split <;> exact ⟨rfl, rfl⟩
  | cmd =>
    rw [hostWrite, State.writeCmd]
    split <;> exact ⟨rfl, rfl⟩
  | x _ | len _ | sign _ | dig _ _ =>
    rw [hostWrite, State.writeOperand]
    split <;> exact ⟨rfl, rfl⟩

/-- R359: of all writes only a reset by `CTRL` and a `STATUS` write with bit 2 set can clear `OVR`. -/
theorem hostWrite_keeps_ovr {r : Reg} {v : Word} {s : State} (ho : s.ovr = true)
    (hctrl : r = .ctrl → v.getLsbD 1 = false) (hstatus : r = .status → v.getLsbD 2 = false) :
    (hostWrite r v s).ovr = true := by
  cases r with
  | id | config | lastCmd | result | reserved => exact ho
  | ctrl =>
    rw [hostWrite, writeCtrl_enable (hctrl rfl)]
    exact ho
  | status =>
    rw [hostWrite, State.writeStatus, ho, hstatus rfl]
    rfl
  | cmd =>
    rw [hostWrite, State.writeCmd]
    split
    · rfl
    · exact ho
  | x _ | len _ | sign _ | dig _ _ =>
    rw [hostWrite, State.writeOperand]
    split
    · rfl
    · exact ho

/-- R72: the map finds a register with an offset there, in the window and aligned. -/
theorem regAt_of_offset {s : State} {r : Reg} {off : Nat} (hp : s.params.wf = true)
    (hdig : ∀ j i, r = .dig j i → i < s.params.cap) (hoff : r.offset s.params.cap = some off) :
    regAt s.params.cap off = r ∧ off % 4 = 0 ∧ off < 2 ^ 20 := by
  have hvalid : r.valid s.params.cap := by
    cases r with
    | dig j i => exact hdig j i rfl
    | _ => trivial
  obtain ⟨-, hcap⟩ := (params_wf_iff _).1 hp
  exact ⟨regAt_offset hvalid hoff, offset_aligned_in_window hcap hvalid hoff⟩

/-- R72: `STATUS` stands at one offset. -/
theorem eq_status_offset {cap off : Nat} (hal : off % 4 = 0) (h : regAt cap off = .status) :
    off = 0x0000C := by
  have hoff := (offset_regAt hal (h.trans_ne (by decide))).2
  rw [h, Reg.offset, Option.some.injEq] at hoff
  exact hoff.symm

/-! ### A step by its event (R30, R71, R350) -/

/-- R311: the sequencer's turn, idle or busy, leaves what no command may change. -/
theorem sequencerTurn_sameSurroundings {s t : State} (h : sequencerTurn s = .next t) :
    s.SameSurroundings t := by
  cases hb : s.busy with
  | false =>
    obtain rfl := Host.Outcome.next.inj ((sequencerTurn_idle hb).symm.trans h)
    exact ⟨rfl, rfl, rfl, rfl, rfl, rfl, rfl⟩
  | true =>
    obtain ⟨u, hu, ⟨hsame, -⟩, -⟩ := sequencerTurn_completes hb
    obtain rfl := Host.Outcome.next.inj (hu.symm.trans h)
    exact hsame

/-- Everything a step can do: the sequencer's turn, a read or a write of the register at an aligned offset of
the window, or the reset input. -/
theorem step_cases {s t : State} (h : step s = .next t) :
    (∃ rest, s.TurnNext rest ∧ sequencerTurn { s with events := rest } = .next t)
      ∨ (∃ off rest, s.events = s.readAt off :: rest
          ∧ t = hostRead (regAt s.params.cap off) { s with events := rest })
      ∨ (∃ off v rest, off % 4 = 0 ∧ s.events = s.writeAt off v :: rest
          ∧ t = hostWrite (regAt s.params.cap off) v { s with events := rest })
      ∨ ∃ rest, s.events = .powerOn :: rest
          ∧ t = ({ s with events := rest } : State).applyReset := by
  cases hev : s.events with
  | nil =>
    have hturn : s.TurnNext [] := .inr ⟨hev, rfl⟩
    exact .inl ⟨[], hturn, step_turnNext hturn ▸ h⟩
  | cons e rest =>
    rw [step_cons hev] at h
    cases e with
    | sequencer => exact .inl ⟨rest, .inl hev, h⟩
    | powerOn => exact .inr (.inr (.inr ⟨rest, rfl, (Host.Outcome.next.inj h).symm⟩))
    | host a =>
      obtain ⟨off, hoff, hwidth, hal, rfl⟩ := hostAccess_next h
      obtain ⟨haddr, -⟩ := addr_of_offsetOf hoff
      cases a with
      | read addr width =>
        obtain rfl : addr = s.params.base + off := haddr
        obtain rfl : width = .w32 := hwidth
        exact .inr (.inl ⟨off, rest, rfl, rfl⟩)
      | write addr width v =>
        obtain rfl : addr = s.params.base + off := haddr
        obtain rfl : width = .w32 := hwidth
        exact .inr (.inr (.inl ⟨off, v, rest, hal, rfl, rfl⟩))

/-- R10, R81: every step keeps the parameters and takes the next event, if there is one. -/
theorem step_params_events {s t : State} (h : step s = .next t) :
    t.params = s.params ∧ t.events = s.events.tail := by
  obtain ⟨rest, hturn, ht⟩ | ⟨off, rest, hev, rfl⟩ | ⟨off, v, rest, -, hev, rfl⟩ | ⟨rest, hev, rfl⟩ :=
    step_cases h
  · obtain ⟨hp, -, -, -, -, -, he⟩ := sequencerTurn_sameSurroundings ht
    obtain hev | ⟨hev, rfl⟩ := hturn <;> exact ⟨hp, by rw [he, hev]; rfl⟩
  · obtain ⟨hp, -, -, -, -, -, -, -, -, -, he⟩ :=
      hostRead_frame (regAt s.params.cap off) { s with events := rest }
    exact ⟨hp, by rw [he, hev, List.tail_cons]⟩
  · obtain ⟨hp, he⟩ := hostWrite_params_events (regAt s.params.cap off) v { s with events := rest }
    exact ⟨hp, by rw [he, hev, List.tail_cons]⟩
  · exact ⟨rfl, by rw [hev, List.tail_cons, State.applyReset_events]⟩

/-! ### Runs (R310, R361) -/

theorem exists_sequencerTurn (s : State) : ∃ t, sequencerTurn s = .next t := by
  cases hb : s.busy with
  | false => exact ⟨s, sequencerTurn_idle hb⟩
  | true =>
    obtain ⟨t, ht, -⟩ := sequencerTurn_completes hb
    exact ⟨t, ht⟩

/-- R310, R320: only a refused access has no next state. -/
theorem exists_step_of_accepts {s : State} {e : Event} {rest : List Event}
    (hev : s.events = e :: rest) (he : s.Accepts e) : ∃ t, step s = .next t := by
  rw [step_cons hev]
  cases e with
  | host a =>
    obtain ⟨hwidth, off, hoff, hal, haddr⟩ := he
    exact ⟨_, hostAccess_accepted (s := { s with events := rest }) haddr hoff hwidth hal⟩
  | sequencer => exact exists_sequencerTurn _
  | powerOn => exact ⟨_, rfl⟩

/-- R70, R71: which events are accepted depends on `BASE` alone. -/
theorem State.Accepts.congr {s t : State} {e : Event} (h : s.Accepts e) (hp : t.params = s.params) :
    t.Accepts e := by
  cases e with
  | host a => rwa [State.Accepts, hp]
  | sequencer | powerOn => trivial

theorem run_succ {s t : State} (h : step s = .next t) (k : Nat) :
    Sys2Proof.core.run (k + 1) s = Sys2Proof.core.run k t := by
  have hcore : Sys2Proof.core.step s = .next t := h
  simp only [Host.Core.run, hcore]

/-- R361: the events to come run out, and with none left the sequencer has its turn. -/
theorem exists_run_idle (events : List Event) {s : State} (hev : s.events = events)
    (hb : s.busy = true) (hacc : ∀ e ∈ events, s.Accepts e) :
    ∃ (k : Nat) (t : State), k ≤ events.length + 1 ∧ Sys2Proof.core.run k s = .next t
      ∧ t.busy = false := by
  induction events generalizing s with
  | nil =>
    obtain ⟨t, ht, ⟨-, hidle, -⟩, -⟩ := sequencerTurn_completes hb
    exact ⟨1, t, le_rfl, run_succ ((step_nil hev).trans ht) 0, hidle⟩
  | cons e rest ih =>
    obtain ⟨t, ht⟩ := exists_step_of_accepts hev (hacc e List.mem_cons_self)
    obtain ⟨hp, htail⟩ := step_params_events ht
    cases hbt : t.busy with
    | false => exact ⟨1, t, Nat.le_add_left 1 _, run_succ ht 0, hbt⟩
    | true =>
      have hrest : t.events = rest := by rw [htail, hev, List.tail_cons]
      obtain ⟨k, u, hk, hrun, hidle⟩ :=
        ih hrest hbt fun e he => (hacc e (List.mem_cons_of_mem _ he)).congr hp
      exact ⟨k + 1, u, Nat.succ_le_succ hk, (run_succ ht k).trans hrun, hidle⟩

end Sys2Proof.Machine
end

section
/-! CLAIMS. The statements of 70_reset_and_hazards.md. -/

namespace Sys2Proof.Machine

/-- Settles O6: the reset input is one step to the reset values, and an idle block with no event left stays
where it is. -/
theorem powerOnResetGivesTheResetValues : Obligations.PowerOnResetGivesTheResetValues := by
  intro s rest hev
  refine ⟨_, step_reset (.inl rfl) hev, applyReset_atResetValues _, rfl, rfl, rfl, rfl, fun hnone => ?_⟩
  rw [step_nil hnone, sequencerTurn_idle rfl]

/-- Settles O14: the map finds the register, and `BUSY` and its kind say whether the read hides its value. -/
theorem readsWhileBusyAreUnspecified : Obligations.ReadsWhileBusyAreUnspecified := by
  intro s r off rest hp hdig hoffset hev
  obtain ⟨hreg, hal, hoff⟩ := regAt_of_offset hp hdig hoffset
  refine ⟨fun hb hr => ?_, fun hvis => ?_⟩
  · have hread := hostRead_hidden (s := { s with events := rest }) hb ((Reg.hiddenWhileBusy_iff r).2 hr)
    exact ⟨_, _, by rw [step_readAt hoff hal hev, hreg, hread]⟩
  · refine step_read_visible hoff hal hreg (hvis.imp_right fun ⟨hop, hresult⟩ => ?_) hev
    rw [← Bool.not_eq_true, Reg.hiddenWhileBusy_iff]
    simp [hop, hresult]

/-- Settles O17: the operand registers and `CMD` are dropped by `hostWrite_dropped`; the other writes do what
they do at any time. -/
theorem writesWhileBusy : Obligations.WritesWhileBusy := by
  intro s v rest off hp hb hoff hal hev
  obtain ⟨hreset, henable, -⟩ := controlRegisterStoresEnableOrResets s rest
  refine ⟨fun r hoffset hdig hr => ?_, ?_, ?_, ?_, fun hro => ?_⟩
  · obtain ⟨hreg, -⟩ := regAt_of_offset hp hdig hoffset
    rw [step_writeAt hoff hal hev, hreg]
    exact congrArg _ (hostWrite_dropped (s := { s with events := rest }) v hb hr)
  · rintro rfl hv
    exact henable v hev hv
  · rintro rfl hv
    exact hreset v hev hv
  · rintro rfl
    exact (statusReadsAndClears s rest).2 v hev
  · exact (readOnlyAndReservedOffsets s rest hp).1 off v hoff hal hro hev

/-- Settles O19: by the kind of step; only a write of `CTRL` or `STATUS` or the reset input can clear `OVR`. -/
theorem overrunIsSticky : Obligations.OverrunIsSticky := by
  intro s t ho hstep
  obtain ⟨rest, -, ht⟩ | ⟨off, rest, -, rfl⟩ | ⟨off, v, rest, hal, hev, rfl⟩ | ⟨rest, hev, -⟩ :=
    step_cases hstep
  · obtain ⟨-, -, hovr, -⟩ := sequencerTurn_sameSurroundings ht
    exact .inl (hovr.trans ho)
  · obtain ⟨-, -, -, -, -, -, hovr, -⟩ :=
      hostRead_frame (regAt s.params.cap off) { s with events := rest }
    exact .inl (hovr.trans ho)
  · by_cases hctrl : regAt s.params.cap off = .ctrl ∧ v.getLsbD 1 = true
    · obtain rfl := eq_ctrl_offset hal hctrl.1
      exact .inr ⟨_, rest, hev, .inl (.inr ⟨v, hctrl.2, rfl⟩)⟩
    by_cases hstatus : regAt s.params.cap off = .status ∧ v.getLsbD 2 = true
    · obtain rfl := eq_status_offset hal hstatus.1
      exact .inr ⟨_, rest, hev, .inr ⟨v, hstatus.2, rfl⟩⟩
    · refine .inl (hostWrite_keeps_ovr ho (fun h => ?_) fun h => ?_)
      · simpa [h] using hctrl
      · simpa [h] using hstatus
  · exact .inr ⟨_, rest, hev, .inl (.inl rfl)⟩

/-- Settles O24: by induction on the events to come (`exists_run_idle`). -/
theorem commandInFlightEndsInBoundedSteps : Obligations.CommandInFlightEndsInBoundedSteps :=
  fun _ hb hacc => exists_run_idle _ rfl hb hacc

end Sys2Proof.Machine
end
